-- ==== Sys2Proof/Word.lean ====
section
/-! DEFINITION. The words of the block: the 16-bit operand and result (R21), the 8-bit command
word (R63) and the byte of host memory (R11). -/

namespace Sys2Proof

/-- `din`, `dout` and every control/status register as read (R21, R28). -/
abbrev Word := BitVec 16

/-- One byte of a host buffer (R11, R12 "Buffer"). -/
abbrev Byte := BitVec 8

/-- The command word `cmd[7:0]` (R63). -/
abbrev CmdWord := BitVec 8

end Sys2Proof
end

