-- ==== Sys2Proof/Syntax.lean ====
section
/-! DEFINITION. The commands of the block: one constructor of `Instr` per row of the opcode table (R66), the
raw command a host offers (R63), and the widths a codec command works at (R10). -/

namespace Sys2Proof

/-- The width field of a codec command: bit, nibble or byte (R10). -/
inductive Width where
  | bit
  | nibble
  | byte
deriving DecidableEq, Repr

/-- A control/status register by name (R28). -/
inductive Csr where
  | ctrl
  | prev
  | status
  | count
  | result
deriving DecidableEq, Repr

/-- What a host offers in one handshake: a command word together with one operand (R63, R70). Any of the
256 words may be offered. -/
structure Command where
  cmd : CmdWord
  din : Word
deriving DecidableEq, Repr

/-- The 36 legal commands (R66). "Every command has a `din`, and a command that uses no operand ignores it"
(R63), so every constructor carries the whole 16-bit operand and a meaning says which bits of it it reads. -/
inductive Instr where
  /-- `NOP`, word 0x00, operand none; din ignored (R135). -/
  | nop (din : Word)
  /-- `MAN_ENC.1`, word 0x10, operand data din[0:0] (R80). -/
  | manEnc1 (din : Word)
  /-- `MAN_ENC.N`, word 0x14, operand data din[3:0] (R80). -/
  | manEncN (din : Word)
  /-- `MAN_ENC.B`, word 0x18, operand data din[7:0] (R80). -/
  | manEncB (din : Word)
  /-- `MAN_DEC.1`, word 0x20, operand symbols din[1:0] (R81). -/
  | manDec1 (din : Word)
  /-- `MAN_DEC.N`, word 0x24, operand symbols din[7:0] (R81). -/
  | manDecN (din : Word)
  /-- `MAN_DEC.B`, word 0x28, operand symbols din[15:0] (R81). -/
  | manDecB (din : Word)
  /-- `MAN_CHK.1`, word 0x30, operand symbols din[1:0] (R120). -/
  | manChk1 (din : Word)
  /-- `MAN_CHK.N`, word 0x34, operand symbols din[7:0] (R120). -/
  | manChkN (din : Word)
  /-- `MAN_CHK.B`, word 0x38, operand symbols din[15:0] (R120). -/
  | manChkB (din : Word)
  /-- `MAN_DECC.B`, word 0x48, operand symbols din[15:0] (R82). -/
  | manDeccB (din : Word)
  /-- `DM_ENC.1`, word 0x50, operand data din[0:0] (R100). -/
  | dmEnc1 (din : Word)
  /-- `DM_ENC.N`, word 0x54, operand data din[3:0] (R100). -/
  | dmEncN (din : Word)
  /-- `DM_ENC.B`, word 0x58, operand data din[7:0] (R100). -/
  | dmEncB (din : Word)
  /-- `DM_DEC.1`, word 0x60, operand symbols din[1:0] (R101). -/
  | dmDec1 (din : Word)
  /-- `DM_DEC.N`, word 0x64, operand symbols din[7:0] (R101). -/
  | dmDecN (din : Word)
  /-- `DM_DEC.B`, word 0x68, operand symbols din[15:0] (R101). -/
  | dmDecB (din : Word)
  /-- `BMC_ENC.1`, word 0x70, operand data din[0:0] (R110). -/
  | bmcEnc1 (din : Word)
  /-- `BMC_ENC.N`, word 0x74, operand data din[3:0] (R110). -/
  | bmcEncN (din : Word)
  /-- `BMC_ENC.B`, word 0x78, operand data din[7:0] (R110). -/
  | bmcEncB (din : Word)
  /-- `BMC_DEC.1`, word 0x80, operand symbols din[1:0] (R111). -/
  | bmcDec1 (din : Word)
  /-- `BMC_DEC.N`, word 0x84, operand symbols din[7:0] (R111). -/
  | bmcDecN (din : Word)
  /-- `BMC_DEC.B`, word 0x88, operand symbols din[15:0] (R111). -/
  | bmcDecB (din : Word)
  /-- `BMC_CHK.1`, word 0x90, operand symbols din[1:0] (R121). -/
  | bmcChk1 (din : Word)
  /-- `BMC_CHK.N`, word 0x94, operand symbols din[7:0] (R121). -/
  | bmcChkN (din : Word)
  /-- `BMC_CHK.B`, word 0x98, operand symbols din[15:0] (R121). -/
  | bmcChkB (din : Word)
  /-- `TRANS.B`, word 0xA8, operand levels din[7:0] (R122). -/
  | transB (din : Word)
  /-- `CSRR CTRL`, word 0xB0, operand none; din ignored (R136). -/
  | csrrCtrl (din : Word)
  /-- `CSRR PREV`, word 0xB1, operand none; din ignored (R136). -/
  | csrrPrev (din : Word)
  /-- `CSRR STATUS`, word 0xB2, operand none; din ignored (R136). -/
  | csrrStatus (din : Word)
  /-- `CSRR COUNT`, word 0xB3, operand none; din ignored (R136). -/
  | csrrCount (din : Word)
  /-- `CSRR RESULT`, word 0xB4, operand none; din ignored (R136). -/
  | csrrResult (din : Word)
  /-- `CSRW CTRL`, word 0xC0, operand value din[15:0] (R137). -/
  | csrwCtrl (din : Word)
  /-- `CSRW PREV`, word 0xC1, operand value din[15:0] (R137). -/
  | csrwPrev (din : Word)
  /-- `CSRW STATUS`, word 0xC2, operand value din[15:0] (R137). -/
  | csrwStatus (din : Word)
  /-- `CSRW COUNT`, word 0xC3, operand value din[15:0] (R137). -/
  | csrwCount (din : Word)
deriving DecidableEq, Repr

end Sys2Proof
end

