-- ==== Sys2Proof/WellFormed.lean ====
section
/-! DEFINITION. Well-formedness of a command: the fields of a command word in its two formats (R63) and the
checks R67 and R68 make of them, one definition per clause. Decode.lean gives each instruction its
fields and says that an instruction is well formed when its fields are. -/

namespace Sys2Proof

/-- The fields of a command word, in format C (codec commands) or format R (CSR commands and NOP) (R63). -/
inductive Fields where
  | c (op : BitVec 4) (w : BitVec 2) (z : BitVec 2)
  | r (op : BitVec 4) (k : BitVec 4)
deriving DecidableEq, Repr

/-- The operation field of either format (R63). -/
def Fields.op : Fields → BitVec 4
  | .c op _ _ => op
  | .r op _ => op

/-- The operations that exist at byte width only: MAN_DECC and TRANS (R65). -/
def byteOnly (op : BitVec 4) : Bool := op == 0x4#4 || op == 0xA#4

/-- The operations of format R: NOP, CSRR and CSRW (R65). -/
def formatR (op : BitVec 4) : Bool := op == 0x0#4 || op == 0xB#4 || op == 0xC#4

/-- R67 (a): `OP` is not `0xD`, `0xE` or `0xF`. -/
def opAssigned (op : BitVec 4) : Bool := op.toNat ≤ 0xC

/-- R67 (b): the width field of a format-C command is not the reserved `11` (R10). -/
def widthAssigned (w : BitVec 2) : Bool := w != 0b11#2

/-- R67 (c): the field `Z` of a format-C command is `00`. -/
def zClear (z : BitVec 2) : Bool := z == 0b00#2

/-- R67 (d): MAN_DECC and TRANS have `W = 10`. -/
def byteOnlyWidth (op : BitVec 4) (w : BitVec 2) : Bool := !byteOnly op || w == 0b10#2

/-- R67 (e) and (f), R68: the field `K` is 0 for NOP, 0 to 4 for CSRR and 0 to 3 for CSRW. -/
def numberAssigned (op k : BitVec 4) : Bool :=
  if op == 0x0#4 then k == 0x0#4
  else if op == 0xB#4 then k.toNat ≤ 4
  else k.toNat ≤ 3

/-- The fields are in the format their operation has, and none of R67's clauses holds of them. -/
def Fields.wellFormed : Fields → Bool
  | .c op w z =>
      opAssigned op && !formatR op && widthAssigned w && zClear z && byteOnlyWidth op w
  | .r op k => opAssigned op && formatR op && numberAssigned op k

end Sys2Proof
end

