-- ==== Sys2Proof/Decode.lean ====
section
/-! DEFINITION. The decoder of the block (R69), total on all 256 command words and naming what is wrong with the
220 illegal ones (R67, R68), and after it the encoder and the host's numbering of an instruction's bits. -/

namespace Sys2Proof

/-- Why a command word is illegal: the clauses of R67 and R68. The block does not record which one held
(R151), so a meaning never reads this. -/
inductive IllegalWord where
  /-- R67 (a): `OP` is `0xD`, `0xE` or `0xF`. -/
  | reservedOperation
  /-- R67 (b): a format-C command with `W = 11`. -/
  | reservedWidth
  /-- R67 (c): a format-C command with `Z` not `00`. -/
  | reservedBitsSet
  /-- R67 (d): MAN_DECC or TRANS with `W` not `10`. -/
  | byteWidthOnly
  /-- R67 (e): NOP with `K` not 0. -/
  | nopNumber
  /-- R68: CSRR with `K` from 5 to 15. -/
  | csrNotReadable
  /-- R68: CSRW with `K` from 4 to 15. -/
  | csrNotWritable
deriving DecidableEq, Repr

/-- `OP`, bits 7:4 of a command word (R63). -/
def opField (cmd : CmdWord) : BitVec 4 := cmd.extractLsb' 4 4

/-- `W`, bits 3:2 of a command word (R63). -/
def wField (cmd : CmdWord) : BitVec 2 := cmd.extractLsb' 2 2

/-- `Z`, bits 1:0 of a command word (R63). -/
def zField (cmd : CmdWord) : BitVec 2 := cmd.extractLsb' 0 2

/-- `K`, bits 3:0 of a command word (R63). -/
def kField (cmd : CmdWord) : BitVec 4 := cmd.extractLsb' 0 4

/-- The width a `W` field selects; `11` selects none (R10). -/
def widthOf (w : BitVec 2) : Option Width :=
  match w.toNat with
  | 0 => some .bit
  | 1 => some .nibble
  | 2 => some .byte
  | _ => none

/-- MAN_ENC at each width (R65, R80). -/
def manEncOf (din : Word) : Width → Instr
  | .bit => .manEnc1 din
  | .nibble => .manEncN din
  | .byte => .manEncB din

/-- MAN_DEC at each width (R65, R81). -/
def manDecOf (din : Word) : Width → Instr
  | .bit => .manDec1 din
  | .nibble => .manDecN din
  | .byte => .manDecB din

/-- MAN_CHK at each width (R65, R120). -/
def manChkOf (din : Word) : Width → Instr
  | .bit => .manChk1 din
  | .nibble => .manChkN din
  | .byte => .manChkB din

/-- DM_ENC at each width (R65, R100). -/
def dmEncOf (din : Word) : Width → Instr
  | .bit => .dmEnc1 din
  | .nibble => .dmEncN din
  | .byte => .dmEncB din

/-- DM_DEC at each width (R65, R101). -/
def dmDecOf (din : Word) : Width → Instr
  | .bit => .dmDec1 din
  | .nibble => .dmDecN din
  | .byte => .dmDecB din

/-- BMC_ENC at each width (R65, R110). -/
def bmcEncOf (din : Word) : Width → Instr
  | .bit => .bmcEnc1 din
  | .nibble => .bmcEncN din
  | .byte => .bmcEncB din

/-- BMC_DEC at each width (R65, R111). -/
def bmcDecOf (din : Word) : Width → Instr
  | .bit => .bmcDec1 din
  | .nibble => .bmcDecN din
  | .byte => .bmcDecB din

/-- BMC_CHK at each width (R65, R121). -/
def bmcChkOf (din : Word) : Width → Instr
  | .bit => .bmcChk1 din
  | .nibble => .bmcChkN din
  | .byte => .bmcChkB din

/-- A format-C command of any width: `Z` must be clear and `W` assigned (R69). -/
def decodeAnyWidth (cmd : CmdWord) (make : Width → Instr) : Except IllegalWord Instr :=
  if zField cmd != 0b00#2 then .error .reservedBitsSet
  else match widthOf (wField cmd) with
    | some w => .ok (make w)
    | none => .error .reservedWidth

/-- A format-C command of byte width only: MAN_DECC and TRANS (R69). -/
def decodeByteOnly (cmd : CmdWord) (i : Instr) : Except IllegalWord Instr :=
  if zField cmd != 0b00#2 then .error .reservedBitsSet
  else match widthOf (wField cmd) with
    | some .byte => .ok i
    | some _ => .error .byteWidthOnly
    | none => .error .reservedWidth

/-- CSRR by register number (R69, R68). -/
def decodeCsrr (k : BitVec 4) (din : Word) : Except IllegalWord Instr :=
  match k.toNat with
  | 0 => .ok (.csrrCtrl din)
  | 1 => .ok (.csrrPrev din)
  | 2 => .ok (.csrrStatus din)
  | 3 => .ok (.csrrCount din)
  | 4 => .ok (.csrrResult din)
  | _ => .error .csrNotReadable

/-- CSRW by register number (R69, R68). -/
def decodeCsrw (k : BitVec 4) (din : Word) : Except IllegalWord Instr :=
  match k.toNat with
  | 0 => .ok (.csrwCtrl din)
  | 1 => .ok (.csrwPrev din)
  | 2 => .ok (.csrwStatus din)
  | 3 => .ok (.csrwCount din)
  | _ => .error .csrNotWritable

/-- The decoder: a total function of the command word that never looks at `din`, which it only hands on
(R69). -/
def decodeWord (cmd : CmdWord) (din : Word) : Except IllegalWord Instr :=
  match (opField cmd).toNat with
  | 0 => if kField cmd == 0x0#4 then .ok (.nop din) else .error .nopNumber
  | 1 => decodeAnyWidth cmd (manEncOf din)
  | 2 => decodeAnyWidth cmd (manDecOf din)
  | 3 => decodeAnyWidth cmd (manChkOf din)
  | 4 => decodeByteOnly cmd (.manDeccB din)
  | 5 => decodeAnyWidth cmd (dmEncOf din)
  | 6 => decodeAnyWidth cmd (dmDecOf din)
  | 7 => decodeAnyWidth cmd (bmcEncOf din)
  | 8 => decodeAnyWidth cmd (bmcDecOf din)
  | 9 => decodeAnyWidth cmd (bmcChkOf din)
  | 10 => decodeByteOnly cmd (.transB din)
  | 11 => decodeCsrr (kField cmd) din
  | 12 => decodeCsrw (kField cmd) din
  | _ => .error .reservedOperation

/-- The decoder of an offered command (R69). -/
def decode (c : Command) : Except IllegalWord Instr := decodeWord c.cmd c.din

/-- The fields of each instruction's command word (R65, R66). -/
def Instr.fields : Instr → Fields
  | .nop _ => .r 0x0#4 0x0#4
  | .manEnc1 _ => .c 0x1#4 0b00#2 0b00#2
  | .manEncN _ => .c 0x1#4 0b01#2 0b00#2
  | .manEncB _ => .c 0x1#4 0b10#2 0b00#2
  | .manDec1 _ => .c 0x2#4 0b00#2 0b00#2
  | .manDecN _ => .c 0x2#4 0b01#2 0b00#2
  | .manDecB _ => .c 0x2#4 0b10#2 0b00#2
  | .manChk1 _ => .c 0x3#4 0b00#2 0b00#2
  | .manChkN _ => .c 0x3#4 0b01#2 0b00#2
  | .manChkB _ => .c 0x3#4 0b10#2 0b00#2
  | .manDeccB _ => .c 0x4#4 0b10#2 0b00#2
  | .dmEnc1 _ => .c 0x5#4 0b00#2 0b00#2
  | .dmEncN _ => .c 0x5#4 0b01#2 0b00#2
  | .dmEncB _ => .c 0x5#4 0b10#2 0b00#2
  | .dmDec1 _ => .c 0x6#4 0b00#2 0b00#2
  | .dmDecN _ => .c 0x6#4 0b01#2 0b00#2
  | .dmDecB _ => .c 0x6#4 0b10#2 0b00#2
  | .bmcEnc1 _ => .c 0x7#4 0b00#2 0b00#2
  | .bmcEncN _ => .c 0x7#4 0b01#2 0b00#2
  | .bmcEncB _ => .c 0x7#4 0b10#2 0b00#2
  | .bmcDec1 _ => .c 0x8#4 0b00#2 0b00#2
  | .bmcDecN _ => .c 0x8#4 0b01#2 0b00#2
  | .bmcDecB _ => .c 0x8#4 0b10#2 0b00#2
  | .bmcChk1 _ => .c 0x9#4 0b00#2 0b00#2
  | .bmcChkN _ => .c 0x9#4 0b01#2 0b00#2
  | .bmcChkB _ => .c 0x9#4 0b10#2 0b00#2
  | .transB _ => .c 0xA#4 0b10#2 0b00#2
  | .csrrCtrl _ => .r 0xB#4 0x0#4
  | .csrrPrev _ => .r 0xB#4 0x1#4
  | .csrrStatus _ => .r 0xB#4 0x2#4
  | .csrrCount _ => .r 0xB#4 0x3#4
  | .csrrResult _ => .r 0xB#4 0x4#4
  | .csrwCtrl _ => .r 0xC#4 0x0#4
  | .csrwPrev _ => .r 0xC#4 0x1#4
  | .csrwStatus _ => .r 0xC#4 0x2#4
  | .csrwCount _ => .r 0xC#4 0x3#4

/-- The operand each instruction was issued with (R63). -/
def Instr.din : Instr → Word
  | .nop din => din
  | .manEnc1 din => din
  | .manEncN din => din
  | .manEncB din => din
  | .manDec1 din => din
  | .manDecN din => din
  | .manDecB din => din
  | .manChk1 din => din
  | .manChkN din => din
  | .manChkB din => din
  | .manDeccB din => din
  | .dmEnc1 din => din
  | .dmEncN din => din
  | .dmEncB din => din
  | .dmDec1 din => din
  | .dmDecN din => din
  | .dmDecB din => din
  | .bmcEnc1 din => din
  | .bmcEncN din => din
  | .bmcEncB din => din
  | .bmcDec1 din => din
  | .bmcDecN din => din
  | .bmcDecB din => din
  | .bmcChk1 din => din
  | .bmcChkN din => din
  | .bmcChkB din => din
  | .transB din => din
  | .csrrCtrl din => din
  | .csrrPrev din => din
  | .csrrStatus din => din
  | .csrrCount din => din
  | .csrrResult din => din
  | .csrwCtrl din => din
  | .csrwPrev din => din
  | .csrwStatus din => din
  | .csrwCount din => din

/-- An instruction is well formed when its fields pass the checks of R67 and R68. -/
def Instr.wellFormed (i : Instr) : Bool := i.fields.wellFormed

/-- A command word put together from its fields, `OP` in bits 7:4 (R63). -/
def Fields.word : Fields → CmdWord
  | .c op w z => op ++ w ++ z
  | .r op k => op ++ k

/-- The command that issues an instruction. -/
def encode (i : Instr) : Command := ⟨i.fields.word, i.din⟩

/-- A command as one number: the command word in bits 7:0 and the operand in bits 23:8 above it. Log
entry 15. -/
def commandOfNat (nbits w : Nat) : Command :=
  let bits := w % 2 ^ nbits
  ⟨BitVec.ofNat 8 bits, BitVec.ofNat 16 (bits / 2 ^ 8)⟩

/-- The instruction the decoder reads from the bits `w`, those above `nbits` taken as 0. -/
def decodeTableWord (nbits w : Nat) : Option Instr :=
  match decode (commandOfNat nbits w) with
  | .ok i => some i
  | .error _ => none

end Sys2Proof
end

