-- ==== Sys2Proof/Config.lean ====
section
/-! DEFINITION. What an implementation of the block fixes (R7), and the values the spec leaves free.
Every `opaque` constant here has no body: no proof can learn its value. -/

namespace Sys2Proof.Config

open Sys2Proof

/-- The three interchangeable implementations of the Manchester steps (R7, R140). -/
inductive Backend where
  | bitwise
  | lut
  | peripheral
deriving DecidableEq, Repr

/-- A legal build: the backend together with `PERIPHERAL_PRESENT`. `BACKEND = PERIPHERAL` requires the
peripheral (R7, R139), so that constructor carries no choice of it. -/
inductive Build where
  | bitwise (peripheralPresent : Bool)
  | lut (peripheralPresent : Bool)
  | peripheral
deriving DecidableEq, Repr, Inhabited

/-- The parameter `BACKEND` of a build (R7). -/
def Build.backend : Build → Backend
  | .bitwise _ => .bitwise
  | .lut _ => .lut
  | .peripheral => .peripheral

/-- The parameter `PERIPHERAL_PRESENT` of a build (R7). -/
def Build.peripheralPresent : Build → Bool
  | .bitwise p => p
  | .lut p => p
  | .peripheral => true

/-- The build of this block, chosen at build or configuration time (R139). No meaning reads it (R138);
log entry 6. -/
opaque build : Build

/-- The parameter `MAN_DEC_INVALID` (s0, s1, POL): the data bit MAN_DEC returns for a symbol whose two
bits are equal (R7, R81, D16). A FREE VALUE; log entry 4. -/
opaque manDecInvalid : Bool → Bool → Bool → Bool

/-- How far `LATENCY` exceeds its least value. A FREE VALUE; log entry 7. -/
opaque latencyBeyondOne : Nat

/-- The parameter `LATENCY`: cycles from acceptance to response, at least 1 (R7, R61, D3). -/
def latency : Nat := latencyBeyondOne + 1

/-- `CNT_WIDTH`, fixed at 16 (R7, D14). -/
def cntWidth : Nat := 16

/-- The width of `din` and of `dout`, fixed at 16 bits (R7, D9). -/
def operandWidth : Nat := 16

/-- POL after the given power-up and before a reset (R171, I10: any value); log entry 5. -/
opaque powerUpPol : Nat → Bool

/-- PREV after the given power-up and before a reset (R171, I10: any value); log entry 5. -/
opaque powerUpPrev : Nat → Bool

/-- ERR after the given power-up and before a reset (R171, I10: any value); log entry 5. -/
opaque powerUpErr : Nat → Bool

/-- ILL after the given power-up and before a reset (R171, I10: any value); log entry 5. -/
opaque powerUpIll : Nat → Bool

/-- CNT after the given power-up and before a reset (R171, I10: any value); log entry 5. -/
opaque powerUpCnt : Nat → Word

end Sys2Proof.Config
end

