-- ==== Sys2Proof/Machine/State.lean ====
section
/-! DEFINITION. The state of the machine. `Arch` is exactly the block's architectural record (R20). `State` puts
beside it what stands at the block's port: the host's events still to come, the response of the
command just performed, and a counter for free values. Log entries 1, 2 and 5. -/

namespace Sys2Proof.Machine

open Sys2Proof

/-- The architectural state of the block (R20). -/
structure Arch where
  /-- CSR 0 `CTRL`, bit 0: the Manchester polarity (R23). -/
  pol : Bool
  /-- CSR 1 `PREV`, bit 0: the boundary state (R24). -/
  prev : Bool
  /-- CSR 2 `STATUS`, bit 0: the sticky malformed-input flag (R25). -/
  err : Bool
  /-- CSR 2 `STATUS`, bit 1: the sticky illegal-command flag (R26). -/
  ill : Bool
  /-- CSR 3 `COUNT`: units that passed before the first malformed one (R27). -/
  cnt : Word
deriving DecidableEq, Repr

/-- The response codes; the code `11` is never produced (R62). -/
inductive ResponseCode where
  | ok
  | malformed
  | illegal
deriving DecidableEq, Repr

/-- What the block answers to one command: `rsp` and `dout` (R60, R62). -/
structure Response where
  rsp : ResponseCode
  dout : Word
deriving DecidableEq, Repr

/-- What the outside world does to the block: it offers a command or asserts reset (R20), or power comes
back after it was lost (R165, R171). -/
inductive HostEvent where
  | command (c : Command)
  | reset
  | powerUp
deriving DecidableEq, Repr

/-- The machine: the block's record and what stands at its port. -/
structure State where
  /-- The block's architectural record (R20). -/
  arch : Arch
  /-- The host's events still to come, the next one first (R22, R45); the MODEL's own. -/
  input : List HostEvent
  /-- The response of the command just performed, none where no command was (R31, R180); the MODEL's
  own view of the ports `rsp_valid`, `dout` and `rsp` (R60). -/
  response : Option Response
  /-- How many power-ups there have been; picks the free values of each (R171); the MODEL's own. -/
  powerUps : Nat
deriving DecidableEq, Repr

/-- The reasons a step can fault: none. "The block has no halted, locked or stuck state" (R154), and every
command gets a response (R61). -/
inductive Fault where
deriving DecidableEq, Repr

/-- The reasons a run can be refused. No command of the block is refused (R20: the step is total); apart from
the first, which no arm uses, these are raised by the reference host procedures on a host program the
spec says to refuse (R55, I4). All are safe: they give a host program no meaning. -/
inductive Refusal where
  /-- An instruction without a meaning; no arm of `exec` uses it. Safe. -/
  | notModelled (mnemonic : String)
  /-- A symbol buffer with an odd number of bytes, by a host procedure (R55 (a)). Safe. -/
  | oddSymbolBuffer
  /-- More than 65535 units in one block, by a host procedure (R55 (d), R181, I16). Safe. -/
  | blockTooLong
  /-- Input and output buffers that overlap other than as R49 and R53 allow, by a host procedure (R55 (e),
  I5). Safe. -/
  | bufferOverlap
  /-- A DM or BMC encode in place, by a host procedure (R49, I5). Safe. -/
  | statefulInPlace
  /-- A host procedure read a byte of host memory that nothing has written; log entry 10. Safe. -/
  | hostByteAbsent (address : Nat)
  /-- A host procedure found no response to its command; never raised, since every command gets one
  (R61). Safe. -/
  | noResponse
deriving DecidableEq, Repr

/-- The architectural record after reset (R34). -/
def Arch.reset : Arch :=
  { pol := false, prev := false, err := false, ill := false, cnt := 0x0000#16 }

/-- The machine right after reset (R34, R170): no response yet (R31), and nothing offered by the host. -/
def State.reset : State :=
  { arch := Arch.reset, input := [], response := none, powerUps := 0 }

end Sys2Proof.Machine
end

