-- ==== Sys2Proof/Machine/Flags.lean ====
section
/-! DEFINITION. The status flags ERR and ILL, the count they govern, and the response code of a check (R25 to R27,
R62). -/

namespace Sys2Proof.Machine

open Sys2Proof

/-- The port encoding `rsp[1:0]` of a response code (R62). -/
def ResponseCode.bits : ResponseCode → BitVec 2
  | .ok => 0b00#2
  | .malformed => 0b01#2
  | .illegal => 0b10#2

/-- The increment of CNT: it saturates at 0xFFFF and never wraps (R27). -/
def countUp (cnt : Word) : Word := if cnt == 0xFFFF#16 then cnt else cnt + 1#16

/-- The status update of a checked unit. The test reads ERR as it was before the command (R27). -/
def account (valid : Bool) (a : Arch) : Arch :=
  if !valid then { a with err := true }
  else if !a.err then { a with cnt := countUp a.cnt }
  else a

/-- The response code of a command that checks its input (R150). -/
def codeOfCheck (valid : Bool) : ResponseCode := if valid then .ok else .malformed

end Sys2Proof.Machine
end

