-- ==== Sys2Proof/Machine/Operands.lean ====
section
/-! DEFINITION. How operands are read from `din` and results put into `dout` (R64). Bits and symbols stand in lists in
transmission order, the most significant first (R9, R41). -/

namespace Sys2Proof.Machine

open Sys2Proof

/-- A symbol: two bits, the first one transmitted earlier (R9). -/
structure Symbol where
  first : Bool
  second : Bool
deriving DecidableEq, Repr

/-- The number of data bits, and of symbols, a width stands for (R10). -/
def unitsOf : Width → Nat
  | .bit => 1
  | .nibble => 4
  | .byte => 8

/-- The data operand `din[n-1:0]`, bit n-1 first; the bits above are ignored (R64). -/
def dataBits : Nat → Word → List Bool
  | 0, _ => []
  | n + 1, x => x.getLsbD n :: dataBits n x

/-- The symbol operand `din[2n-1:0]`, symbol n-1 first: symbol j is bits 2j+1 and 2j (R9). -/
def symbols : Nat → Word → List Symbol
  | 0, _ => []
  | n + 1, x => ⟨x.getLsbD (2 * n + 1), x.getLsbD (2 * n)⟩ :: symbols n x

/-- A word from its bits, the most significant first, with zeros above (R8 `zext_16`). -/
def packBits (bits : List Bool) : Word := bits.foldl BitVec.shiftConcat 0x0000#16

/-- The bits of a run of symbols in transmission order (R9). -/
def symbolBits : List Symbol → List Bool
  | [] => []
  | s :: rest => s.first :: s.second :: symbolBits rest

/-- A codeword from its symbols, the first transmitted in the most significant place (R41). -/
def packSymbols (ss : List Symbol) : Word := packBits (symbolBits ss)

/-- A single bit widened to a word (R8 `zext_16`). -/
def zextBit (b : Bool) : Word := packBits [b]

/-- The line level after a run of symbols that began at level `p`: the second bit of the last symbol
(R24). -/
def lineEnd (p : Bool) : List Symbol → Bool
  | [] => p
  | s :: rest => lineEnd s.second rest

end Sys2Proof.Machine
end

