-- ==== Sys2Proof/Machine/Ops.lean ====
section
/-! DEFINITION. The named operations every meaning is built from: finishing a command, the register reads and writes
(R28), the illegal-command effect (R151), and the block's other events (R20). -/

namespace Sys2Proof.Machine

open Sys2Proof

/-- A performed command: the block's new record, and its response at the port (R45, R61). -/
def finish (s : State) (r : Arch × Response) : Host.Outcome State Fault Refusal :=
  .next { s with arch := r.1, response := some r.2 }

/-- A result together with the response `OK` (R62). -/
def okWith (dout : Word) : Response := { rsp := .ok, dout := dout }

/-- What a control/status register reads as. Reserved bits read 0, and RESULT is the view `ERR ? CNT : 0`
(R28, R29, R30). -/
def csrRead (k : Csr) (a : Arch) : Word :=
  match k with
  | .ctrl => zextBit a.pol
  | .prev => zextBit a.prev
  | .status => packBits [a.ill, a.err]
  | .count => a.cnt
  | .result => if a.err then a.cnt else 0x0000#16

/-- The write of CTRL: bit 0 is POL and the reserved bits are ignored (R137, R30). -/
def writeCtrl (v : Word) (a : Arch) : Arch := { a with pol := v.getLsbD 0 }

/-- The write of PREV: bit 0 is PREV and the reserved bits are ignored (R137, R30). -/
def writePrev (v : Word) (a : Arch) : Arch := { a with prev := v.getLsbD 0 }

/-- The write of STATUS: bit 0 is ERR, bit 1 is ILL, and the reserved bits are ignored (R137, R30). -/
def writeStatus (v : Word) (a : Arch) : Arch := { a with err := v.getLsbD 0, ill := v.getLsbD 1 }

/-- The write of COUNT: all 16 bits (R137, R30). -/
def writeCount (v : Word) (a : Arch) : Arch := { a with cnt := v }

/-- PREV takes the line level after the last symbol produced or consumed (R24). -/
def advancePrev (ss : List Symbol) (a : Arch) : Arch := { a with prev := lineEnd a.prev ss }

/-- The effect of an illegal command word: ILL is set and nothing else changes (R151). This is the
block's whole exception: there is no trap entry (R157) and no return from one (R158). -/
def illegalEffect (a : Arch) : Arch × Response :=
  ({ a with ill := true }, { rsp := .illegal, dout := 0x0000#16 })

/-- An illegal command is received: its effect and its response (R151, R154). -/
def raiseIllegal (s : State) : Host.Outcome State Fault Refusal := finish s (illegalEffect s.arch)

/-- A rising edge with `rst = 1`: the record takes its reset values and no response is offered (R170). -/
def applyReset (s : State) : State := { s with arch := Arch.reset, response := none }

/-- The record after the n-th power-up and before the first reset: every field is a free value (R171, I10). -/
def powerUpArch (n : Nat) : Arch :=
  { pol := Config.powerUpPol n
    prev := Config.powerUpPrev n
    err := Config.powerUpErr n
    ill := Config.powerUpIll n
    cnt := Config.powerUpCnt n }

/-- Power comes back: the record is any value and no response is offered (R165, R171). -/
def applyPowerUp (s : State) : State :=
  { s with arch := powerUpArch s.powerUps, response := none, powerUps := s.powerUps + 1 }

/-- Nothing is offered: the record stands, and a response stands at the port for one cycle only (R20, R60). -/
def idle (s : State) : State := { s with response := none }

/-- The host offers a command, ahead of what it offers later (R45). -/
def State.offer (c : Command) (s : State) : State := { s with input := .command c :: s.input }

end Sys2Proof.Machine
end

