-- ==== Sys2Proof/Machine/Bmc.lean ====
section
/-! DEFINITION. Biphase Mark Code encode and decode: BMC_ENC and BMC_DEC (42_bmc.md). -/

namespace Sys2Proof.Machine

open Sys2Proof

/-- The symbols of a run of data bits from the level `p`: every boundary flips the level, and a 1 flips it again in
the middle (R110). -/
def bmcSymbols (p : Bool) : List Bool → List Symbol
  | [] => []
  | d :: rest =>
      let s0 := !p
      let s1 := if d then !s0 else s0
      ⟨s0, s1⟩ :: bmcSymbols s1 rest

/-- The data bit of a symbol: 1 iff a mid-bit transition occurred (R111). -/
def bmcBit (s : Symbol) : Bool := s.first ^^ s.second

/-- BMC_ENC at n data bits (R110). -/
def bmcEnc (n : Nat) (din : Word) (a : Arch) : Arch × Response :=
  let ss := bmcSymbols a.prev (dataBits n din)
  (advancePrev ss a, okWith (packSymbols ss))

/-- BMC_DEC at n symbols: it reads no state, checks nothing, and writes PREV (R111). -/
def bmcDec (n : Nat) (din : Word) (a : Arch) : Arch × Response :=
  let ss := symbols n din
  (advancePrev ss a, okWith (packBits (ss.map bmcBit)))

/-- BMC_ENC.1 (R110). -/
def execBmcEnc1 (din : Word) (s : State) : Host.Outcome State Fault Refusal :=
  finish s (bmcEnc (unitsOf .bit) din s.arch)

/-- BMC_ENC.N (R110). -/
def execBmcEncN (din : Word) (s : State) : Host.Outcome State Fault Refusal :=
  finish s (bmcEnc (unitsOf .nibble) din s.arch)

/-- BMC_ENC.B (R110). -/
def execBmcEncB (din : Word) (s : State) : Host.Outcome State Fault Refusal :=
  finish s (bmcEnc (unitsOf .byte) din s.arch)

/-- BMC_DEC.1 (R111). -/
def execBmcDec1 (din : Word) (s : State) : Host.Outcome State Fault Refusal :=
  finish s (bmcDec (unitsOf .bit) din s.arch)

/-- BMC_DEC.N (R111). -/
def execBmcDecN (din : Word) (s : State) : Host.Outcome State Fault Refusal :=
  finish s (bmcDec (unitsOf .nibble) din s.arch)

/-- BMC_DEC.B (R111). -/
def execBmcDecB (din : Word) (s : State) : Host.Outcome State Fault Refusal :=
  finish s (bmcDec (unitsOf .byte) din s.arch)

end Sys2Proof.Machine
end

