-- ==== Sys2Proof/Machine/Control.lean ====
section
/-! DEFINITION. The control commands NOP, CSRR and CSRW (44_control.md). -/

namespace Sys2Proof.Machine

open Sys2Proof

/-- NOP: no effect and no result; the operand is ignored (R135). -/
def execNop (_din : Word) (s : State) : Host.Outcome State Fault Refusal :=
  finish s (s.arch, okWith 0x0000#16)

/-- CSRR CTRL: the operand is ignored and nothing is written (R136). -/
def execCsrrCtrl (_din : Word) (s : State) : Host.Outcome State Fault Refusal :=
  finish s (s.arch, okWith (csrRead .ctrl s.arch))

/-- CSRR PREV (R136). -/
def execCsrrPrev (_din : Word) (s : State) : Host.Outcome State Fault Refusal :=
  finish s (s.arch, okWith (csrRead .prev s.arch))

/-- CSRR STATUS: reading STATUS does not clear it (R136). -/
def execCsrrStatus (_din : Word) (s : State) : Host.Outcome State Fault Refusal :=
  finish s (s.arch, okWith (csrRead .status s.arch))

/-- CSRR COUNT (R136). -/
def execCsrrCount (_din : Word) (s : State) : Host.Outcome State Fault Refusal :=
  finish s (s.arch, okWith (csrRead .count s.arch))

/-- CSRR RESULT: the view `ERR ? CNT : 0` (R136, R29). -/
def execCsrrResult (_din : Word) (s : State) : Host.Outcome State Fault Refusal :=
  finish s (s.arch, okWith (csrRead .result s.arch))

/-- CSRW CTRL (R137). -/
def execCsrwCtrl (din : Word) (s : State) : Host.Outcome State Fault Refusal :=
  finish s (writeCtrl din s.arch, okWith 0x0000#16)

/-- CSRW PREV (R137). -/
def execCsrwPrev (din : Word) (s : State) : Host.Outcome State Fault Refusal :=
  finish s (writePrev din s.arch, okWith 0x0000#16)

/-- CSRW STATUS: writing 1 to ERR or ILL sets it (R137). -/
def execCsrwStatus (din : Word) (s : State) : Host.Outcome State Fault Refusal :=
  finish s (writeStatus din s.arch, okWith 0x0000#16)

/-- CSRW COUNT (R137). -/
def execCsrwCount (din : Word) (s : State) : Host.Outcome State Fault Refusal :=
  finish s (writeCount din s.arch, okWith 0x0000#16)

end Sys2Proof.Machine
end

