-- ==== Sys2Proof/Machine/DiffManchester.lean ====
section
/-! DEFINITION. Differential Manchester encode and decode: DM_ENC and DM_DEC (41_diff_manchester.md). -/

namespace Sys2Proof.Machine

open Sys2Proof

/-- The symbols of a run of data bits from the level `p`: a 0 flips the level at the boundary, every symbol flips it
in the middle, and what is carried on is the second bit (R100). -/
def dmSymbols (p : Bool) : List Bool → List Symbol
  | [] => []
  | d :: rest =>
      let s0 := if d then p else !p
      ⟨s0, !s0⟩ :: dmSymbols (!s0) rest

/-- The data bits of a run of symbols from the level `p`: no boundary transition means 1 (R101). -/
def dmBits (p : Bool) : List Symbol → List Bool
  | [] => []
  | s :: rest => (p == s.first) :: dmBits s.second rest

/-- DM_ENC at n data bits (R100). -/
def dmEnc (n : Nat) (din : Word) (a : Arch) : Arch × Response :=
  let ss := dmSymbols a.prev (dataBits n din)
  (advancePrev ss a, okWith (packSymbols ss))

/-- DM_DEC at n symbols: it checks nothing (R101). -/
def dmDec (n : Nat) (din : Word) (a : Arch) : Arch × Response :=
  let ss := symbols n din
  (advancePrev ss a, okWith (packBits (dmBits a.prev ss)))

/-- DM_ENC.1 (R100). -/
def execDmEnc1 (din : Word) (s : State) : Host.Outcome State Fault Refusal :=
  finish s (dmEnc (unitsOf .bit) din s.arch)

/-- DM_ENC.N (R100). -/
def execDmEncN (din : Word) (s : State) : Host.Outcome State Fault Refusal :=
  finish s (dmEnc (unitsOf .nibble) din s.arch)

/-- DM_ENC.B (R100). -/
def execDmEncB (din : Word) (s : State) : Host.Outcome State Fault Refusal :=
  finish s (dmEnc (unitsOf .byte) din s.arch)

/-- DM_DEC.1 (R101). -/
def execDmDec1 (din : Word) (s : State) : Host.Outcome State Fault Refusal :=
  finish s (dmDec (unitsOf .bit) din s.arch)

/-- DM_DEC.N (R101). -/
def execDmDecN (din : Word) (s : State) : Host.Outcome State Fault Refusal :=
  finish s (dmDec (unitsOf .nibble) din s.arch)

/-- DM_DEC.B (R101). -/
def execDmDecB (din : Word) (s : State) : Host.Outcome State Fault Refusal :=
  finish s (dmDec (unitsOf .byte) din s.arch)

end Sys2Proof.Machine
end

