-- ==== Sys2Proof/Machine/Manchester.lean ====
section
/-! DEFINITION. Manchester encode and decode: MAN_ENC, MAN_DEC and MAN_DECC (40_manchester.md). -/

namespace Sys2Proof.Machine

open Sys2Proof

/-- The Manchester symbol of a data bit under a polarity (R79). -/
def msym (pol b : Bool) : Symbol := ⟨!(b ^^ pol), b ^^ pol⟩

/-- A symbol is Manchester-well-formed iff its two bits differ (R79). -/
def manSymbolOk (s : Symbol) : Bool := s.first != s.second

/-- The data bit of a symbol: its second bit against the polarity where the symbol is well formed, and the free
value MAN_DEC_INVALID where it is not (R81). -/
def manDecodeBit (pol : Bool) (s : Symbol) : Bool :=
  if manSymbolOk s then s.second ^^ pol else Config.manDecInvalid s.first s.second pol

/-- The data bit MAN_DECC takes from a well-formed symbol (R82). -/
def manPlainBit (pol : Bool) (s : Symbol) : Bool := s.second ^^ pol

/-- The codeword of a data word (R80). -/
def manCodeword (n : Nat) (pol : Bool) (din : Word) : Word :=
  packSymbols ((dataBits n din).map (msym pol))

/-- MAN_ENC at n data bits (R80). -/
def manEnc (n : Nat) (din : Word) (a : Arch) : Arch × Response :=
  (a, okWith (manCodeword n a.pol din))

/-- MAN_DEC at n symbols: it reports a malformed word and writes no state (R81). -/
def manDec (n : Nat) (din : Word) (a : Arch) : Arch × Response :=
  (a, { rsp := codeOfCheck ((symbols n din).all manSymbolOk)
        dout := packBits ((symbols n din).map (manDecodeBit a.pol)) })

/-- MAN_DECC: decode and check in one pass, with the result 0 for a malformed codeword (R82). -/
def manDecc (din : Word) (a : Arch) : Arch × Response :=
  let valid := (symbols 8 din).all manSymbolOk
  (account valid a,
    { rsp := codeOfCheck valid
      dout := if valid then packBits ((symbols 8 din).map (manPlainBit a.pol)) else 0x0000#16 })

/-- MAN_ENC.1 (R80). -/
def execManEnc1 (din : Word) (s : State) : Host.Outcome State Fault Refusal :=
  finish s (manEnc (unitsOf .bit) din s.arch)

/-- MAN_ENC.N (R80). -/
def execManEncN (din : Word) (s : State) : Host.Outcome State Fault Refusal :=
  finish s (manEnc (unitsOf .nibble) din s.arch)

/-- MAN_ENC.B (R80). -/
def execManEncB (din : Word) (s : State) : Host.Outcome State Fault Refusal :=
  finish s (manEnc (unitsOf .byte) din s.arch)

/-- MAN_DEC.1 (R81). -/
def execManDec1 (din : Word) (s : State) : Host.Outcome State Fault Refusal :=
  finish s (manDec (unitsOf .bit) din s.arch)

/-- MAN_DEC.N (R81). -/
def execManDecN (din : Word) (s : State) : Host.Outcome State Fault Refusal :=
  finish s (manDec (unitsOf .nibble) din s.arch)

/-- MAN_DEC.B (R81). -/
def execManDecB (din : Word) (s : State) : Host.Outcome State Fault Refusal :=
  finish s (manDec (unitsOf .byte) din s.arch)

/-- MAN_DECC.B (R82). -/
def execManDeccB (din : Word) (s : State) : Host.Outcome State Fault Refusal :=
  finish s (manDecc din s.arch)

end Sys2Proof.Machine
end

