-- ==== Sys2Proof/Machine/Validity.lean ====
section
/-! DEFINITION. The validity checkers MAN_CHK and BMC_CHK and the transition detector TRANS
(43_validity_transition.md). -/

namespace Sys2Proof.Machine

open Sys2Proof

/-- MAN_CHK at n symbols: every symbol's two bits differ; POL plays no part (R120). -/
def manChk (n : Nat) (din : Word) (a : Arch) : Arch × Response :=
  let valid := (symbols n din).all manSymbolOk
  (account valid a, { rsp := codeOfCheck valid, dout := 0x0000#16 })

/-- Whether every symbol's first bit differs from the level before it, the run beginning at level `p` (R121). -/
def bmcValid (p : Bool) : List Symbol → Bool
  | [] => true
  | s :: rest => (s.first != p) && bmcValid s.second rest

/-- BMC_CHK at n symbols: all are examined and PREV ends at the last one's second bit even after a failure
(R121). -/
def bmcChk (n : Nat) (din : Word) (a : Arch) : Arch × Response :=
  let ss := symbols n din
  let valid := bmcValid a.prev ss
  (account valid (advancePrev ss a), { rsp := codeOfCheck valid, dout := 0x0000#16 })

/-- The transitions of a run of line levels after the level `p`, the first transmitted first (R122). -/
def transitions (p : Bool) : List Bool → List Bool
  | [] => []
  | v :: rest => (v ^^ p) :: transitions v rest

/-- TRANS: it reads PREV and writes no state (R122). -/
def trans (din : Word) (a : Arch) : Arch × Response :=
  (a, okWith (packBits (transitions a.prev (dataBits 8 din))))

/-- MAN_CHK.1 (R120). -/
def execManChk1 (din : Word) (s : State) : Host.Outcome State Fault Refusal :=
  finish s (manChk (unitsOf .bit) din s.arch)

/-- MAN_CHK.N (R120). -/
def execManChkN (din : Word) (s : State) : Host.Outcome State Fault Refusal :=
  finish s (manChk (unitsOf .nibble) din s.arch)

/-- MAN_CHK.B (R120). -/
def execManChkB (din : Word) (s : State) : Host.Outcome State Fault Refusal :=
  finish s (manChk (unitsOf .byte) din s.arch)

/-- BMC_CHK.1 (R121). -/
def execBmcChk1 (din : Word) (s : State) : Host.Outcome State Fault Refusal :=
  finish s (bmcChk (unitsOf .bit) din s.arch)

/-- BMC_CHK.N (R121). -/
def execBmcChkN (din : Word) (s : State) : Host.Outcome State Fault Refusal :=
  finish s (bmcChk (unitsOf .nibble) din s.arch)

/-- BMC_CHK.B (R121). -/
def execBmcChkB (din : Word) (s : State) : Host.Outcome State Fault Refusal :=
  finish s (bmcChk (unitsOf .byte) din s.arch)

/-- TRANS.B (R122). -/
def execTransB (din : Word) (s : State) : Host.Outcome State Fault Refusal :=
  finish s (trans din s.arch)

end Sys2Proof.Machine
end

