-- ==== Sys2Proof/Machine/Dispatch.lean ====
section
/-! DEFINITION. The meaning of each instruction, one arm per constructor. -/

namespace Sys2Proof.Machine

open Sys2Proof

def exec (i : Instr) (s : State) : Host.Outcome State Fault Refusal :=
  match i with
  | .nop din => Sys2Proof.Machine.execNop din s
  | .manEnc1 din => Sys2Proof.Machine.execManEnc1 din s
  | .manEncN din => Sys2Proof.Machine.execManEncN din s
  | .manEncB din => Sys2Proof.Machine.execManEncB din s
  | .manDec1 din => Sys2Proof.Machine.execManDec1 din s
  | .manDecN din => Sys2Proof.Machine.execManDecN din s
  | .manDecB din => Sys2Proof.Machine.execManDecB din s
  | .manChk1 din => Sys2Proof.Machine.execManChk1 din s
  | .manChkN din => Sys2Proof.Machine.execManChkN din s
  | .manChkB din => Sys2Proof.Machine.execManChkB din s
  | .manDeccB din => Sys2Proof.Machine.execManDeccB din s
  | .dmEnc1 din => Sys2Proof.Machine.execDmEnc1 din s
  | .dmEncN din => Sys2Proof.Machine.execDmEncN din s
  | .dmEncB din => Sys2Proof.Machine.execDmEncB din s
  | .dmDec1 din => Sys2Proof.Machine.execDmDec1 din s
  | .dmDecN din => Sys2Proof.Machine.execDmDecN din s
  | .dmDecB din => Sys2Proof.Machine.execDmDecB din s
  | .bmcEnc1 din => Sys2Proof.Machine.execBmcEnc1 din s
  | .bmcEncN din => Sys2Proof.Machine.execBmcEncN din s
  | .bmcEncB din => Sys2Proof.Machine.execBmcEncB din s
  | .bmcDec1 din => Sys2Proof.Machine.execBmcDec1 din s
  | .bmcDecN din => Sys2Proof.Machine.execBmcDecN din s
  | .bmcDecB din => Sys2Proof.Machine.execBmcDecB din s
  | .bmcChk1 din => Sys2Proof.Machine.execBmcChk1 din s
  | .bmcChkN din => Sys2Proof.Machine.execBmcChkN din s
  | .bmcChkB din => Sys2Proof.Machine.execBmcChkB din s
  | .transB din => Sys2Proof.Machine.execTransB din s
  | .csrrCtrl din => Sys2Proof.Machine.execCsrrCtrl din s
  | .csrrPrev din => Sys2Proof.Machine.execCsrrPrev din s
  | .csrrStatus din => Sys2Proof.Machine.execCsrrStatus din s
  | .csrrCount din => Sys2Proof.Machine.execCsrrCount din s
  | .csrrResult din => Sys2Proof.Machine.execCsrrResult din s
  | .csrwCtrl din => Sys2Proof.Machine.execCsrwCtrl din s
  | .csrwPrev din => Sys2Proof.Machine.execCsrwPrev din s
  | .csrwStatus din => Sys2Proof.Machine.execCsrwStatus din s
  | .csrwCount din => Sys2Proof.Machine.execCsrwCount din s

end Sys2Proof.Machine
end

