-- ==== Sys2Proof/Machine/Accept.lean ====
section
/-! DEFINITION. What the block does with a command it accepts: decode it, then perform it or raise R151's effect. -/

namespace Sys2Proof.Machine

open Sys2Proof

/-- A command is accepted: it is decoded before it is performed (R155), and an illegal one has R151's effect. -/
def accept (c : Command) (s : State) : Host.Outcome State Fault Refusal :=
  match decode c with
  | .ok i => exec i s
  | .error _ => raiseIllegal s

end Sys2Proof.Machine
end

