-- ==== Sys2Proof/Machine/Step.lean ====
section
/-! DEFINITION. One step of the machine: the next event the host offers, performed whole and in order (R20, R45). -/

namespace Sys2Proof.Machine

open Sys2Proof

/-- One step: the host's next event is taken off the port and performed; with none offered the block idles. -/
def step (s : State) : Host.Outcome State Fault Refusal :=
  match s.input with
  | [] => .next (idle s)
  | .command c :: rest => accept c { s with input := rest }
  | .reset :: rest => .next (applyReset { s with input := rest })
  | .powerUp :: rest => .next (applyPowerUp { s with input := rest })

/-- The state in which the host offers the instruction with the bits `w` next (log entries 1 and 15). -/
def State.withFetchWord (s : State) (nbits w : Nat) : State := s.offer (commandOfNat nbits w)

end Sys2Proof.Machine
end

