-- ==== Sys2Proof/Machine/Assembler.lean ====
section
/-! DEFINITION. The spec's assembler syntax (R71): a line of text, what it says, and the commands it stands for. Log entry 16. -/

namespace Sys2Proof.Machine

open Sys2Proof

/-- What one line of assembly says (R71). -/
inductive AsmLine where
  | instruction (i : Instr)
  | word (cmd : CmdWord)
  | setPol (p : Word)
  | setPrev (b : Word)
  | getPrev
  | clrSt
  | clrCnt
  | begin
deriving DecidableEq, Repr

/-- The commands a line stands for (R71); a raw word is issued with `din = 0x0000`. -/
def AsmLine.commands : AsmLine → List Command
  | .instruction i => [encode i]
  | .word cmd => [⟨cmd, 0x0000#16⟩]
  | .setPol p => [encode (.csrwCtrl p)]
  | .setPrev b => [encode (.csrwPrev b)]
  | .getPrev => [encode (.csrrPrev 0x0000#16)]
  | .clrSt => [encode (.csrwStatus 0x0000#16)]
  | .clrCnt => [encode (.csrwCount 0x0000#16)]
  | .begin => [encode (.csrwStatus 0x0000#16), encode (.csrwCount 0x0000#16)]

/-- The codec mnemonics with their width suffix (R10, R71). -/
def codecMnemonics : List (String × (Word → Instr)) :=
  [("MAN_ENC.1", .manEnc1), ("MAN_ENC.N", .manEncN), ("MAN_ENC.B", .manEncB),
   ("MAN_DEC.1", .manDec1), ("MAN_DEC.N", .manDecN), ("MAN_DEC.B", .manDecB),
   ("MAN_CHK.1", .manChk1), ("MAN_CHK.N", .manChkN), ("MAN_CHK.B", .manChkB),
   ("MAN_DECC.B", .manDeccB),
   ("DM_ENC.1", .dmEnc1), ("DM_ENC.N", .dmEncN), ("DM_ENC.B", .dmEncB),
   ("DM_DEC.1", .dmDec1), ("DM_DEC.N", .dmDecN), ("DM_DEC.B", .dmDecB),
   ("BMC_ENC.1", .bmcEnc1), ("BMC_ENC.N", .bmcEncN), ("BMC_ENC.B", .bmcEncB),
   ("BMC_DEC.1", .bmcDec1), ("BMC_DEC.N", .bmcDecN), ("BMC_DEC.B", .bmcDecB),
   ("BMC_CHK.1", .bmcChk1), ("BMC_CHK.N", .bmcChkN), ("BMC_CHK.B", .bmcChkB),
   ("TRANS.B", .transB)]

/-- The registers CSRR can name (R28, R71). -/
def readableNames : List (String × (Word → Instr)) :=
  [("CTRL", .csrrCtrl), ("PREV", .csrrPrev), ("STATUS", .csrrStatus), ("COUNT", .csrrCount),
   ("RESULT", .csrrResult)]

/-- The registers CSRW can name (R28, R71). -/
def writableNames : List (String × (Word → Instr)) :=
  [("CTRL", .csrwCtrl), ("PREV", .csrwPrev), ("STATUS", .csrwStatus), ("COUNT", .csrwCount)]

/-- The sixteen hex digits in the order of their values (R71). -/
def hexDigits : List Char := "0123456789ABCDEF".toList

/-- The value of a hex digit, in either case: its place among the sixteen. -/
def hexDigit (c : Char) : Option Nat := hexDigits.idxOf? c.toUpper

/-- The number a run of digit values writes, the most significant first. -/
def hexValue (digits : List Nat) : Nat := digits.foldl (fun acc d => 16 * acc + d) 0

/-- A number that fits in the given number of bits. -/
def fitsIn (bits v : Nat) : Option Nat := if v < 2 ^ bits then some v else none

/-- A number written `0x` and one or more hex digits, that fits in the given number of bits (R71). -/
def hexNumber (bits : Nat) (text : String) : Option Nat :=
  match text.toList with
  | '0' :: 'x' :: d :: rest => ((d :: rest).mapM hexDigit).bind fun ds => fitsIn bits (hexValue ds)
  | _ => none

/-- An operand field: a 16-bit number, or nothing, which means `0x0000` (R71). -/
def operandOf : List String → Option Word
  | [] => some 0x0000#16
  | [text] => (hexNumber 16 text).map (BitVec.ofNat 16)
  | _ => none

/-- The instruction a name stands for in a list, with its operand field. -/
def fromTable (table : List (String × (Word → Instr))) (name : String) (operand : List String) : Option AsmLine :=
  match table.lookup name, operandOf operand with
  | some make, some din => some (.instruction (make din))
  | _, _ => none

/-- A line given as its fields: mnemonic, register name and operand (R71). -/
def parseFields : List String → Option AsmLine
  | "NOP" :: [] => some (.instruction (.nop 0x0000#16))
  | "CSRR" :: name :: [] => fromTable readableNames name []
  | "CSRW" :: name :: operand => fromTable writableNames name operand
  | ".word" :: text :: [] => (hexNumber 8 text).map fun v => .word (BitVec.ofNat 8 v)
  | "SETPOL" :: operand => (operandOf operand).map .setPol
  | "SETPREV" :: operand => (operandOf operand).map .setPrev
  | "GETPREV" :: [] => some .getPrev
  | "CLRST" :: [] => some .clrSt
  | "CLRCNT" :: [] => some .clrCnt
  | "BEGIN" :: [] => some .begin
  | name :: operand => fromTable codecMnemonics name operand
  | [] => none

/-- A field so far, put before the fields that follow it; an empty one is dropped. -/
def addField (field : List Char) (fields : List String) : List String :=
  if field.isEmpty then fields else String.ofList field.reverse :: fields

/-- The fields of a line, which spaces and commas part. -/
def fieldsFrom (field : List Char) : List Char → List String
  | [] => addField field []
  | c :: rest =>
      if c == ' ' || c == ',' then addField field (fieldsFrom [] rest) else fieldsFrom (c :: field) rest

/-- One line of assembly, read as R71 writes it. -/
def parseLine (text : String) : Option AsmLine := parseFields (fieldsFrom [] text.toList)

/-- A program, a line at a time: the commands it issues, none where a line cannot be read. -/
def assemble : List String → Option (List Command)
  | [] => some []
  | line :: rest =>
      match parseLine line, assemble rest with
      | some l, some cs => some (l.commands ++ cs)
      | _, _ => none

end Sys2Proof.Machine
end

