-- ==== Sys2Proof/Machine/Backend.lean ====
section
/-! DEFINITION. The three backends of the Manchester steps (R140). No meaning calls them, since no result depends on
the backend (R138): the meanings of Manchester.lean are the `BITWISE` rules, and a statement says that every
backend answers as they do. -/

namespace Sys2Proof.Machine

open Sys2Proof

/-- The nibble table of the `LUT` backend under POL = 0, entry 0 first (R87). -/
def nibbleTable : List Byte :=
  [0xAA#8, 0xA9#8, 0xA6#8, 0xA5#8, 0x9A#8, 0x99#8, 0x96#8, 0x95#8,
   0x6A#8, 0x69#8, 0x66#8, 0x65#8, 0x5A#8, 0x59#8, 0x56#8, 0x55#8]

/-- The table's entry for a nibble; under POL = 1 each entry is complemented (R87). -/
def tableEntry (pol : Bool) (nibble : BitVec 4) : Byte :=
  let t := nibbleTable.getD nibble.toNat 0x00#8
  if pol then ~~~t else t

/-- The nibble whose entry a symbol byte is, where there is one. -/
def tableIndex (pol : Bool) (code : Byte) : Option Nat :=
  (List.range 16).find? fun k => tableEntry pol (BitVec.ofNat 4 k) == code

/-- MAN_ENC by table: a byte is the entries of its two nibbles, a nibble is its entry, and a bit is the last
symbol of its entry (R87, R141). -/
def lutEncode (w : Width) (pol : Bool) (din : Word) : Word :=
  let low := tableEntry pol (din.extractLsb' 0 4)
  let high := tableEntry pol (din.extractLsb' 4 4)
  match w with
  | .bit => (low.extractLsb' 0 2).setWidth 16
  | .nibble => low.setWidth 16
  | .byte => high ++ low

/-- The four data bits of a symbol byte by table, its validity first. A byte with no entry holds a malformed symbol, and
its bits are those of the rule (R138, R81). -/
def lutDecodeNibble (pol : Bool) (code : Byte) : Bool × Word :=
  match tableIndex pol code with
  | some k => (true, BitVec.ofNat 16 k)
  | none => (false, packBits ((symbols 4 (code.setWidth 16)).map (manDecodeBit pol)))

/-- MAN_DEC by table, its validity first. A bit is looked up with the three symbols above it taken from entry 0. -/
def lutDecode (w : Width) (pol : Bool) (din : Word) : Bool × Word :=
  match w with
  | .bit =>
      let zeros := tableEntry pol 0x0#4
      let r := lutDecodeNibble pol (zeros.extractLsb' 2 6 ++ din.extractLsb' 0 2)
      (r.1, r.2 &&& 0x0001#16)
  | .nibble => lutDecodeNibble pol (din.extractLsb' 0 8)
  | .byte =>
      let high := lutDecodeNibble pol (din.extractLsb' 8 8)
      let low := lutDecodeNibble pol (din.extractLsb' 0 8)
      (high.1 && low.1, (high.2 <<< 4) ||| low.2)

/-- The codeword MAN_ENC answers under a backend. The peripheral answers as the rule does: that is its contract
(R138, R140); log entry 6. -/
def backendEncode (b : Config.Backend) (w : Width) (pol : Bool) (din : Word) : Word :=
  match b with
  | .bitwise => manCodeword (unitsOf w) pol din
  | .lut => lutEncode w pol din
  | .peripheral => manCodeword (unitsOf w) pol din

/-- The validity and the data MAN_DEC answers under a backend (R138). -/
def backendDecode (b : Config.Backend) (w : Width) (pol : Bool) (din : Word) : Bool × Word :=
  let byRule :=
    ((symbols (unitsOf w) din).all manSymbolOk,
      packBits ((symbols (unitsOf w) din).map (manDecodeBit pol)))
  match b with
  | .bitwise => byRule
  | .lut => lutDecode w pol din
  | .peripheral => byRule

/-- What MAN_DECC answers under a backend: the decoded byte, or 0 for a malformed codeword (R82, R138). -/
def backendDecodeChecked (b : Config.Backend) (pol : Bool) (din : Word) : Response :=
  let r := backendDecode b .byte pol din
  { rsp := codeOfCheck r.1, dout := if r.1 then r.2 else 0x0000#16 }

end Sys2Proof.Machine
end

