-- ==== Sys2Proof/Machine/HostMemory.lean ====
section
/-! DEFINITION. The memory of the HOST, where buffers live: the block itself reads and writes none (R11, R40). It is a list of
(address, byte) pairs with strictly rising addresses; an unlisted address holds no value. Log entry 10. -/

namespace Sys2Proof.Machine

open Sys2Proof

/-- Host memory. -/
abbrev Memory := List Host.Cell

/-- The canonical form: addresses strictly rising. -/
abbrev Memory.wf (m : Memory) : Prop := m.Pairwise fun c d => c.1 < d.1

/-- `MemRead(addr, 1)`: the byte at an address, none where nothing has written it (R11). -/
def Memory.read (m : Memory) (addr : Nat) : Option Byte :=
  match m with
  | [] => none
  | c :: rest => if c.1 == addr then some c.2 else Memory.read rest addr

/-- `MemWrite(addr, 1, v)` (R11). -/
def Memory.write (m : Memory) (addr : Nat) (v : Byte) : Memory :=
  match m with
  | [] => [(addr, v)]
  | c :: rest =>
      if addr < c.1 then (addr, v) :: c :: rest
      else if c.1 == addr then (addr, v) :: rest
      else c :: Memory.write rest addr v

/-- Whether the ranges of `la` bytes from `a` and `lb` bytes from `b` share an address. -/
def rangesOverlap (a la b lb : Nat) : Bool := decide (0 < la ∧ 0 < lb ∧ a < b + lb ∧ b < a + la)

end Sys2Proof.Machine
end

