-- ==== Sys2Proof/Machine/HostProcedures.lean ====
section
/-! DEFINITION. The reference host procedures of 20_memory.md (R48 to R54), which build the source's buffer-level calls out of
commands, and the save and restore of R56. They are not hardware: each issues commands to `step` and moves bytes of
host memory, and a run that breaks a host obligation of R55 is refused (I4). Log entries 10, 11 and 13. -/

namespace Sys2Proof.Machine

open Sys2Proof

/-- The host's memory beside the block it drives. -/
structure HostWorld where
  block : State
  mem : Memory
deriving DecidableEq, Repr

/-- What a host action ends in: the world after it and what it returns, or a stop. -/
abbrev HostOutcome (α : Type) := Host.Outcome (HostWorld × α) Fault Refusal

/-- One host action after another. -/
def andThen {α β : Type} (o : HostOutcome α) (f : HostWorld → α → HostOutcome β) : HostOutcome β :=
  match o with
  | .next r => f r.1 r.2
  | .fault r => .fault r
  | .refused r => .refused r

/-- A host action that is done. -/
def done {α : Type} (w : HostWorld) (x : α) : HostOutcome α := .next (w, x)

/-- The host issues one command and takes its response (R61, R180). -/
def issueRaw (c : Command) (w : HostWorld) : HostOutcome Response :=
  match step (w.block.offer c) with
  | .next b =>
      match b.response with
      | some r => .next ({ w with block := b }, r)
      | none => .refused .noResponse
  | .fault r => .fault r
  | .refused r => .refused r

/-- The host issues an instruction. -/
def issue (i : Instr) (w : HostWorld) : HostOutcome Response := issueRaw (encode i) w

/-- The host issues instructions one after another; answers their responses in order (R45). -/
def issueAll : List Instr → HostWorld → HostOutcome (List Response)
  | [], w => done w []
  | i :: rest, w =>
      andThen (issue i w) fun w r => andThen (issueAll rest w) fun w rs => done w (r :: rs)

/-- `MemRead(addr, 1)` (R11). -/
def memRead (addr : Nat) (w : HostWorld) : HostOutcome Byte :=
  match w.mem.read addr with
  | some b => done w b
  | none => .refused (.hostByteAbsent addr)

/-- `MemWrite(addr, 1, v)` (R11). -/
def memWrite (addr : Nat) (v : Byte) (w : HostWorld) : HostOutcome Unit :=
  done { w with mem := w.mem.write addr v } ()

/-- The codeword k of a symbol buffer: its high byte first (R43). -/
def readCodeword (buf k : Nat) (w : HostWorld) : HostOutcome Word :=
  andThen (memRead (buf + 2 * k) w) fun w high =>
    andThen (memRead (buf + 2 * k + 1) w) fun w low => done w (high ++ low)

/-- The codeword k of a symbol buffer is written: its high byte first (R43). -/
def writeCodeword (buf k : Nat) (cw : Word) (w : HostWorld) : HostOutcome Unit :=
  andThen (memWrite (buf + 2 * k) (cw.extractLsb' 8 8) w) fun w _ =>
    memWrite (buf + 2 * k + 1) (cw.extractLsb' 0 8) w

/-- The codes that carry a boundary state (R12). -/
inductive StatefulCode where
  | dm
  | bmc
deriving DecidableEq, Repr

/-- The three line codes (R3). -/
inductive LineCode where
  | man
  | stateful (code : StatefulCode)
deriving DecidableEq, Repr

/-- The two validity checks (R51): MAN_CHK for Manchester and Differential Manchester, BMC_CHK for BMC. -/
inductive Checker where
  | man
  | bmc
deriving DecidableEq, Repr

/-- The encode command of a code at byte width (R48). -/
def encodeByte : LineCode → Word → Instr
  | .man => .manEncB
  | .stateful .dm => .dmEncB
  | .stateful .bmc => .bmcEncB

/-- The encode command of a code at nibble width (R50). -/
def encodeNibble : LineCode → Word → Instr
  | .man => .manEncN
  | .stateful .dm => .dmEncN
  | .stateful .bmc => .bmcEncN

/-- The decode command of a stateful code at byte width (R54). -/
def decodeByte : StatefulCode → Word → Instr
  | .dm => .dmDecB
  | .bmc => .bmcDecB

/-- The check command at byte width (R51). -/
def checkByte : Checker → Word → Instr
  | .man => .manChkB
  | .bmc => .bmcChkB

/-- The boundary bit goes in before a stateful stream (R48, R55 (b)); Manchester has none. -/
def openStream (code : LineCode) (p : Bool) (w : HostWorld) : HostOutcome Unit :=
  match code with
  | .man => done w ()
  | .stateful _ => andThen (issue (.csrwPrev (zextBit p)) w) fun w _ => done w ()

/-- The updated boundary bit comes out after a stateful stream (R48); Manchester has none. -/
def closeStream (code : LineCode) (w : HostWorld) : HostOutcome (Option Bool) :=
  match code with
  | .man => done w none
  | .stateful _ => andThen (issue (.csrrPrev 0x0000#16) w) fun w r => done w (some (r.dout.getLsbD 0))

/-- Byte k of the input is encoded to codeword k of the output (R48). -/
def encodeOne (code : LineCode) (inp out k : Nat) (w : HostWorld) : HostOutcome Unit :=
  andThen (memRead (inp + k) w) fun w d =>
    andThen (issue (encodeByte code (d.setWidth 16)) w) fun w r => writeCodeword out k r.dout w

/-- Byte k of the input is encoded by two nibble commands, the high nibble first (R50). -/
def encodeOneByNibbles (code : LineCode) (inp out k : Nat) (w : HostWorld) : HostOutcome Unit :=
  andThen (memRead (inp + k) w) fun w d =>
    andThen (issue (encodeNibble code ((d.extractLsb' 4 4).setWidth 16)) w) fun w high =>
      andThen (memWrite (out + 2 * k) (high.dout.extractLsb' 0 8) w) fun w _ =>
        andThen (issue (encodeNibble code ((d.extractLsb' 0 4).setWidth 16)) w) fun w low =>
          memWrite (out + 2 * k + 1) (low.dout.extractLsb' 0 8) w

/-- An action for k, k + 1, …, n of them. -/
def forUp (f : Nat → HostWorld → HostOutcome Unit) : Nat → Nat → HostWorld → HostOutcome Unit
  | 0, _, w => done w ()
  | n + 1, k, w => andThen (f k w) fun w _ => forUp f n (k + 1) w

/-- An action for n - 1, n - 2, …, 0. -/
def forDown (f : Nat → HostWorld → HostOutcome Unit) : Nat → HostWorld → HostOutcome Unit
  | 0, w => done w ()
  | n + 1, w => andThen (f n w) fun w _ => forDown f n w

/-- A run over distinct buffers: refused where input and output share an address (R48, R55 (e)). -/
def distinctBuffers (inp li out lo : Nat) (w : HostWorld) : HostOutcome Unit :=
  if rangesOverlap inp li out lo then .refused .bufferOverlap else done w ()

/-- ENCODE_BUFFER over distinct buffers of n and 2n bytes; answers the updated boundary bit of a stateful code (R48). -/
def encodeBuffer (code : LineCode) (inp n out : Nat) (p : Bool) (w : HostWorld) : HostOutcome (Option Bool) :=
  andThen (distinctBuffers inp n out (2 * n) w) fun w _ =>
    andThen (openStream code p w) fun w _ =>
      andThen (forUp (encodeOne code inp out) n 0 w) fun w _ => closeStream code w

/-- The nibble-granularity encode of a buffer (R50). -/
def encodeBufferByNibbles (code : LineCode) (inp n out : Nat) (p : Bool) (w : HostWorld) :
    HostOutcome (Option Bool) :=
  andThen (distinctBuffers inp n out (2 * n) w) fun w _ =>
    andThen (openStream code p w) fun w _ =>
      andThen (forUp (encodeOneByNibbles code inp out) n 0 w) fun w _ => closeStream code w

/-- An encode in place, in a buffer of 2n bytes: from the last input byte to the first, and only for Manchester
(R49, R178). -/
def encodeInPlace (code : LineCode) (buf n : Nat) (w : HostWorld) : HostOutcome Unit :=
  match code with
  | .man => forDown (encodeOne .man buf buf) n w
  | .stateful _ => .refused .statefulInPlace

/-- A symbol buffer of `len` bytes holds whole codewords, two bytes each (R55 (a)). -/
def wholeCodewords (len : Nat) (w : HostWorld) : HostOutcome Unit :=
  if len % 2 == 0 then done w () else .refused .oddSymbolBuffer

/-- A block whose units CNT counts holds at most 65535 of them (R55 (d), R181). -/
def blockFits (m : Nat) (w : HostWorld) : HostOutcome Unit :=
  if m ≤ 65535 then done w () else .refused .blockTooLong

/-- A decode runs into a distinct buffer or in place with `out = in` (R53, R55 (e)). -/
def decodeBuffers (inp len out : Nat) (w : HostWorld) : HostOutcome Unit :=
  if out == inp then done w () else distinctBuffers inp len out (len / 2) w

/-- What a host makes sure of before it decodes a block of counted units: whole codewords, few enough for CNT, and buffers
that may be used together (R55 (a), (d), (e)). -/
def blockToDecode (inp len out : Nat) (w : HostWorld) : HostOutcome Unit :=
  andThen (wholeCodewords len w) fun w _ =>
    andThen (blockFits (len / 2) w) fun w _ => decodeBuffers inp len out w

/-- `BEGIN`: STATUS and COUNT are cleared before a block (R71, R172 (c)). -/
def beginBlock (w : HostWorld) : HostOutcome Unit :=
  andThen (issue (.csrwStatus 0x0000#16) w) fun w _ =>
    andThen (issue (.csrwCount 0x0000#16) w) fun w _ => done w ()

/-- The starting boundary bit goes in before a BMC check (R51). -/
def openCheck (chk : Checker) (p : Bool) (w : HostWorld) : HostOutcome Unit :=
  match chk with
  | .man => done w ()
  | .bmc => andThen (issue (.csrwPrev (zextBit p)) w) fun w _ => done w ()

/-- The loop of CHECK_BLOCK from codeword k, m of them; with `early` it breaks at the first failure (R51). -/
def checkLoop (chk : Checker) (early : Bool) (inp : Nat) : Nat → Nat → HostWorld → HostOutcome Unit
  | 0, _, w => done w ()
  | m + 1, k, w =>
      andThen (readCodeword inp k w) fun w cw =>
        andThen (issue (checkByte chk cw) w) fun w r =>
          if early && r.rsp == .malformed then done w ()
          else checkLoop chk early inp m (k + 1) w

/-- CHECK_BLOCK over a symbol buffer of `len` bytes: whether every codeword is valid (R51). -/
def checkBlock (chk : Checker) (early : Bool) (inp len : Nat) (p : Bool) (w : HostWorld) : HostOutcome Bool :=
  andThen (wholeCodewords len w) fun w _ =>
    andThen (blockFits (len / 2) w) fun w _ =>
      andThen (beginBlock w) fun w _ =>
        andThen (openCheck chk p w) fun w _ =>
          andThen (checkLoop chk early inp (len / 2) 0 w) fun w _ =>
            andThen (issue (.csrrStatus 0x0000#16) w) fun w r => done w (!r.dout.getLsbD 0)

/-- Codeword k is decoded by a command that checks nothing and its byte written (R52, R54). -/
def decodeOne (cmd : Word → Instr) (inp out k : Nat) (w : HostWorld) : HostOutcome Unit :=
  andThen (readCodeword inp k w) fun w cw =>
    andThen (issue (cmd cw) w) fun w r => memWrite (out + k) (r.dout.extractLsb' 0 8) w

/-- TWO_PHASE_DECODE: the whole block is checked first and decoded only if it is valid; answers whether it was (R52). -/
def twoPhaseDecode (early : Bool) (inp len out : Nat) (w : HostWorld) : HostOutcome Bool :=
  andThen (blockToDecode inp len out w) fun w _ =>
    andThen (checkBlock .man early inp len false w) fun w ok =>
      if ok then andThen (forUp (decodeOne .manDecB inp out) (len / 2) 0 w) fun w _ => done w true
      else done w false

/-- The loop of COMBINED_DECODE from codeword k, m of them (R53). -/
def combinedLoop (inp out : Nat) : Nat → Nat → HostWorld → HostOutcome Unit
  | 0, _, w => done w ()
  | m + 1, k, w =>
      andThen (readCodeword inp k w) fun w cw =>
        andThen (issue (.manDeccB cw) w) fun w r =>
          if r.rsp == .malformed then done w ()
          else
            andThen (memWrite (out + k) (r.dout.extractLsb' 0 8) w) fun w _ =>
              combinedLoop inp out m (k + 1) w

/-- COMBINED_DECODE over a symbol buffer of `len` bytes: the source's result, and whether it failed (R53). -/
def combinedDecode (inp len out : Nat) (w : HostWorld) : HostOutcome (Word × Bool) :=
  andThen (blockToDecode inp len out w) fun w _ =>
    andThen (beginBlock w) fun w _ =>
      andThen (combinedLoop inp out (len / 2) 0 w) fun w _ =>
        andThen (issue (.csrrResult 0x0000#16) w) fun w result =>
          andThen (issue (.csrrStatus 0x0000#16) w) fun w status =>
            done w (result.dout, status.dout.getLsbD 0)

/-- DECODE_BUFFER of a stateful code over a symbol buffer of `len` bytes; answers the updated boundary bit (R54). -/
def decodeBuffer (code : StatefulCode) (inp len out : Nat) (p : Bool) (w : HostWorld) :
    HostOutcome (Option Bool) :=
  andThen (wholeCodewords len w) fun w _ =>
    andThen (decodeBuffers inp len out w) fun w _ =>
      andThen (openStream (.stateful code) p w) fun w _ =>
        andThen (forUp (decodeOne (decodeByte code) inp out) (len / 2) 0 w) fun w _ =>
          closeStream (.stateful code) w

/-- What a host saves of the block when it switches streams or contexts (R56). -/
structure SavedContext where
  ctrl : Word
  prev : Word
  status : Word
  count : Word
deriving DecidableEq, Repr

/-- The save of R56, with CSRR. -/
def saveContext (w : HostWorld) : HostOutcome SavedContext :=
  andThen (issue (.csrrCtrl 0x0000#16) w) fun w ctrl =>
    andThen (issue (.csrrPrev 0x0000#16) w) fun w prev =>
      andThen (issue (.csrrStatus 0x0000#16) w) fun w status =>
        andThen (issue (.csrrCount 0x0000#16) w) fun w count =>
          done w { ctrl := ctrl.dout, prev := prev.dout, status := status.dout, count := count.dout }

/-- The restore of R56, with CSRW. -/
def restoreContext (c : SavedContext) (w : HostWorld) : HostOutcome Unit :=
  andThen (issue (.csrwCtrl c.ctrl) w) fun w _ =>
    andThen (issue (.csrwPrev c.prev) w) fun w _ =>
      andThen (issue (.csrwStatus c.status) w) fun w _ =>
        andThen (issue (.csrwCount c.count) w) fun w _ => done w ()

end Sys2Proof.Machine
end

