-- ==== Sys2Proof/Machine/Port.lean ====
section
/-! DEFINITION. The block at its clocked port (R60, R61, R170, R180). One `tick` is one rising edge of `clk`; a stopped clock is no
tick, and the state is kept (R165). `step` needs no clock (R61): this layer adds the handshake, the latency and
the synchronous reset around it. Log entries 7, 8 and 9. -/

namespace Sys2Proof.Machine

open Sys2Proof

/-- The input ports at a rising edge (R60), and beside them the one thing about `cmd_ready` that the spec leaves
free: whether the block can take a command at this edge while `rst = 0`. The model never chooses it; log entry 8. -/
structure PortIn where
  rst : Bool
  canAccept : Bool
  cmdValid : Bool
  cmd : CmdWord
  din : Word
deriving DecidableEq, Repr

/-- The output ports (R60): `cmd_ready`, and `rsp_valid` together with `dout` and `rsp`. The response is absent where
`rsp_valid = 0`. -/
structure PortOut where
  cmdReady : Bool
  response : Option Response
deriving DecidableEq, Repr

/-- A response that is due after `due` further edges (R61). -/
structure InFlight where
  due : Nat
  response : Response
deriving DecidableEq, Repr

/-- The block's record with its responses still due, the oldest first. -/
structure PortState where
  arch : Arch
  inFlight : List InFlight
deriving DecidableEq, Repr

/-- The port after reset: nothing is due (R170). -/
def PortState.reset : PortState := { arch := Arch.reset, inFlight := [] }

/-- `rsp_valid` (R60). -/
def PortOut.rspValid (o : PortOut) : Bool := o.response.isSome

/-- `cmd_ready`: 0 while `rst = 1` (R170), and otherwise free. -/
def cmdReady (i : PortIn) : Bool := !i.rst && i.canAccept

/-- Whether a command is accepted at this edge: `cmd_valid = 1`, `cmd_ready = 1` and `rst = 0` (R61). -/
def accepts (i : PortIn) : Bool := i.cmdValid && cmdReady i && !i.rst

/-- The responses due, one edge later. -/
def ageAll (l : List InFlight) : List InFlight := l.map fun f => { f with due := f.due - 1 }

/-- The response that falls due at an edge, from the aged list (R61: in acceptance order). -/
def fallsDue : List InFlight → Option Response
  | [] => none
  | f :: _ => if f.due == 0 then some f.response else none

/-- The responses still due after that edge. -/
def stillDue : List InFlight → List InFlight
  | [] => []
  | f :: rest => if f.due == 0 then rest else f :: rest

/-- The block as `step` runs it, with one command offered and nothing else at the port. -/
def commandState (c : Command) (a : Arch) : State :=
  { arch := a, input := [.command c], response := none, powerUps := 0 }

/-- One command on the block's record: the new record and the response, as `step` gives them (R20). -/
def blockStep (c : Command) (a : Arch) : Option (Arch × Response) :=
  match step (commandState c a) with
  | .next s => s.response.map fun r => (s.arch, r)
  | .fault _ => none
  | .refused _ => none

/-- An edge at which a command is accepted: its state effect happens at once and its response is due `LATENCY` edges
later (R61). -/
def acceptAt (c : Command) (p : PortState) : PortState :=
  match blockStep c p.arch with
  | some (a, r) => { p with arch := a, inFlight := p.inFlight ++ [⟨Config.latency, r⟩] }
  | none => p

/-- One rising edge. With `rst = 1` the record is reset and no response still due is delivered (R170, D29). -/
def tick (i : PortIn) (p : PortState) : PortState × PortOut :=
  if i.rst then (PortState.reset, { cmdReady := cmdReady i, response := none })
  else
    let aged := ageAll p.inFlight
    let waiting := { p with inFlight := stillDue aged }
    (if accepts i then acceptAt ⟨i.cmd, i.din⟩ waiting else waiting,
      { cmdReady := cmdReady i, response := fallsDue aged })

/-- The edges of a run of inputs: the last state, and the outputs at each edge. -/
def ticks : List PortIn → PortState → PortState × List PortOut
  | [], p => (p, [])
  | i :: rest, p =>
      let now := tick i p
      let later := ticks rest now.1
      (later.1, now.2 :: later.2)

end Sys2Proof.Machine
end

