-- ==== Sys2Proof/Safety.lean ====
section
/-! DEFINITION. What counts as a safe run of the block, in the terms statements use: it never stops (R154), and what it answers
conforms (R62, I14). -/

namespace Sys2Proof.Safety

open Sys2Proof Sys2Proof.Machine

/-- A step goes on: it ends in a next state, not in a fault or a refusal (R154). -/
def GoesOn (o : Host.Outcome State Fault Refusal) : Prop := ∃ t, o = .next t

/-- The response codes a command may give: only MAN_DEC, MAN_DECC, MAN_CHK and BMC_CHK can give `MALFORMED`
(R62). -/
def mayBeMalformed : Instr → Bool
  | .manDec1 _ | .manDecN _ | .manDecB _ | .manDeccB _ => true
  | .manChk1 _ | .manChkN _ | .manChkB _ => true
  | .bmcChk1 _ | .bmcChkN _ | .bmcChkB _ => true
  | .nop _ | .manEnc1 _ | .manEncN _ | .manEncB _ => false
  | .dmEnc1 _ | .dmEncN _ | .dmEncB _ | .dmDec1 _ | .dmDecN _ | .dmDecB _ => false
  | .bmcEnc1 _ | .bmcEncN _ | .bmcEncB _ | .bmcDec1 _ | .bmcDecN _ | .bmcDecB _ => false
  | .transB _ => false
  | .csrrCtrl _ | .csrrPrev _ | .csrrStatus _ | .csrrCount _ | .csrrResult _ => false
  | .csrwCtrl _ | .csrwPrev _ | .csrwStatus _ | .csrwCount _ => false

/-- The commands that write PREV (R24, R174). -/
def writesPrev : Instr → Bool
  | .dmEnc1 _ | .dmEncN _ | .dmEncB _ | .dmDec1 _ | .dmDecN _ | .dmDecB _ => true
  | .bmcEnc1 _ | .bmcEncN _ | .bmcEncB _ | .bmcDec1 _ | .bmcDecN _ | .bmcDecB _ => true
  | .bmcChk1 _ | .bmcChkN _ | .bmcChkB _ | .csrwPrev _ => true
  | .nop _ | .manEnc1 _ | .manEncN _ | .manEncB _ => false
  | .manDec1 _ | .manDecN _ | .manDecB _ | .manDeccB _ => false
  | .manChk1 _ | .manChkN _ | .manChkB _ | .transB _ => false
  | .csrrCtrl _ | .csrrPrev _ | .csrrStatus _ | .csrrCount _ | .csrrResult _ => false
  | .csrwCtrl _ | .csrwStatus _ | .csrwCount _ => false

/-- The commands that account for a checked unit (R27). -/
def accounts : Instr → Bool
  | .manDeccB _ | .manChk1 _ | .manChkN _ | .manChkB _ => true
  | .bmcChk1 _ | .bmcChkN _ | .bmcChkB _ => true
  | .nop _ | .manEnc1 _ | .manEncN _ | .manEncB _ => false
  | .manDec1 _ | .manDecN _ | .manDecB _ => false
  | .dmEnc1 _ | .dmEncN _ | .dmEncB _ | .dmDec1 _ | .dmDecN _ | .dmDecB _ => false
  | .bmcEnc1 _ | .bmcEncN _ | .bmcEncB _ | .bmcDec1 _ | .bmcDecN _ | .bmcDecB _ => false
  | .transB _ => false
  | .csrrCtrl _ | .csrrPrev _ | .csrrStatus _ | .csrrCount _ | .csrrResult _ => false
  | .csrwCtrl _ | .csrwPrev _ | .csrwStatus _ | .csrwCount _ => false

/-- A response at the port conforms: its code is never `11`, and an `ILLEGAL` one has no result and stands beside
ILL = 1 (R62, R151). -/
def Conforms (s : State) : Prop :=
  ∀ r, s.response = some r →
    r.rsp.bits ≠ 0b11#2 ∧ (r.rsp = .illegal → r.dout = 0x0000#16 ∧ s.arch.ill = true)

end Sys2Proof.Safety
end

