-- ==== Sys2Proof/Certificates/Slice0/Obligations.lean ====
section
/-! DEFINITION. The statements for the provers, and the few words they are written in. A statement of what a command does gives its
result bit by bit from the rule's own indices, not by the lists the meanings are built from, and gives the whole next
state, so that it is its own frame: the block reads and writes no memory (R40). -/

namespace Sys2Proof.Certificates

open Sys2Proof Sys2Proof.Machine

/-- The next state in which a command left the record `a` and answered `rsp` with `dout`; all else stands. -/
def answers (s : State) (a : Arch) (rsp : ResponseCode) (dout : Word) : Host.Outcome State Fault Refusal :=
  .next { s with arch := a, response := some ⟨rsp, dout⟩ }

/-- The first bit of symbol j of a word (R9). -/
def firstBit (x : Word) (j : Nat) : Bool := x.getLsbD (2 * j + 1)

/-- The second bit of symbol j of a word (R9). -/
def secondBit (x : Word) (j : Nat) : Bool := x.getLsbD (2 * j)

/-- The line level before symbol j of a word of n symbols that began at level `p`. -/
def levelBefore (p : Bool) (n : Nat) (x : Word) (j : Nat) : Bool :=
  if j + 1 = n then p else secondBit x (j + 1)

/-- A word holds nothing in bit n and above. -/
def ZeroFrom (n : Nat) (x : Word) : Prop := ∀ k, n ≤ k → x.getLsbD k = false

/-- The low n bits of a word, with zeros above. -/
def lowBits (n : Nat) (x : Word) : Word := BitVec.ofNat 16 (x.toNat % 2 ^ n)

/-- Every symbol of a word of n symbols has two different bits (R79). -/
abbrev ManOk (n : Nat) (x : Word) : Prop := ∀ j < n, firstBit x j ≠ secondBit x j

/-- Every symbol of a word of n symbols begins with a boundary transition (R121). -/
abbrev BmcOk (p : Bool) (n : Nat) (x : Word) : Prop := ∀ j < n, firstBit x j ≠ levelBefore p n x j

/-- The record after a unit that passed: CNT counts up while ERR is 0 and saturates (R27). -/
def counted (a : Arch) : Arch :=
  { a with cnt := if a.err then a.cnt else if a.cnt = 0xFFFF#16 then a.cnt else a.cnt + 1#16 }

/-- The record after a malformed unit: ERR is set (R27). -/
def failed (a : Arch) : Arch := { a with err := true }

/-- The state with another PREV. -/
def withPrev (p : Bool) (s : State) : State := { s with arch := { s.arch with prev := p } }

/-- The state with another POL. -/
def withPol (p : Bool) (s : State) : State := { s with arch := { s.arch with pol := p } }

/-- The clauses of R67 and R68, read off the bits of a command word. -/
def IllegalByR67 (cmd : CmdWord) : Prop :=
  let op := cmd.toNat / 16
  let w := cmd.toNat / 4 % 4
  let z := cmd.toNat % 4
  let k := cmd.toNat % 16
  0xD ≤ op ∨
  (1 ≤ op ∧ op ≤ 0xA ∧ (w = 3 ∨ z ≠ 0)) ∨
  ((op = 4 ∨ op = 0xA) ∧ w ≠ 2) ∨
  (op = 0 ∧ k ≠ 0) ∨
  (op = 0xB ∧ 5 ≤ k) ∨
  (op = 0xC ∧ 4 ≤ k)

/-- The words of an operation that decode are these alone (R66, R67). -/
def OnlyWords (op : Nat) (words : List CmdWord) : Prop :=
  ∀ c : Command, c.cmd.toNat / 16 = op → ((∃ i, decode c = .ok i) ↔ c.cmd ∈ words)

/-- The input an instruction checks holds a malformed symbol (R150). -/
def MalformedInput (a : Arch) : Instr → Prop
  | .manDec1 din | .manChk1 din => ¬ ManOk 1 din
  | .manDecN din | .manChkN din => ¬ ManOk 4 din
  | .manDecB din | .manDeccB din | .manChkB din => ¬ ManOk 8 din
  | .bmcChk1 din => ¬ BmcOk a.prev 1 din
  | .bmcChkN din => ¬ BmcOk a.prev 4 din
  | .bmcChkB din => ¬ BmcOk a.prev 8 din
  | .nop _ | .manEnc1 _ | .manEncN _ | .manEncB _ => False
  | .dmEnc1 _ | .dmEncN _ | .dmEncB _ | .dmDec1 _ | .dmDecN _ | .dmDecB _ => False
  | .bmcEnc1 _ | .bmcEncN _ | .bmcEncB _ | .bmcDec1 _ | .bmcDecN _ | .bmcDecB _ => False
  | .transB _ => False
  | .csrrCtrl _ | .csrrPrev _ | .csrrStatus _ | .csrrCount _ | .csrrResult _ => False
  | .csrwCtrl _ | .csrwPrev _ | .csrwStatus _ | .csrwCount _ => False

/-- Instructions performed one after another: the last state, and the responses in order. -/
def perform : List Instr → State → Option (State × List Response)
  | [], s => some (s, [])
  | i :: rest, s =>
      match exec i s with
      | .next t =>
          match t.response, perform rest t with
          | some r, some (u, rs) => some (u, r :: rs)
          | _, _ => none
      | .fault _ => none
      | .refused _ => none

/-- The data bits of a run of operands of mixed widths, in transmission order. -/
def streamBits (ws : List (Width × Word)) : List Bool :=
  ws.flatMap fun x => dataBits (unitsOf x.1) x.2

/-- The symbols of a run of codewords of mixed widths, in transmission order. -/
def streamSymbols (ws : List (Width × Word)) (rs : List Response) : List Symbol :=
  (ws.zip rs).flatMap fun x => symbols (unitsOf x.1.1) x.2.dout

/-- R102 along a line that began at level `p`: a mid-symbol transition always, a boundary transition iff the bit is 0. -/
def DmLine : Bool → List Bool → List Symbol → Prop
  | _, [], [] => True
  | p, d :: ds, s :: ss => s.first ≠ s.second ∧ (s.first ≠ p ↔ d = false) ∧ DmLine s.second ds ss
  | _, _, _ => False

/-- R112 along a line that began at level `p`: a boundary transition always, a mid-bit transition iff the bit is 1. -/
def BmcLine : Bool → List Bool → List Symbol → Prop
  | _, [], [] => True
  | p, d :: ds, s :: ss => s.first ≠ p ∧ (s.first ≠ s.second ↔ d = true) ∧ BmcLine s.second ds ss
  | _, _, _ => False

/-- The nibble table as R87 prints it, for POL = 0. -/
def printedTable : List Nat :=
  [0xAA, 0xA9, 0xA6, 0xA5, 0x9A, 0x99, 0x96, 0x95, 0x6A, 0x69, 0x66, 0x65, 0x5A, 0x59, 0x56, 0x55]

/-- The nibble table as R87 prints it, for POL = 1. -/
def printedTableInverse : List Nat :=
  [0x55, 0x56, 0x59, 0x5A, 0x65, 0x66, 0x69, 0x6A, 0x95, 0x96, 0x99, 0x9A, 0xA5, 0xA6, 0xA9, 0xAA]

/-- Host memory holds these bytes from an address on. -/
def BytesAt (m : Memory) (addr : Nat) (bs : List Byte) : Prop :=
  ∀ k (h : k < bs.length), m.read (addr + k) = some bs[k]

/-- Host memory holds these codewords from an address on, the high byte of each first (R43). -/
def CodewordsAt (m : Memory) (addr : Nat) (cws : List Word) : Prop :=
  ∀ k (h : k < cws.length),
    m.read (addr + 2 * k) = some (cws[k].extractLsb' 8 8) ∧
    m.read (addr + 2 * k + 1) = some (cws[k].extractLsb' 0 8)

/-- Two memories read alike at every address outside the n bytes from `addr`. -/
def SameOutside (addr n : Nat) (m m' : Memory) : Prop :=
  ∀ a, (a < addr ∨ addr + n ≤ a) → m'.read a = m.read a

/-- A codeword is the Manchester code of a byte (R80). -/
def IsManCode (pol : Bool) (d : Byte) (cw : Word) : Prop :=
  ∀ j < 8, secondBit cw j = (d.getLsbD j ^^ pol) ∧ firstBit cw j = !(d.getLsbD j ^^ pol)

/-- A decode's output buffer is its input buffer or shares no address with it (R53). -/
def DecodeBuffersOk (inp len out : Nat) : Prop :=
  out = inp ∨ rangesOverlap inp len out (len / 2) = false

/-- R124's condition over the codewords of a block that began at level `p`. -/
def BmcBlockOk : Bool → List Word → Prop
  | _, [] => True
  | p, cw :: rest => BmcOk p 8 cw ∧ BmcBlockOk (cw.getLsbD 0) rest

/-- The responses due at a port, in order: strictly rising, each within the latency (R61). -/
def PortOrdered (p : PortState) : Prop :=
  (p.inFlight.map InFlight.due).Pairwise (· < ·) ∧
    ∀ f ∈ p.inFlight, 1 ≤ f.due ∧ f.due ≤ Config.latency

/-- The events that may clear ERR: CSRW STATUS with `din[0] = 0` (R25), reset, and power-up. -/
def mayClearErr : HostEvent → Bool
  | .command c => c.cmd == 0xC2#8 && !c.din.getLsbD 0
  | .reset => true
  | .powerUp => true

/-- The events that may clear ILL: CSRW STATUS with `din[1] = 0` (R26), reset, and power-up. -/
def mayClearIll : HostEvent → Bool
  | .command c => c.cmd == 0xC2#8 && !c.din.getLsbD 1
  | .reset => true
  | .powerUp => true

/-- The codec mnemonics of R66, each with its command word. -/
def codecLines : List (String × CmdWord) :=
  [("MAN_ENC.1", 0x10#8), ("MAN_ENC.N", 0x14#8), ("MAN_ENC.B", 0x18#8),
   ("MAN_DEC.1", 0x20#8), ("MAN_DEC.N", 0x24#8), ("MAN_DEC.B", 0x28#8),
   ("MAN_CHK.1", 0x30#8), ("MAN_CHK.N", 0x34#8), ("MAN_CHK.B", 0x38#8),
   ("MAN_DECC.B", 0x48#8),
   ("DM_ENC.1", 0x50#8), ("DM_ENC.N", 0x54#8), ("DM_ENC.B", 0x58#8),
   ("DM_DEC.1", 0x60#8), ("DM_DEC.N", 0x64#8), ("DM_DEC.B", 0x68#8),
   ("BMC_ENC.1", 0x70#8), ("BMC_ENC.N", 0x74#8), ("BMC_ENC.B", 0x78#8),
   ("BMC_DEC.1", 0x80#8), ("BMC_DEC.N", 0x84#8), ("BMC_DEC.B", 0x88#8),
   ("BMC_CHK.1", 0x90#8), ("BMC_CHK.N", 0x94#8), ("BMC_CHK.B", 0x98#8),
   ("TRANS.B", 0xA8#8)]

/-- The registers CSRR names (R71), each with its command word (R66). -/
def csrrLines : List (String × CmdWord) :=
  [("CTRL", 0xB0#8), ("PREV", 0xB1#8), ("STATUS", 0xB2#8), ("COUNT", 0xB3#8), ("RESULT", 0xB4#8)]

/-- The registers CSRW names and may write (R71), each with its command word (R66). -/
def csrwLines : List (String × CmdWord) :=
  [("CTRL", 0xC0#8), ("PREV", 0xC1#8), ("STATUS", 0xC2#8), ("COUNT", 0xC3#8)]

/-- A row of the assembler's tables, with the command word of the instruction it makes. -/
def rowWord (r : String × (Word → Instr)) : String × CmdWord := (r.1, (encode (r.2 0)).cmd)

/-- The low `n` hex digits of a number, written out as R71 writes an operand. -/
def hexText (n v : Nat) : String :=
  "0x" ++ String.ofList ((List.range n).reverse.map fun k => "0123456789ABCDEF".toList.getD (v / 16 ^ k % 16) '0')

/-- A line of assembly is read, and stands for these commands. -/
def Reads (line : String) (cs : List Command) : Prop := (parseLine line).map AsmLine.commands = some cs

/-- A line that ends in an operand is read for every operand, and stands for one command with it. -/
def ReadsWithOperand (start : String) (cmd : CmdWord) : Prop :=
  ∀ v : Word, Reads (start ++ hexText 4 v.toNat) [⟨cmd, v⟩]

/-- A line that ends in an operand is not read, whatever the operand. -/
def TakesNoOperand (start : String) : Prop := ∀ v : Word, parseLine (start ++ hexText 4 v.toNat) = none

end Sys2Proof.Certificates

open Sys2Proof Sys2Proof.Machine Sys2Proof.Certificates

/-- R80: MAN_ENC.1, MAN_ENC.N and MAN_ENC.B. -/
def Obligations.ManEncEncodesEachBit : Prop :=
  OnlyWords 0x1 [0x10#8, 0x14#8, 0x18#8] ∧
  ∀ (s : State) (din : Word),
    ∀ x ∈ [(0x10#8, Instr.manEnc1 din, 1), (0x14#8, Instr.manEncN din, 4), (0x18#8, Instr.manEncB din, 8)],
      decode ⟨x.1, din⟩ = .ok x.2.1 ∧
      ∃ c, exec x.2.1 s = answers s s.arch .ok c ∧ ZeroFrom (2 * x.2.2) c ∧
        ∀ j < x.2.2,
          firstBit c j = !(din.getLsbD j ^^ s.arch.pol) ∧ secondBit c j = (din.getLsbD j ^^ s.arch.pol)

/-- R81: MAN_DEC.1, MAN_DEC.N and MAN_DEC.B. The bit of a malformed symbol is the free value, whatever it is. -/
def Obligations.ManDecDecodesAndReports : Prop :=
  OnlyWords 0x2 [0x20#8, 0x24#8, 0x28#8] ∧
  ∀ (s : State) (din : Word),
    ∀ x ∈ [(0x20#8, Instr.manDec1 din, 1), (0x24#8, Instr.manDecN din, 4), (0x28#8, Instr.manDecB din, 8)],
      decode ⟨x.1, din⟩ = .ok x.2.1 ∧
      ∃ d, exec x.2.1 s = answers s s.arch (if ManOk x.2.2 din then .ok else .malformed) d ∧ ZeroFrom x.2.2 d ∧
        ∀ j < x.2.2, d.getLsbD j =
          if firstBit din j ≠ secondBit din j then secondBit din j ^^ s.arch.pol
          else Config.manDecInvalid (firstBit din j) (secondBit din j) s.arch.pol

/-- R82: MAN_DECC.B. -/
def Obligations.ManDeccDecodesAndAccounts : Prop :=
  OnlyWords 0x4 [0x48#8] ∧
  ∀ (s : State) (din : Word),
    decode ⟨0x48#8, din⟩ = .ok (.manDeccB din) ∧
    (if ManOk 8 din then
      ∃ d, exec (.manDeccB din) s = answers s (counted s.arch) .ok d ∧ ZeroFrom 8 d ∧
        ∀ j < 8, d.getLsbD j = (secondBit din j ^^ s.arch.pol)
    else exec (.manDeccB din) s = answers s (failed s.arch) .malformed 0x0000#16)

/-- R120: MAN_CHK.1, MAN_CHK.N and MAN_CHK.B; the check is not sufficient for Differential Manchester, since every word
that passes it is some DM codeword from any level. -/
def Obligations.ManChkChecksEachSymbol : Prop :=
  OnlyWords 0x3 [0x30#8, 0x34#8, 0x38#8] ∧
  (∀ (s : State) (x : Word), ∀ e ∈ [(Instr.dmEnc1, 1), (.dmEncN, 4), (.dmEncB, 8)], ManOk e.2 x →
    ∃ d t, exec (e.1 d) s = .next t ∧ t.response = some ⟨.ok, lowBits (2 * e.2) x⟩) ∧
  ∀ (s : State) (din : Word),
    ∀ x ∈ [(0x30#8, Instr.manChk1 din, 1), (0x34#8, Instr.manChkN din, 4), (0x38#8, Instr.manChkB din, 8)],
      decode ⟨x.1, din⟩ = .ok x.2.1 ∧
      exec x.2.1 s =
        if ManOk x.2.2 din then answers s (counted s.arch) .ok 0x0000#16
        else answers s (failed s.arch) .malformed 0x0000#16

/-- R100: DM_ENC.1, DM_ENC.N and DM_ENC.B. -/
def Obligations.DmEncThreadsTheLevel : Prop :=
  OnlyWords 0x5 [0x50#8, 0x54#8, 0x58#8] ∧
  ∀ (s : State) (din : Word),
    ∀ x ∈ [(0x50#8, Instr.dmEnc1 din, 1), (0x54#8, Instr.dmEncN din, 4), (0x58#8, Instr.dmEncB din, 8)],
      decode ⟨x.1, din⟩ = .ok x.2.1 ∧
      ∃ c, exec x.2.1 s = answers s { s.arch with prev := secondBit c 0 } .ok c ∧ ZeroFrom (2 * x.2.2) c ∧
        ∀ j < x.2.2,
          firstBit c j =
            (if din.getLsbD j then levelBefore s.arch.prev x.2.2 c j else !levelBefore s.arch.prev x.2.2 c j) ∧
          secondBit c j = !firstBit c j

/-- R101: DM_DEC.1, DM_DEC.N and DM_DEC.B. -/
def Obligations.DmDecComparesWithTheLevel : Prop :=
  OnlyWords 0x6 [0x60#8, 0x64#8, 0x68#8] ∧
  ∀ (s : State) (din : Word),
    ∀ x ∈ [(0x60#8, Instr.dmDec1 din, 1), (0x64#8, Instr.dmDecN din, 4), (0x68#8, Instr.dmDecB din, 8)],
      decode ⟨x.1, din⟩ = .ok x.2.1 ∧
      ∃ d, exec x.2.1 s = answers s { s.arch with prev := secondBit din 0 } .ok d ∧ ZeroFrom x.2.2 d ∧
        ∀ j < x.2.2, d.getLsbD j = (levelBefore s.arch.prev x.2.2 din j == firstBit din j)

/-- R110: BMC_ENC.1, BMC_ENC.N and BMC_ENC.B. -/
def Obligations.BmcEncThreadsTheLevel : Prop :=
  OnlyWords 0x7 [0x70#8, 0x74#8, 0x78#8] ∧
  ∀ (s : State) (din : Word),
    ∀ x ∈ [(0x70#8, Instr.bmcEnc1 din, 1), (0x74#8, Instr.bmcEncN din, 4), (0x78#8, Instr.bmcEncB din, 8)],
      decode ⟨x.1, din⟩ = .ok x.2.1 ∧
      ∃ c, exec x.2.1 s = answers s { s.arch with prev := secondBit c 0 } .ok c ∧ ZeroFrom (2 * x.2.2) c ∧
        ∀ j < x.2.2,
          firstBit c j = !levelBefore s.arch.prev x.2.2 c j ∧
          secondBit c j = if din.getLsbD j then !firstBit c j else firstBit c j

/-- R111: BMC_DEC.1, BMC_DEC.N and BMC_DEC.B. -/
def Obligations.BmcDecFindsMidTransitions : Prop :=
  OnlyWords 0x8 [0x80#8, 0x84#8, 0x88#8] ∧
  ∀ (s : State) (din : Word),
    ∀ x ∈ [(0x80#8, Instr.bmcDec1 din, 1), (0x84#8, Instr.bmcDecN din, 4), (0x88#8, Instr.bmcDecB din, 8)],
      decode ⟨x.1, din⟩ = .ok x.2.1 ∧
      ∃ d, exec x.2.1 s = answers s { s.arch with prev := secondBit din 0 } .ok d ∧ ZeroFrom x.2.2 d ∧
        ∀ j < x.2.2, d.getLsbD j = (firstBit din j ^^ secondBit din j)

/-- R121: BMC_CHK.1, BMC_CHK.N and BMC_CHK.B. -/
def Obligations.BmcChkChecksEachBoundary : Prop :=
  OnlyWords 0x9 [0x90#8, 0x94#8, 0x98#8] ∧
  ∀ (s : State) (din : Word),
    ∀ x ∈ [(0x90#8, Instr.bmcChk1 din, 1), (0x94#8, Instr.bmcChkN din, 4), (0x98#8, Instr.bmcChkB din, 8)],
      decode ⟨x.1, din⟩ = .ok x.2.1 ∧
      exec x.2.1 s =
        if BmcOk s.arch.prev x.2.2 din then
          answers s (counted { s.arch with prev := secondBit din 0 }) .ok 0x0000#16
        else answers s (failed { s.arch with prev := secondBit din 0 }) .malformed 0x0000#16

/-- R122: TRANS.B, bit by bit and in the rule's closed form. -/
def Obligations.TransMarksLevelChanges : Prop :=
  OnlyWords 0xA [0xA8#8] ∧
  ∀ (s : State) (din : Word),
    decode ⟨0xA8#8, din⟩ = .ok (.transB din) ∧
    ∃ m, exec (.transB din) s = answers s s.arch .ok m ∧ ZeroFrom 8 m ∧
      (∀ i < 8, m.getLsbD i = (din.getLsbD i ^^ if i = 7 then s.arch.prev else din.getLsbD (i + 1))) ∧
      m.extractLsb' 0 8 = (din.extractLsb' 0 8) ^^^ (BitVec.ofBool s.arch.prev ++ din.extractLsb' 1 7)

/-- R135: NOP, and that no other instruction is without effect and result in every state. -/
def Obligations.NopDoesNothing : Prop :=
  OnlyWords 0x0 [0x00#8] ∧
  (∀ i : Instr, (∀ s, exec i s = answers s s.arch .ok 0x0000#16) → ∃ din, i = .nop din) ∧
  ∀ (s : State) (din : Word),
    decode ⟨0x00#8, din⟩ = .ok (.nop din) ∧ exec (.nop din) s = answers s s.arch .ok 0x0000#16

/-- R136: CSRR of each register, whatever the operand. -/
def Obligations.CsrrReadsTheRegister : Prop :=
  OnlyWords 0xB [0xB0#8, 0xB1#8, 0xB2#8, 0xB3#8, 0xB4#8] ∧
  ∀ (s : State) (din : Word),
    ∀ x ∈ [(0xB0#8, Instr.csrrCtrl din, if s.arch.pol then 0x0001#16 else 0x0000#16),
           (0xB1#8, Instr.csrrPrev din, if s.arch.prev then 0x0001#16 else 0x0000#16),
           (0xB2#8, Instr.csrrStatus din,
             (if s.arch.ill then 0x0002#16 else 0x0000#16) + (if s.arch.err then 0x0001#16 else 0x0000#16)),
           (0xB3#8, Instr.csrrCount din, s.arch.cnt),
           (0xB4#8, Instr.csrrResult din, if s.arch.err then s.arch.cnt else 0x0000#16)],
      decode ⟨x.1, din⟩ = .ok x.2.1 ∧ exec x.2.1 s = answers s s.arch .ok x.2.2

/-- R137: CSRW of each register. -/
def Obligations.CsrwWritesTheRegister : Prop :=
  OnlyWords 0xC [0xC0#8, 0xC1#8, 0xC2#8, 0xC3#8] ∧
  ∀ (s : State) (din : Word),
    ∀ x ∈ [(0xC0#8, Instr.csrwCtrl din, { s.arch with pol := din.getLsbD 0 }),
           (0xC1#8, Instr.csrwPrev din, { s.arch with prev := din.getLsbD 0 }),
           (0xC2#8, Instr.csrwStatus din, { s.arch with err := din.getLsbD 0, ill := din.getLsbD 1 }),
           (0xC3#8, Instr.csrwCount din, { s.arch with cnt := din })],
      decode ⟨x.1, din⟩ = .ok x.2.1 ∧ exec x.2.1 s = answers s x.2.2 .ok 0x0000#16

/-- R151: a step on any illegal command word. -/
def Obligations.IllegalWordOnlySetsIll : Prop :=
  ∀ (s : State) (c : Command) (rest : List HostEvent),
    s.input = .command c :: rest → IllegalByR67 c.cmd →
      step s = answers { s with input := rest } { s.arch with ill := true } .illegal 0x0000#16

/-- R67 and R68: the decoder refuses exactly the words they call illegal, whatever the operand. -/
def Obligations.DecoderRefusesExactlyIllegalWords : Prop :=
  ∀ c : Command, (∃ e, decode c = .error e) ↔ IllegalByR67 c.cmd

/-- R66, which the spec derives from R63, R65, R67 and R68: the 36 legal words and what each stands for; no other word of
the 256 decodes. -/
def Obligations.LegalWordsAreTheThirtySix : Prop :=
  ((List.range 256).filterMap fun n => (decodeTableWord 8 n).map fun i => (n, i)) =
    [(0x00, .nop 0),
     (0x10, .manEnc1 0), (0x14, .manEncN 0), (0x18, .manEncB 0),
     (0x20, .manDec1 0), (0x24, .manDecN 0), (0x28, .manDecB 0),
     (0x30, .manChk1 0), (0x34, .manChkN 0), (0x38, .manChkB 0),
     (0x48, .manDeccB 0),
     (0x50, .dmEnc1 0), (0x54, .dmEncN 0), (0x58, .dmEncB 0),
     (0x60, .dmDec1 0), (0x64, .dmDecN 0), (0x68, .dmDecB 0),
     (0x70, .bmcEnc1 0), (0x74, .bmcEncN 0), (0x78, .bmcEncB 0),
     (0x80, .bmcDec1 0), (0x84, .bmcDecN 0), (0x88, .bmcDecB 0),
     (0x90, .bmcChk1 0), (0x94, .bmcChkN 0), (0x98, .bmcChkB 0),
     (0xA8, .transB 0),
     (0xB0, .csrrCtrl 0), (0xB1, .csrrPrev 0), (0xB2, .csrrStatus 0), (0xB3, .csrrCount 0), (0xB4, .csrrResult 0),
     (0xC0, .csrwCtrl 0), (0xC1, .csrwPrev 0), (0xC2, .csrwStatus 0), (0xC3, .csrwCount 0)]

/-- Decode and encode agree: every instruction, with every operand, is well formed and decodes from its encoding. -/
def Obligations.DecodeOfEncodeIsTheInstruction : Prop :=
  ∀ i : Instr, i.wellFormed = true ∧ decode (encode i) = .ok i

/-- A command that decodes is the encoding of what it decodes to: no two words share a meaning. -/
def Obligations.EncodeOfDecodeIsTheCommand : Prop :=
  ∀ (c : Command) (i : Instr), decode c = .ok i → encode i = c

/-- A step runs the decoded instruction, the command having been taken off the port. -/
def Obligations.StepRunsTheDecodedInstruction : Prop :=
  ∀ (s : State) (c : Command) (rest : List HostEvent) (i : Instr),
    s.input = .command c :: rest → decode c = .ok i → i.wellFormed = true →
      step s = exec i { s with input := rest }

/-- What a step does on the events that are no command. The idle step and what stands at the port are the model's choice
(log entries 2, 3 and 17); nothing is said of the record after a power-up (log entry 5). -/
def Obligations.StepOnResetPowerUpAndNothing : Prop :=
  ∀ (s : State) (rest : List HostEvent),
    (s.input = .reset :: rest →
      step s = .next { s with arch := ⟨false, false, false, false, 0x0000#16⟩, input := rest, response := none }) ∧
    (s.input = .powerUp :: rest →
      ∃ a, step s = .next { s with arch := a, input := rest, response := none, powerUps := s.powerUps + 1 }) ∧
    (s.input = [] → step s = .next { s with response := none })

/-- R34: every state field and the RESULT view after reset. -/
def Obligations.ResetValuesAreZero : Prop :=
  State.reset.arch = ⟨false, false, false, false, 0x0000#16⟩ ∧
    ∀ k : Csr, csrRead k State.reset.arch = 0x0000#16

/-- No step stops: neither a fault nor a refusal, in any state, whatever the host offers. -/
def Obligations.EveryStepGoesOn : Prop :=
  ∀ s : State, Safety.GoesOn (step s)

/-- R62: the response codes, what each means, and who gives which. -/
def Obligations.ResponseCodesAsListed : Prop :=
  (ResponseCode.ok.bits = 0b00#2 ∧ ResponseCode.malformed.bits = 0b01#2 ∧ ResponseCode.illegal.bits = 0b10#2) ∧
  (∀ r : ResponseCode, r.bits ≠ 0b11#2) ∧
  (∀ (i : Instr) (s : State), ∃ a r, exec i s = .next { s with arch := a, response := some r } ∧
    (r.rsp = .malformed ↔ MalformedInput s.arch i) ∧ (r.rsp = .ok ↔ ¬ MalformedInput s.arch i) ∧
    (r.rsp = .malformed → Safety.mayBeMalformed i = true)) ∧
  (∀ (s : State) (c : Command) (rest : List HostEvent), s.input = .command c :: rest →
    ∃ t r, step s = .next t ∧ t.response = some r ∧
      (r.rsp = .illegal ↔ IllegalByR67 c.cmd) ∧
      (r.rsp = .illegal → t.arch = { s.arch with ill := true }))

/-- A conforming response stands at the port after every step. -/
def Obligations.StepKeepsTheResponseConforming : Prop :=
  ∀ s t : State, Safety.Conforms s → step s = .next t → Safety.Conforms t

/-- The reset state has no response to conform. -/
def Obligations.ResetConforms : Prop := Safety.Conforms State.reset

/-- R25's stickiness: along any step whose event may not clear it, ERR stays set; while it is set and no CSRW COUNT comes,
CNT is frozen. -/
def Obligations.ErrIsStickyAndFreezesCnt : Prop :=
  ∀ (s t : State) (e : HostEvent) (rest : List HostEvent),
    s.input = e :: rest → mayClearErr e = false → s.arch.err = true → step s = .next t →
      t.arch.err = true ∧ ((∀ din, e ≠ .command ⟨0xC3#8, din⟩) → t.arch.cnt = s.arch.cnt)

/-- R26: what sets ILL, what may clear it, and its reset value. -/
def Obligations.IllIsSticky : Prop :=
  (∀ (s t : State) (c : Command) (rest : List HostEvent),
    s.input = .command c :: rest → IllegalByR67 c.cmd → step s = .next t → t.arch.ill = true) ∧
  (∀ (s t : State) (e : HostEvent) (rest : List HostEvent),
    s.input = e :: rest → mayClearIll e = false → s.arch.ill = true → step s = .next t → t.arch.ill = true) ∧
  (∀ (s t : State) (din : Word) (rest : List HostEvent),
    s.input = .command ⟨0xC2#8, din⟩ :: rest → din.getLsbD 1 = false → step s = .next t → t.arch.ill = false) ∧
  (∀ (s t : State) (rest : List HostEvent),
    s.input = .reset :: rest → step s = .next t → t.arch.ill = false) ∧
  State.reset.arch.ill = false

/-- The write column of R35's table, which the spec derives from the command rules: what no instruction but the listed
ones may change. -/
def Obligations.InstructionsWriteOnlyTheirFields : Prop :=
  ∀ (i : Instr) (s t : State), exec i s = .next t →
    ((∀ din, i ≠ .csrwCtrl din) → t.arch.pol = s.arch.pol) ∧
    (Safety.writesPrev i = false → t.arch.prev = s.arch.prev) ∧
    (Safety.accounts i = false → (∀ din, i ≠ .csrwStatus din) → t.arch.err = s.arch.err) ∧
    ((∀ din, i ≠ .csrwStatus din) → t.arch.ill = s.arch.ill) ∧
    (Safety.accounts i = false → (∀ din, i ≠ .csrwCount din) → t.arch.cnt = s.arch.cnt) ∧
    t.input = s.input ∧ t.powerUps = s.powerUps

/-- What the Manchester commands depend on; R88, which the spec derives from R80 to R82 and R35. -/
def Obligations.ManchesterDependsOnPolarityOnly : Prop :=
  ∀ (s t s' t' : State) (din : Word), s.arch.pol = t.arch.pol →
    (∀ i ∈ [Instr.manEnc1 din, .manEncN din, .manEncB din, .manDec1 din, .manDecN din, .manDecB din],
      exec i s = .next s' → exec i t = .next t' →
        s'.response = t'.response ∧ s'.arch = s.arch) ∧
    (exec (.manDeccB din) s = .next s' → exec (.manDeccB din) t = .next t' →
      s'.response = t'.response ∧ s'.arch.prev = s.arch.prev) ∧
    (∀ u v u' v' : State, u.arch.err = v.arch.err → u.arch.cnt = v.arch.cnt →
      exec (.manDeccB din) u = .next u' → exec (.manDeccB din) v = .next v' →
        u'.arch.err = v'.arch.err ∧ u'.arch.cnt = v'.arch.cnt)

/-- The operand bits above the operand change nothing, for every command (R64, R44); those of CSRW CTRL, PREV and STATUS are the
registers' reserved bits (R30, R137). -/
def Obligations.OperandBitsAboveAreIgnored : Prop :=
  ∀ (s : State) (x y : Word),
    ∀ g ∈ [(0, [Instr.nop, .csrrCtrl, .csrrPrev, .csrrStatus, .csrrCount, .csrrResult]),
           (1, [.manEnc1, .dmEnc1, .bmcEnc1, .csrwCtrl, .csrwPrev]),
           (2, [.manDec1, .manChk1, .dmDec1, .bmcDec1, .bmcChk1, .csrwStatus]),
           (4, [.manEncN, .dmEncN, .bmcEncN]),
           (8, [.manEncB, .dmEncB, .bmcEncB, .manDecN, .manChkN, .dmDecN, .bmcDecN, .bmcChkN, .transB])],
      (∀ k < g.1, x.getLsbD k = y.getLsbD k) → ∀ make ∈ g.2, exec (make x) s = exec (make y) s

/-- R30: reserved register bits read 0, writes ignore them, and all of COUNT is there. -/
def Obligations.ReservedRegisterBits : Prop :=
  (∀ a : Arch, ZeroFrom 1 (csrRead .ctrl a) ∧ ZeroFrom 1 (csrRead .prev a) ∧ ZeroFrom 2 (csrRead .status a)) ∧
  (∀ (s : State) (v w : Word), v.getLsbD 0 = w.getLsbD 0 →
    exec (.csrwCtrl v) s = exec (.csrwCtrl w) s ∧ exec (.csrwPrev v) s = exec (.csrwPrev w) s ∧
    (v.getLsbD 1 = w.getLsbD 1 → exec (.csrwStatus v) s = exec (.csrwStatus w) s)) ∧
  (∀ (s : State) (v : Word), ∀ i ∈ [Instr.csrwCtrl v, .csrwPrev v, .csrwStatus v, .csrwCount v],
    ∃ t, exec i s = .next t ∧ t.response = some ⟨.ok, 0x0000#16⟩) ∧
  (∀ (s : State) (v din : Word),
    ∃ t, exec (.csrwCount v) s = .next t ∧ exec (.csrrCount din) t = answers t t.arch .ok v)

/-- The save and restore of R56: whatever another context did to the block in between, its record comes back. -/
def Obligations.RestoreBringsTheSavedContextBack : Prop :=
  ∀ w between : HostWorld, ∃ w1 c w2,
    saveContext w = .next (w1, c) ∧ w1.block.arch = w.block.arch ∧ w1.mem = w.mem ∧
    restoreContext c between = .next (w2, ()) ∧ w2.block.arch = w.block.arch ∧ w2.mem = between.mem

/-- The Manchester round trip; R83, which the spec derives from R79 to R82. -/
def Obligations.ManchesterRoundTrip : Prop :=
  ∀ (s : State) (din : Word),
    ∀ x ∈ [(Instr.manEnc1 din, Instr.manDec1, 1), (Instr.manEncN din, Instr.manDecN, 4),
           (Instr.manEncB din, Instr.manDecB, 8)],
      ∃ t r, exec x.1 s = .next t ∧ t.response = some r ∧
        exec (x.2.1 r.dout) t = answers t t.arch .ok (lowBits x.2.2 din) ∧
        (x.2.2 = 8 → exec (.manDeccB r.dout) t = answers t (counted t.arch) .ok (lowBits 8 din))

/-- R84, which the spec derives from R79, R80 and R120: every MAN_ENC codeword passes MAN_CHK, and no single-bit flip of
it does. -/
def Obligations.ManChkFindsEverySingleFlip : Prop :=
  ∀ (s : State) (din : Word),
    ∀ x ∈ [(Instr.manEnc1 din, Instr.manChk1, 1), (Instr.manEncN din, Instr.manChkN, 4),
           (Instr.manEncB din, Instr.manChkB, 8)],
      ∃ c, exec x.1 s = answers s s.arch .ok c ∧
        exec (x.2.1 c) s = answers s (counted s.arch) .ok 0x0000#16 ∧
        ∀ b < 2 * x.2.2,
          exec (x.2.1 (c ^^^ BitVec.twoPow 16 b)) s = answers s (failed s.arch) .malformed 0x0000#16

/-- The polarity law; R86, which the spec derives from R79. -/
def Obligations.PolarityComplements : Prop :=
  ∀ (s : State) (din : Word),
    (∀ x ∈ [(Instr.manEnc1 din, 1), (Instr.manEncN din, 4), (Instr.manEncB din, 8)],
      ∃ c, exec x.1 (withPol false s) = answers (withPol false s) (withPol false s).arch .ok c ∧
        exec x.1 (withPol true s) =
          answers (withPol true s) (withPol true s).arch .ok (lowBits (2 * x.2) (~~~c))) ∧
    (∀ x ∈ [(Instr.manDec1, 1), (Instr.manDecN, 4), (Instr.manDecB, 8)],
      ∃ r d d', exec (x.1 din) (withPol true s) = answers (withPol true s) (withPol true s).arch r d ∧
        exec (x.1 (~~~din)) (withPol false s) = answers (withPol false s) (withPol false s).arch r d' ∧
        (∀ j < x.2, firstBit din j ≠ secondBit din j → d.getLsbD j = d'.getLsbD j) ∧
        (ManOk x.2 din → r = .ok ∧ d = d'))

/-- R87, which the spec derives from R79 and R80: the printed nibble table, its complement under POL = 1, and the byte
table, are the `LUT` backend's and what MAN_ENC answers. -/
def Obligations.NibbleTableIsManEnc : Prop :=
  ∀ s : State,
    let t := if s.arch.pol then printedTableInverse else printedTable
    (∀ k < 16, (tableEntry s.arch.pol (BitVec.ofNat 4 k)).toNat = t.getD k 0 ∧
      exec (.manEncN (BitVec.ofNat 16 k)) s = answers s s.arch .ok (BitVec.ofNat 16 (t.getD k 0))) ∧
    (∀ d < 256, (lutEncode .byte s.arch.pol (BitVec.ofNat 16 d)).toNat =
        256 * t.getD (d / 16) 0 + t.getD (d % 16) 0 ∧
      exec (.manEncB (BitVec.ofNat 16 d)) s =
        answers s s.arch .ok (BitVec.ofNat 16 (256 * t.getD (d / 16) 0 + t.getD (d % 16) 0)))

/-- Every backend answers the Manchester commands as the block does, malformed words and the free value included
(R138, R141). That the peripheral answers by the rule is its contract (log entry 6); how the tables answer a single bit and a
malformed byte is the model's choice (log entry 18). -/
def Obligations.BackendsAreBitIdentical : Prop :=
  ∀ (b : Config.Backend) (w : Width) (din : Word) (s : State),
    exec (manEncOf din w) s = answers s s.arch .ok (backendEncode b w s.arch.pol din) ∧
    exec (manDecOf din w) s =
      answers s s.arch (if (backendDecode b w s.arch.pol din).1 then .ok else .malformed)
        (backendDecode b w s.arch.pol din).2 ∧
    ∃ t, exec (.manDeccB din) s = .next t ∧ t.response = some (backendDecodeChecked b s.arch.pol din)

/-- R42, which the spec derives from R9, R80, R100 and R110: a byte command, its two nibble commands and its eight bit
commands, and a nibble command and its four bit commands, give the same symbols and the same record. -/
def Obligations.GranularitiesSplit : Prop :=
  ∀ (s : State) (d : Word),
    ∀ enc ∈ [manEncOf, dmEncOf, bmcEncOf],
      (∃ t r u h l, perform [enc d .byte] s = some (t, [r]) ∧
        perform [enc (d >>> 4) .nibble, enc d .nibble] s = some (u, [h, l]) ∧
        r.dout = (h.dout <<< 8) ||| l.dout ∧ t.arch = u.arch) ∧
      (∃ t r u a b c e, perform [enc d .nibble] s = some (t, [r]) ∧
        perform [enc (d >>> 3) .bit, enc (d >>> 2) .bit, enc (d >>> 1) .bit, enc d .bit] s =
          some (u, [a, b, c, e]) ∧
        r.dout = (a.dout <<< 6) ||| (b.dout <<< 4) ||| (c.dout <<< 2) ||| e.dout ∧ t.arch = u.arch) ∧
      (∃ t r u bs, perform [enc d .byte] s = some (t, [r]) ∧
        perform ((List.range 8).map fun k => enc (d >>> (7 - k)) .bit) s = some (u, bs) ∧
        symbols 8 r.dout = bs.flatMap (fun b => symbols 1 b.dout) ∧ t.arch = u.arch)

/-- R102, which the spec derives from R100: the line of every DM_ENC stream, of any length and any mix of widths. -/
def Obligations.DmStreamsHaveTheirTransitions : Prop :=
  ∀ (s : State) (ws : List (Width × Word)), ∃ t rs,
    perform (ws.map fun x => dmEncOf x.2 x.1) s = some (t, rs) ∧
    DmLine s.arch.prev (streamBits ws) (streamSymbols ws rs)

/-- R112, which the spec derives from R110: the line of every BMC_ENC stream, of any length and any mix of widths. -/
def Obligations.BmcStreamsHaveTheirTransitions : Prop :=
  ∀ (s : State) (ws : List (Width × Word)), ∃ t rs,
    perform (ws.map fun x => bmcEncOf x.2 x.1) s = some (t, rs) ∧
    BmcLine s.arch.prev (streamBits ws) (streamSymbols ws rs)

/-- R103, which the spec derives from R100 and R101: a DM stream, chunked in any way, decodes to its data from the
encoder's starting PREV and ends at its PREV. -/
def Obligations.DmStreamRoundTrip : Prop :=
  ∀ (s : State) (ws : List (Width × Word)), ∃ t rs u us,
    perform (ws.map fun x => dmEncOf x.2 x.1) s = some (t, rs) ∧
    perform ((ws.zip rs).map fun x => dmDecOf x.2.dout x.1.1) { t with arch := s.arch } = some (u, us) ∧
    us = ws.map (fun x => ⟨.ok, lowBits (unitsOf x.1) x.2⟩) ∧ u.arch = t.arch

/-- R113, which the spec derives from R110, R111 and R121: a BMC stream, chunked in any way, decodes to its data and
passes its check, both ending at the encoder's PREV. -/
def Obligations.BmcStreamRoundTrip : Prop :=
  ∀ (s : State) (ws : List (Width × Word)), ∃ t rs u us v vs,
    perform (ws.map fun x => bmcEncOf x.2 x.1) s = some (t, rs) ∧
    perform ((ws.zip rs).map fun x => bmcDecOf x.2.dout x.1.1) { t with arch := s.arch } = some (u, us) ∧
    us = ws.map (fun x => ⟨.ok, lowBits (unitsOf x.1) x.2⟩) ∧ u.arch = t.arch ∧
    perform ((ws.zip rs).map fun x => bmcChkOf x.2.dout x.1.1) { t with arch := s.arch } = some (v, vs) ∧
    (∀ r ∈ vs, r.rsp = .ok) ∧ v.arch.prev = t.arch.prev

/-- R104, which the spec derives from R101 and R122: DM_DEC is the complement of the transition mask at the symbols' first
bits. -/
def Obligations.DmDecIsTheTransitionMask : Prop :=
  ∀ (s : State) (x : Word), ∃ h l d,
    exec (.transB (x >>> 8)) s = answers s s.arch .ok h ∧
    exec (.transB (x &&& 0x00FF#16)) (withPrev (x.getLsbD 8) s) =
      answers (withPrev (x.getLsbD 8) s) (withPrev (x.getLsbD 8) s).arch .ok l ∧
    exec (.dmDecB x) s = answers s { s.arch with prev := x.getLsbD 0 } .ok d ∧
    ∀ j < 8, d.getLsbD j = !((h <<< 8) ||| l).getLsbD (2 * j + 1)

/-- R114, which the spec derives from R110 and R121: which single-bit flips of a BMC_ENC word its check finds, and which
only the check of the next word does. -/
def Obligations.BmcChkFindsFlips : Prop :=
  ∀ (s : State) (din next : Word),
    ∀ x ∈ [(Instr.bmcEnc1 din, Instr.bmcChk1, 1), (Instr.bmcEncN din, Instr.bmcChkN, 4),
           (Instr.bmcEncB din, Instr.bmcChkB, 8)],
      ∃ c p, exec x.1 s = answers s { s.arch with prev := p } .ok c ∧
        (∀ j < x.2.2, ∃ t, exec (x.2.1 (c ^^^ BitVec.twoPow 16 (2 * j + 1))) s = .next t ∧
          t.response = some ⟨.malformed, 0x0000#16⟩) ∧
        (∀ j < x.2.2, 1 ≤ j →
          firstBit (c ^^^ BitVec.twoPow 16 (2 * j)) (j - 1) =
            levelBefore s.arch.prev x.2.2 (c ^^^ BitVec.twoPow 16 (2 * j)) (j - 1) ∧
          ∃ t, exec (x.2.1 (c ^^^ BitVec.twoPow 16 (2 * j))) s = .next t ∧
            t.response = some ⟨.malformed, 0x0000#16⟩) ∧
        (∃ t, exec (x.2.1 (c ^^^ BitVec.twoPow 16 0)) s = .next t ∧
          t.response = some ⟨.ok, 0x0000#16⟩ ∧
          ∀ y ∈ [(Instr.bmcEnc1 next, Instr.bmcChk1), (Instr.bmcEncN next, Instr.bmcChkN),
                 (Instr.bmcEncB next, Instr.bmcChkB)],
            ∃ c' q u, exec y.1 (withPrev p s) = answers (withPrev p s) { s.arch with prev := q } .ok c' ∧
              exec (y.2 c') t = .next u ∧ u.response = some ⟨.malformed, 0x0000#16⟩)

/-- R123, which the spec derives from R120 and R27: CHECK_BLOCK with MAN_CHK, with the optional break or without it. -/
def Obligations.ManCheckBlockFindsTheFirstFailure : Prop :=
  ∀ (w : HostWorld) (early p : Bool) (inp : Nat) (cws : List Word),
    cws.length ≤ 65535 → CodewordsAt w.mem inp cws →
      ∃ w' ok, checkBlock .man early inp (2 * cws.length) p w = .next (w', ok) ∧
        ok = !w'.block.arch.err ∧
        (w'.block.arch.err = false ↔ ∀ cw ∈ cws, ManOk 8 cw) ∧
        w'.block.arch.cnt.toNat = cws.findIdx (fun cw => !decide (ManOk 8 cw)) ∧
        w'.mem = w.mem

/-- R124, which the spec derives from R121: CHECK_BLOCK with BMC_CHK from the level `p`. -/
def Obligations.BmcCheckBlockThreadsTheLevel : Prop :=
  ∀ (w : HostWorld) (early p : Bool) (inp : Nat) (cws : List Word),
    cws.length ≤ 65535 → CodewordsAt w.mem inp cws →
      ∃ w' ok, checkBlock .bmc early inp (2 * cws.length) p w = .next (w', ok) ∧
        ok = !w'.block.arch.err ∧
        (w'.block.arch.err = false ↔ BmcBlockOk p cws) ∧
        (early = false ∨ w'.block.arch.err = false →
          w'.block.arch.prev = ((cws.getLast?).map (·.getLsbD 0)).getD p) ∧
        (early = true → w'.block.arch.err = true →
          ∃ cw, cws[w'.block.arch.cnt.toNat]? = some cw ∧ w'.block.arch.prev = cw.getLsbD 0) ∧
        w'.mem = w.mem

/-- R85, which the spec derives from R82, R27 and R29: COMBINED_DECODE of a block whose first malformed codeword is number
k. -/
def Obligations.CombinedDecodeStopsAtTheFirstFailure : Prop :=
  ∀ (w : HostWorld) (inp out k : Nat) (cws : List Word) (h : k < cws.length),
    cws.length ≤ 65535 → CodewordsAt w.mem inp cws → DecodeBuffersOk inp (2 * cws.length) out →
    (∀ j (hj : j < k), ManOk 8 cws[j]) → ¬ ManOk 8 cws[k] →
      ∃ w', combinedDecode inp (2 * cws.length) out w = .next (w', (BitVec.ofNat 16 k, true)) ∧
        w'.block.arch.err = true ∧ w'.block.arch.cnt.toNat = k ∧
        (∀ j (hj : j < k), ∃ d : Byte, w'.mem.read (out + j) = some d ∧
          ∀ b < 8, d.getLsbD b = (secondBit cws[j] b ^^ w.block.arch.pol)) ∧
        SameOutside out k w.mem w'.mem

/-- A Manchester buffer encoded and then decoded with the partial-success count comes back whole, reporting full success,
and no other byte of host memory changes (R48, R53). -/
def Obligations.EncodeThenCombinedDecodeIsTheInput : Prop :=
  ∀ (w : HostWorld) (inp out dec : Nat) (ds : List Byte),
    ds.length ≤ 65535 → BytesAt w.mem inp ds →
    rangesOverlap inp ds.length out (2 * ds.length) = false → DecodeBuffersOk out (2 * ds.length) dec →
      ∃ w1 w2, encodeBuffer .man inp ds.length out false w = .next (w1, none) ∧
        combinedDecode out (2 * ds.length) dec w1 = .next (w2, (0x0000#16, false)) ∧
        BytesAt w2.mem dec ds ∧
        (∀ a, (a < out ∨ out + 2 * ds.length ≤ a) → (a < dec ∨ dec + ds.length ≤ a) →
          w2.mem.read a = w.mem.read a)

/-- TWO_PHASE_DECODE decodes a valid block whole and writes nothing of an invalid one (R52). -/
def Obligations.TwoPhaseDecodeIsAllOrNothing : Prop :=
  ∀ (w : HostWorld) (early : Bool) (inp out : Nat) (cws : List Word),
    cws.length ≤ 65535 → CodewordsAt w.mem inp cws → DecodeBuffersOk inp (2 * cws.length) out →
      if ∀ cw ∈ cws, ManOk 8 cw then
        ∃ w', twoPhaseDecode early inp (2 * cws.length) out w = .next (w', true) ∧
          (∀ k (h : k < cws.length), ∃ d : Byte, w'.mem.read (out + k) = some d ∧
            ∀ b < 8, d.getLsbD b = (secondBit cws[k] b ^^ w.block.arch.pol)) ∧
          SameOutside out cws.length w.mem w'.mem
      else ∃ w', twoPhaseDecode early inp (2 * cws.length) out w = .next (w', false) ∧ w'.mem = w.mem

/-- An encode in place, from the last byte down, gives the codewords of the bytes that stood there; for DM and BMC the
procedure refuses (R49). -/
def Obligations.EncodeInPlaceLosesNoInput : Prop :=
  ∀ (w : HostWorld) (buf : Nat) (ds : List Byte), BytesAt w.mem buf ds →
    (∃ w' cws, encodeInPlace .man buf ds.length w = .next (w', ()) ∧ w'.block.arch = w.block.arch ∧
      cws.length = ds.length ∧ CodewordsAt w'.mem buf cws ∧
      (∀ k (h : k < ds.length) (h' : k < cws.length), IsManCode w.block.arch.pol ds[k] cws[k]) ∧
      SameOutside buf (2 * ds.length) w.mem w'.mem) ∧
    ∀ code, encodeInPlace (.stateful code) buf ds.length w = .refused .statefulInPlace

/-- The nibble-granularity encode of a buffer leaves the same memory, the same record and the same boundary bit (R50). -/
def Obligations.NibbleEncodeOfABufferIsTheSame : Prop :=
  ∀ (code : LineCode) (w : HostWorld) (inp out : Nat) (p : Bool) (ds : List Byte),
    BytesAt w.mem inp ds → rangesOverlap inp ds.length out (2 * ds.length) = false →
      ∃ w1 w2 b, encodeBuffer code inp ds.length out p w = .next (w1, b) ∧
        encodeBufferByNibbles code inp ds.length out p w = .next (w2, b) ∧
        w1.mem = w2.mem ∧ w1.block.arch = w2.block.arch

/-- A DM or BMC buffer encoded and then decoded from the same boundary bit comes back whole with the same returned bit
(R48, R54). -/
def Obligations.StatefulBufferRoundTrip : Prop :=
  ∀ (code : StatefulCode) (w : HostWorld) (inp out dec : Nat) (p : Bool) (ds : List Byte),
    BytesAt w.mem inp ds → rangesOverlap inp ds.length out (2 * ds.length) = false →
    DecodeBuffersOk out (2 * ds.length) dec →
      ∃ w1 w2 q, encodeBuffer (.stateful code) inp ds.length out p w = .next (w1, some q) ∧
        decodeBuffer code out (2 * ds.length) dec p w1 = .next (w2, some q) ∧
        BytesAt w2.mem dec ds

/-- Every host procedure keeps host memory in its canonical form (the model's choice of form, log entry 10). -/
def Obligations.ProceduresKeepMemoryCanonical : Prop :=
  ∀ (w : HostWorld), w.mem.wf →
    (∀ code inp n out p w' x, encodeBuffer code inp n out p w = .next (w', x) → w'.mem.wf) ∧
    (∀ code inp n out p w' x, encodeBufferByNibbles code inp n out p w = .next (w', x) → w'.mem.wf) ∧
    (∀ code buf n w' x, encodeInPlace code buf n w = .next (w', x) → w'.mem.wf) ∧
    (∀ chk early inp len p w' x, checkBlock chk early inp len p w = .next (w', x) → w'.mem.wf) ∧
    (∀ early inp len out w' x, twoPhaseDecode early inp len out w = .next (w', x) → w'.mem.wf) ∧
    (∀ inp len out w' x, combinedDecode inp len out w = .next (w', x) → w'.mem.wf) ∧
    (∀ code inp len out p w' x, decodeBuffer code inp len out p w = .next (w', x) → w'.mem.wf)

/-- The host procedures refuse a run that breaks R55 (a), (d) or (e) (log entry 11). -/
def Obligations.ProceduresRefuseMisuse : Prop :=
  ∀ (w : HostWorld) (inp len out n : Nat) (p early : Bool) (chk : Checker) (code : LineCode) (st : StatefulCode),
    (len % 2 = 1 →
      checkBlock chk early inp len p w = .refused .oddSymbolBuffer ∧
      twoPhaseDecode early inp len out w = .refused .oddSymbolBuffer ∧
      combinedDecode inp len out w = .refused .oddSymbolBuffer ∧
      decodeBuffer st inp len out p w = .refused .oddSymbolBuffer) ∧
    (len % 2 = 0 → 65535 < len / 2 →
      checkBlock chk early inp len p w = .refused .blockTooLong ∧
      twoPhaseDecode early inp len out w = .refused .blockTooLong ∧
      combinedDecode inp len out w = .refused .blockTooLong) ∧
    (rangesOverlap inp n out (2 * n) = true →
      encodeBuffer code inp n out p w = .refused .bufferOverlap ∧
      encodeBufferByNibbles code inp n out p w = .refused .bufferOverlap) ∧
    (len % 2 = 0 → len / 2 ≤ 65535 → out ≠ inp → rangesOverlap inp len out (len / 2) = true →
      combinedDecode inp len out w = .refused .bufferOverlap ∧
      twoPhaseDecode early inp len out w = .refused .bufferOverlap ∧
      decodeBuffer st inp len out p w = .refused .bufferOverlap)

/-- Every rising edge keeps the responses still due in order and within the latency (R61). -/
def Obligations.EveryEdgeKeepsResponsesInOrder : Prop :=
  ∀ (i : PortIn) (p : PortState), PortOrdered p → PortOrdered (tick i p).1

/-- An edge performs exactly the command it accepts, as `step` does, and nothing where it accepts none (R61). -/
def Obligations.EdgePerformsTheAcceptedCommand : Prop :=
  ∀ (i : PortIn) (p : PortState),
    (accepts i = true →
      ∃ t r, step (commandState ⟨i.cmd, i.din⟩ p.arch) = .next t ∧ t.response = some r ∧
        (tick i p).1.arch = t.arch ∧
        (tick i p).1.inFlight = stillDue (ageAll p.inFlight) ++ [⟨Config.latency, r⟩]) ∧
    (accepts i = false → i.rst = false →
      (tick i p).1.arch = p.arch ∧ (tick i p).1.inFlight = stillDue (ageAll p.inFlight))

/-- The response of an accepted command appears exactly `LATENCY` edges later, if no reset comes in between (R61). That it is
computed at the acceptance edge and counted down edge by edge is the model's choice (log entry 7). -/
def Obligations.ResponseComesAfterTheLatency : Prop :=
  ∀ (p : PortState) (i : PortIn) (later : List PortIn) (a : Arch) (r : Response),
    PortOrdered p → accepts i = true → blockStep ⟨i.cmd, i.din⟩ p.arch = some (a, r) →
    later.length = Config.latency → (∀ j ∈ later, j.rst = false) →
      ∃ o, (ticks (i :: later) p).2[Config.latency]? = some o ∧ o.response = some r

/-- An edge with `rst = 1` (R170): the record is reset, nothing is accepted or delivered, nothing stays due. -/
def Obligations.ResetEdgeWins : Prop :=
  ∀ (i : PortIn) (p : PortState), i.rst = true →
    (tick i p).1.arch = ⟨false, false, false, false, 0x0000#16⟩ ∧ (tick i p).1.inFlight = [] ∧
    (tick i p).2.cmdReady = false ∧ (tick i p).2.rspValid = false ∧ accepts i = false ∧
    PortOrdered (tick i p).1

/-- R71: how every mnemonic, every CSR name, `.word` and every pseudo-instruction is read with and without an operand, what
each line stands for, and how a listing is put together. That a line with an operand it has no place for, a `.word` without
one, and CSRW RESULT are not read is the model's choice, and so is the separator (log entry 16). -/
def Obligations.AssemblerLinesExpand : Prop :=
  (∀ x ∈ codecLines, ReadsWithOperand (x.1 ++ " ") x.2 ∧ Reads x.1 [⟨x.2, 0⟩]) ∧
  (∀ x ∈ csrrLines, Reads ("CSRR " ++ x.1) [⟨x.2, 0⟩] ∧ TakesNoOperand ("CSRR " ++ x.1 ++ ", ")) ∧
  (∀ x ∈ csrwLines, ReadsWithOperand ("CSRW " ++ x.1 ++ ", ") x.2 ∧ Reads ("CSRW " ++ x.1) [⟨x.2, 0⟩]) ∧
  (codecMnemonics.map rowWord = codecLines ∧ readableNames.map rowWord = csrrLines ∧
    writableNames.map rowWord = csrwLines) ∧
  (TakesNoOperand "CSRW RESULT, " ∧ parseLine "CSRW RESULT" = none) ∧
  (Reads "NOP" [⟨0x00#8, 0⟩] ∧ TakesNoOperand "NOP ") ∧
  ((∀ cmd : CmdWord, Reads (".word " ++ hexText 2 cmd.toNat) [⟨cmd, 0⟩]) ∧ parseLine ".word" = none) ∧
  (ReadsWithOperand "SETPOL " 0xC0#8 ∧ Reads "SETPOL" [⟨0xC0#8, 0⟩]) ∧
  (ReadsWithOperand "SETPREV " 0xC1#8 ∧ Reads "SETPREV" [⟨0xC1#8, 0⟩]) ∧
  (Reads "GETPREV" [⟨0xB1#8, 0⟩] ∧ TakesNoOperand "GETPREV ") ∧
  (Reads "CLRST" [⟨0xC2#8, 0⟩] ∧ TakesNoOperand "CLRST ") ∧
  (Reads "CLRCNT" [⟨0xC3#8, 0⟩] ∧ TakesNoOperand "CLRCNT ") ∧
  (Reads "BEGIN" [⟨0xC2#8, 0⟩, ⟨0xC3#8, 0⟩] ∧ TakesNoOperand "BEGIN ") ∧
  (∀ lines : List String, assemble lines = (lines.mapM parseLine).map fun ls => ls.flatMap AsmLine.commands) ∧
  assemble ["MAN_ENC.N 0x000A", "CSRR RESULT", "CSRW PREV, 0x0001", ".word 0xD0", "BEGIN", "TRANS.B", "NOP"] =
    some [⟨0x14#8, 0x000A#16⟩, ⟨0xB4#8, 0⟩, ⟨0xC1#8, 0x0001#16⟩, ⟨0xD0#8, 0⟩, ⟨0xC2#8, 0⟩, ⟨0xC3#8, 0⟩,
      ⟨0xA8#8, 0⟩, ⟨0x00#8, 0⟩]
end

