-- ==== Sys2Proof/Laws/Assembler.lean ====
section
/-! SUPPORT. How a line of assembly falls into fields, and what a run of hex digits reads as. -/

namespace Sys2Proof.Machine

open Sys2Proof

/-- A character that parts two fields. -/
abbrev partsFields (c : Char) : Prop := c = ' ' ∨ c = ','

theorem addField_append (field : List Char) (xs ys : List String) :
    addField field (xs ++ ys) = addField field xs ++ ys := by
  unfold addField
  split <;> rfl

/-- A separator ends a field: what stands before it and after it is read on its own. -/
theorem fieldsFrom_append_separator (field before rest : List Char) (c : Char) (hc : partsFields c) :
    fieldsFrom field (before ++ c :: rest) = fieldsFrom field before ++ fieldsFrom [] rest := by
  induction before generalizing field with
  | nil =>
    have h : (c == ' ' || c == ',') = true := by simpa [partsFields] using hc
    simp only [List.nil_append, fieldsFrom, h, if_true]
    exact addField_append field [] _
  | cons d before ih =>
    simp only [List.cons_append, fieldsFrom]
    split
    · rw [ih, addField_append]
    · exact ih _

/-- A run of characters without a separator is one field. -/
theorem fieldsFrom_word (field word : List Char) (h : ∀ c ∈ word, ¬ partsFields c) :
    fieldsFrom field word = addField (word.reverse ++ field) [] := by
  induction word generalizing field with
  | nil => rfl
  | cons d word ih =>
    have hd : (d == ' ' || d == ',') = false := by simpa [partsFields] using h d (by simp)
    simp only [fieldsFrom, hd, Bool.false_eq_true, if_false]
    rw [ih _ fun c hc => h c (by simp [hc])]
    simp

/-- A line that ends in an operand: the fields before its last separator, and the operand. -/
theorem parseLine_with_last_field {start operand : String} {before : List Char} {c : Char}
    (hs : start.toList = before ++ [c]) (hc : partsFields c) (ho : ∀ d ∈ operand.toList, ¬ partsFields d)
    (hne : operand.toList ≠ []) :
    parseLine (start ++ operand) = parseFields (fieldsFrom [] before ++ [operand]) := by
  unfold parseLine
  rw [String.toList_append, hs, List.append_assoc, List.singleton_append,
    fieldsFrom_append_separator _ _ _ _ hc, fieldsFrom_word _ _ ho]
  simp [addField, hne]

/-- Each of the sixteen digits reads as its place, and parts no fields. -/
theorem hexDigit_of_place : ∀ k < 16, hexDigit (hexDigits.getD k '0') = some k ∧ ¬ partsFields (hexDigits.getD k '0') := by
  decide

/-- A run of digits given by their values reads as those values. -/
theorem mapM_hexDigit (ks : List Nat) (h : ∀ k ∈ ks, k < 16) :
    (ks.map fun k => hexDigits.getD k '0').mapM hexDigit = some ks := by
  induction ks with
  | nil => rfl
  | cons k ks ih =>
    rw [List.map_cons, List.mapM_cons, (hexDigit_of_place k (h k (by simp))).1, ih fun j hj => h j (by simp [hj])]
    rfl

/-- A number written with one or more digits reads as the number they write, where it fits. -/
theorem hexNumber_of_digits (bits k : Nat) (ks : List Nat) (h : ∀ j ∈ k :: ks, j < 16) :
    hexNumber bits ("0x" ++ String.ofList ((k :: ks).map fun j => hexDigits.getD j '0')) =
      fitsIn bits (hexValue (k :: ks)) := by
  have hx : "0x".toList = ['0', 'x'] := rfl
  unfold hexNumber
  rw [String.toList_append, hx, String.toList_ofList]
  have hm := mapM_hexDigit (k :: ks) h
  rw [List.map_cons] at hm ⊢
  simp only [List.cons_append, List.nil_append]
  rw [hm]
  rfl

end Sys2Proof.Machine
end

