-- ==== Sys2Proof/Laws/Operands.lean ====
section
/-! SUPPORT. What the operand and result forms say bit by bit, and that packing and reading are inverse. -/

namespace Sys2Proof.Machine

open Sys2Proof

@[simp] theorem unitsOf_bit : unitsOf .bit = 1 := rfl

@[simp] theorem unitsOf_nibble : unitsOf .nibble = 4 := rfl

@[simp] theorem unitsOf_byte : unitsOf .byte = 8 := rfl

@[simp] theorem length_dataBits (n : Nat) (x : Word) : (dataBits n x).length = n := by
  induction n with
  | zero => rfl
  | succ n ih => simp [dataBits, ih]

@[simp] theorem length_symbols (n : Nat) (x : Word) : (symbols n x).length = n := by
  induction n with
  | zero => rfl
  | succ n ih => simp [symbols, ih]

@[simp] theorem length_symbolBits (ss : List Symbol) : (symbolBits ss).length = 2 * ss.length := by
  induction ss with
  | nil => rfl
  | cons s rest ih => simp [symbolBits, ih]; omega

theorem symbolBits_append (ss ts : List Symbol) : symbolBits (ss ++ ts) = symbolBits ss ++ symbolBits ts := by
  induction ss with
  | nil => rfl
  | cons s rest ih => simp [symbolBits, ih]

theorem packBits_append_one (bits : List Bool) (b : Bool) :
    packBits (bits ++ [b]) = (packBits bits).shiftConcat b := by
  simp [packBits]

/-- Bit k of a packed word is the k-th bit from the end of the list, and 0 above the list. -/
theorem getLsbD_packBits (bits : List Bool) (k : Nat) :
    (packBits bits).getLsbD k = (decide (k < 16) && bits.reverse.getD k false) := by
  induction bits using List.reverseRecOn generalizing k with
  | nil => simp [packBits]
  | append_singleton bits b ih =>
    rw [packBits_append_one, BitVec.getLsbD_shiftConcat]
    cases k with
    | zero => simp
    | succ k =>
      rw [ih]
      by_cases h : k + 1 < 16
      · simp [h, show k < 16 by omega]
      · simp [h]

theorem getElem_packBits (bits : List Bool) (k : Nat) (h : k < 16) :
    (packBits bits)[k] = bits.reverse.getD k false := by
  rw [← BitVec.getLsbD_eq_getElem, getLsbD_packBits]
  simp [h]

/-- A packed word holds nothing above its list. -/
theorem getLsbD_packBits_above (bits : List Bool) (k : Nat) (h : bits.length ≤ k) :
    (packBits bits).getLsbD k = false := by
  rw [getLsbD_packBits, List.getD_eq_default _ _ (by simpa using h), Bool.and_false]

/-- The n bits read from a word, at a position below n. -/
theorem getD_reverse_dataBits (n k : Nat) (x : Word) (h : k < n) :
    (dataBits n x).reverse.getD k false = x.getLsbD k := by
  induction n with
  | zero => omega
  | succ n ih =>
    rw [dataBits, List.reverse_cons]
    by_cases hk : k < n
    · rw [List.getD_append _ _ _ _ (by simpa using hk), ih hk]
    · have : k = n := by omega
      subst this
      rw [List.getD_append_right _ _ _ _ (by simp)]
      simp

/-- Packing the n bits read from a word keeps its low n bits. -/
theorem getLsbD_packBits_dataBits (n k : Nat) (x : Word) (h : n ≤ 16) :
    (packBits (dataBits n x)).getLsbD k = (decide (k < n) && x.getLsbD k) := by
  by_cases hk : k < n
  · rw [getLsbD_packBits, getD_reverse_dataBits n k x hk]
    simp [hk, show k < 16 by omega]
  · rw [getLsbD_packBits_above _ _ (by simpa using hk)]
    simp [hk]

/-- Reading n bits of a word packed from n bits gives them back. -/
theorem dataBits_eq_of_getLsbD (n : Nat) (x : Word) (bits : List Bool) (hn : bits.length = n)
    (h : ∀ k < n, x.getLsbD k = bits.reverse.getD k false) : dataBits n x = bits := by
  induction n generalizing bits with
  | zero => simpa [dataBits] using (List.length_eq_zero_iff.mp hn).symm
  | succ n ih =>
    match bits, hn with
    | b :: rest, hn =>
      have hr : rest.length = n := by simpa using hn
      have hb := h n (by omega)
      have ht : dataBits n x = rest := ih rest hr fun k hk => by
        have := h k (by omega)
        rwa [List.reverse_cons, List.getD_append _ _ _ _ (by simpa [hr] using hk)] at this
      rw [dataBits, ht, hb]
      simp [hr]

theorem dataBits_packBits (bits : List Bool) (h : bits.length ≤ 16) :
    dataBits bits.length (packBits bits) = bits :=
  dataBits_eq_of_getLsbD _ _ _ rfl fun k hk => by
    rw [getLsbD_packBits]; simp [show k < 16 by omega]

/-- The symbols of a word are its bits taken two by two. -/
theorem symbolBits_symbols (n : Nat) (x : Word) : symbolBits (symbols n x) = dataBits (2 * n) x := by
  induction n with
  | zero => rfl
  | succ n ih => rw [symbols, symbolBits, ih, show 2 * (n + 1) = 2 * n + 1 + 1 by omega, dataBits, dataBits]

theorem symbolBits_injective : ∀ ss ts : List Symbol, symbolBits ss = symbolBits ts → ss = ts
  | [], [], _ => rfl
  | [], _ :: _, h => by simp [symbolBits] at h
  | _ :: _, [], h => by simp [symbolBits] at h
  | ⟨a, b⟩ :: ss, ⟨c, d⟩ :: ts, h => by
    simp only [symbolBits, List.cons.injEq] at h
    obtain ⟨rfl, rfl, h⟩ := h
    rw [symbolBits_injective ss ts h]

/-- Reading n symbols of a word packed from n symbols gives them back. -/
theorem symbols_packSymbols (ss : List Symbol) (h : ss.length ≤ 8) :
    symbols ss.length (packSymbols ss) = ss := by
  apply symbolBits_injective
  rw [symbolBits_symbols, packSymbols, ← length_symbolBits]
  exact dataBits_packBits _ (by simp; omega)

/-- Bits read from a word depend on its low bits only. -/
theorem dataBits_congr (n : Nat) (x y : Word) (h : ∀ k < n, x.getLsbD k = y.getLsbD k) :
    dataBits n x = dataBits n y := by
  induction n with
  | zero => rfl
  | succ n ih => rw [dataBits, dataBits, h n (by omega), ih fun k hk => h k (by omega)]

theorem symbols_congr (n : Nat) (x y : Word) (h : ∀ k < 2 * n, x.getLsbD k = y.getLsbD k) :
    symbols n x = symbols n y :=
  symbolBits_injective _ _ (by rw [symbolBits_symbols, symbolBits_symbols, dataBits_congr _ x y h])

@[simp] theorem getLsbD_zextBit_zero (b : Bool) : (zextBit b).getLsbD 0 = b := by
  rw [zextBit, getLsbD_packBits]; rfl

/-- The level after a run is that of the run's last symbol. -/
theorem lineEnd_append (p : Bool) (ss ts : List Symbol) :
    lineEnd p (ss ++ ts) = lineEnd (lineEnd p ss) ts := by
  induction ss generalizing p with
  | nil => rfl
  | cons s rest ih => simp [lineEnd, ih]

/-- The level after n + 1 symbols of a word is the word's bit 0. -/
theorem lineEnd_symbols (p : Bool) (n : Nat) (x : Word) : lineEnd p (symbols (n + 1) x) = x.getLsbD 0 := by
  induction n generalizing p with
  | zero => rfl
  | succ n ih => rw [symbols, lineEnd, ih]

end Sys2Proof.Machine
end

