-- ==== Sys2Proof/Laws/Codecs.lean ====
section
/-! SUPPORT. What the codes do to runs of bits and symbols of any length, before they are packed into words. -/

namespace Sys2Proof.Machine

open Sys2Proof

@[simp] theorem length_dmSymbols (p : Bool) (bits : List Bool) : (dmSymbols p bits).length = bits.length := by
  induction bits generalizing p with
  | nil => rfl
  | cons d rest ih => simp [dmSymbols, ih]

@[simp] theorem length_bmcSymbols (p : Bool) (bits : List Bool) : (bmcSymbols p bits).length = bits.length := by
  induction bits generalizing p with
  | nil => rfl
  | cons d rest ih => simp [bmcSymbols, ih]

@[simp] theorem length_dmBits (p : Bool) (ss : List Symbol) : (dmBits p ss).length = ss.length := by
  induction ss generalizing p with
  | nil => rfl
  | cons s rest ih => simp [dmBits, ih]

@[simp] theorem length_transitions (p : Bool) (vs : List Bool) : (transitions p vs).length = vs.length := by
  induction vs generalizing p with
  | nil => rfl
  | cons v rest ih => simp [transitions, ih]

theorem manPlainBit_msym (pol b : Bool) : manPlainBit pol (msym pol b) = b := by
  cases pol <;> cases b <;> rfl

theorem manDecodeBit_of_ok (pol : Bool) (s : Symbol) (h : manSymbolOk s = true) :
    manDecodeBit pol s = manPlainBit pol s := by
  simp [manDecodeBit, manPlainBit, h]

@[simp] theorem manSymbolOk_msym (pol b : Bool) : manSymbolOk (msym pol b) = true := by
  cases pol <;> cases b <;> rfl

theorem dmBits_dmSymbols (p : Bool) (bits : List Bool) : dmBits p (dmSymbols p bits) = bits := by
  induction bits generalizing p with
  | nil => rfl
  | cons d rest ih => cases p <;> cases d <;> simp [dmSymbols, dmBits, ih]

theorem dmSymbols_append (p : Bool) (bs cs : List Bool) :
    dmSymbols p (bs ++ cs) = dmSymbols p bs ++ dmSymbols (lineEnd p (dmSymbols p bs)) cs := by
  induction bs generalizing p with
  | nil => rfl
  | cons d rest ih => simp [dmSymbols, lineEnd, ih]

theorem bmcBit_bmcSymbols (p : Bool) (bits : List Bool) : (bmcSymbols p bits).map bmcBit = bits := by
  induction bits generalizing p with
  | nil => rfl
  | cons d rest ih => cases p <;> cases d <;> simp [bmcSymbols, bmcBit, ih]

theorem bmcSymbols_append (p : Bool) (bs cs : List Bool) :
    bmcSymbols p (bs ++ cs) = bmcSymbols p bs ++ bmcSymbols (lineEnd p (bmcSymbols p bs)) cs := by
  induction bs generalizing p with
  | nil => rfl
  | cons d rest ih => simp [bmcSymbols, lineEnd, ih]

theorem bmcValid_bmcSymbols (p : Bool) (bits : List Bool) : bmcValid p (bmcSymbols p bits) = true := by
  induction bits generalizing p with
  | nil => rfl
  | cons d rest ih => simp [bmcSymbols, bmcValid, ih]

theorem bmcValid_append (p : Bool) (ss ts : List Symbol) :
    bmcValid p (ss ++ ts) = (bmcValid p ss && bmcValid (lineEnd p ss) ts) := by
  induction ss generalizing p with
  | nil => simp [bmcValid, lineEnd]
  | cons s rest ih => simp [bmcValid, lineEnd, ih, Bool.and_assoc]

end Sys2Proof.Machine
end

