-- ==== Sys2Proof/Laws/Decode.lean ====
section
/-! SUPPORT. Decoding of a command given by its parts, and what the two widths-checking decoders can answer. -/

namespace Sys2Proof

theorem decode_mk (cmd : CmdWord) (din : Word) : decode ⟨cmd, din⟩ = decodeWord cmd din := rfl

/-- What a format-C decode of any width answers. -/
theorem decodeAnyWidth_ok {cmd : CmdWord} {make : Width → Instr} {i : Instr} (h : decodeAnyWidth cmd make = .ok i) :
    zField cmd = 0b00#2 ∧ ∃ w, widthOf (wField cmd) = some w ∧ i = make w := by
  unfold decodeAnyWidth at h
  split at h
  · cases h
  · next hz =>
    split at h
    · next w hw => cases h; exact ⟨by simpa using hz, w, hw, rfl⟩
    · cases h

/-- What a byte-only decode answers. -/
theorem decodeByteOnly_ok {cmd : CmdWord} {j i : Instr} (h : decodeByteOnly cmd j = .ok i) :
    zField cmd = 0b00#2 ∧ widthOf (wField cmd) = some .byte ∧ i = j := by
  unfold decodeByteOnly at h
  split at h
  · cases h
  · next hz =>
    split at h
    · next hw => cases h; exact ⟨by simpa using hz, hw, rfl⟩
    · cases h
    · cases h

end Sys2Proof
end

