-- ==== Sys2Proof/Laws/Flags.lean ====
section
/-! SUPPORT. What the status update does, once for each outcome of a check. -/

namespace Sys2Proof.Machine

open Sys2Proof

@[simp] theorem account_malformed (a : Arch) : account false a = { a with err := true } := rfl

theorem account_frozen (a : Arch) (h : a.err = true) : account true a = a := by
  simp [account, h]

theorem account_counts (a : Arch) (h : a.err = false) : account true a = { a with cnt := countUp a.cnt } := by
  simp [account, h]

@[simp] theorem account_pol (v : Bool) (a : Arch) : (account v a).pol = a.pol := by
  unfold account; split <;> [rfl; (split <;> rfl)]

@[simp] theorem account_prev (v : Bool) (a : Arch) : (account v a).prev = a.prev := by
  unfold account; split <;> [rfl; (split <;> rfl)]

@[simp] theorem account_ill (v : Bool) (a : Arch) : (account v a).ill = a.ill := by
  unfold account; split <;> [rfl; (split <;> rfl)]

theorem account_err (v : Bool) (a : Arch) : (account v a).err = (a.err || !v) := by
  cases v <;> cases h : a.err <;> simp [account, h]

theorem countUp_full : countUp 0xFFFF#16 = 0xFFFF#16 := rfl

theorem countUp_toNat (c : Word) : (countUp c).toNat = min (c.toNat + 1) 0xFFFF := by
  have hc := c.isLt
  unfold countUp
  split
  · next h => simp_all
  · next h =>
    have : c.toNat ≠ 0xFFFF := fun e => h (by simp [BitVec.toNat_eq, e])
    rw [BitVec.toNat_add]
    simp only [BitVec.toNat_ofNat]
    omega

@[simp] theorem codeOfCheck_true : codeOfCheck true = .ok := rfl

@[simp] theorem codeOfCheck_false : codeOfCheck false = .malformed := rfl

end Sys2Proof.Machine
end

