-- ==== Sys2Proof/Laws/HostMemory.lean ====
section
/-! SUPPORT. Host memory: a read after a write, and that a write keeps the canonical form. -/

namespace Sys2Proof.Machine

open Sys2Proof

theorem read_write_same (m : Memory) (addr : Nat) (v : Byte) : (m.write addr v).read addr = some v := by
  induction m with
  | nil => simp [Memory.write, Memory.read]
  | cons c rest ih =>
    unfold Memory.write
    split
    · simp [Memory.read]
    · split
      · simp [Memory.read]
      · next h1 h2 => simp_all [Memory.read]

theorem read_write_other (m : Memory) (addr b : Nat) (v : Byte) (h : b ≠ addr) :
    (m.write addr v).read b = m.read b := by
  induction m with
  | nil => simp [Memory.write, Memory.read, h.symm]
  | cons c rest ih =>
    unfold Memory.write
    split
    · simp [Memory.read, h.symm]
    · split
      · next h1 h2 =>
        have : c.1 = addr := by simpa using h2
        simp [Memory.read, h.symm, this]
      · simp [Memory.read, ih]

/-- Every address a write leaves in memory was there before or is the one written. -/
theorem mem_write {m : Memory} {addr : Nat} {v : Byte} {c : Host.Cell} (h : c ∈ m.write addr v) :
    c ∈ m ∨ c = (addr, v) := by
  induction m with
  | nil => simpa [Memory.write] using h
  | cons d rest ih =>
    unfold Memory.write at h
    split at h
    · rcases List.mem_cons.mp h with h | h
      · exact .inr h
      · exact .inl h
    · split at h
      · rcases List.mem_cons.mp h with h | h
        · exact .inr h
        · exact .inl (List.mem_cons_of_mem _ h)
      · rcases List.mem_cons.mp h with h | h
        · exact .inl (h ▸ List.mem_cons_self)
        · exact (ih h).imp_left (List.mem_cons_of_mem _)

/-- A write keeps the canonical form. -/
theorem write_wf {m : Memory} (addr : Nat) (v : Byte) (h : m.wf) : (m.write addr v).wf := by
  induction m with
  | nil => simp [Memory.write]
  | cons c rest ih =>
    obtain ⟨hc, hr⟩ := List.pairwise_cons.mp h
    unfold Memory.write
    split
    · next lt =>
      refine List.pairwise_cons.mpr ⟨fun d hd => ?_, h⟩
      rcases List.mem_cons.mp hd with rfl | hd
      · exact lt
      · exact lt.trans (hc d hd)
    · split
      · next h1 h2 =>
        have e : c.1 = addr := by simpa using h2
        exact List.pairwise_cons.mpr ⟨fun d hd => e ▸ hc d hd, hr⟩
      · next h1 h2 =>
        refine List.pairwise_cons.mpr ⟨fun d hd => ?_, ih hr⟩
        rcases mem_write hd with hd | rfl
        · exact hc d hd
        · have : c.1 ≠ addr := by simpa using h2
          simp only
          omega

theorem wf_nil : Memory.wf [] := List.Pairwise.nil

end Sys2Proof.Machine
end

