-- ==== Sys2Proof/Laws/Ops.lean ====
section
/-! SUPPORT. What finishing a command can do, and that every instruction and every accepted command is a finish. -/

namespace Sys2Proof.Machine

open Sys2Proof

theorem finish_eq (s : State) (r : Arch × Response) :
    finish s r = .next { s with arch := r.1, response := some r.2 } := rfl

/-- A finish answers a next state in which only the record and the response may differ. -/
theorem finish_next {s t : State} {r : Arch × Response} (h : finish s r = .next t) :
    t.arch = r.1 ∧ t.response = some r.2 ∧ t.input = s.input ∧ t.powerUps = s.powerUps := by
  cases h; exact ⟨rfl, rfl, rfl, rfl⟩

/-- Every instruction finishes with some record and some response. -/
theorem exec_is_finish (i : Instr) (s : State) : ∃ r, exec i s = finish s r := by
  cases i <;> exact ⟨_, rfl⟩

/-- What a step does, by the event at the head of the input. -/
theorem step_cases (s : State) :
    (s.input = [] ∧ step s = .next (idle s)) ∨
    (∃ c rest, s.input = .command c :: rest ∧ step s = accept c { s with input := rest }) ∨
    (∃ rest, s.input = .reset :: rest ∧ step s = .next (applyReset { s with input := rest })) ∨
    (∃ rest, s.input = .powerUp :: rest ∧ step s = .next (applyPowerUp { s with input := rest })) := by
  unfold step
  split
  · next h => exact .inl ⟨h, rfl⟩
  · next c rest h => exact .inr (.inl ⟨c, rest, h, rfl⟩)
  · next rest h => exact .inr (.inr (.inl ⟨rest, h, rfl⟩))
  · next rest h => exact .inr (.inr (.inr ⟨rest, h, rfl⟩))

/-- What accepting a command does: the instruction it decodes to, or the illegal-command effect. -/
theorem accept_cases (c : Command) (s : State) :
    (∃ i, decode c = .ok i ∧ accept c s = exec i s) ∨
    (∃ e, decode c = .error e ∧ accept c s = raiseIllegal s) := by
  unfold accept
  cases h : decode c with
  | ok i => exact .inl ⟨i, rfl, rfl⟩
  | error e => exact .inr ⟨e, rfl, rfl⟩

/-- Every accepted command finishes. -/
theorem accept_is_finish (c : Command) (s : State) : ∃ r, accept c s = finish s r := by
  obtain ⟨i, -, h⟩ | ⟨e, -, h⟩ := accept_cases c s
  · rw [h]; exact exec_is_finish i s
  · rw [h]; exact ⟨_, rfl⟩

end Sys2Proof.Machine
end

