-- ==== Sys2Proof/Laws/HostProcedures.lean ====
section
/-! SUPPORT. What a host action can do: the rules of sequencing, and that issuing a command moves no memory. -/

namespace Sys2Proof.Machine

open Sys2Proof

@[simp] theorem andThen_done {α β : Type} (w : HostWorld) (x : α) (f : HostWorld → α → HostOutcome β) :
    andThen (done w x) f = f w x := rfl

@[simp] theorem andThen_next {α β : Type} (w : HostWorld) (x : α) (f : HostWorld → α → HostOutcome β) :
    andThen (.next (w, x)) f = f w x := rfl

/-- A sequence that answers a next world did so in both of its parts. -/
theorem andThen_eq_next {α β : Type} {o : HostOutcome α} {f : HostWorld → α → HostOutcome β}
    {r : HostWorld × β} (h : andThen o f = .next r) : ∃ w x, o = .next (w, x) ∧ f w x = .next r := by
  cases o with
  | next p => exact ⟨p.1, p.2, rfl, h⟩
  | fault e => cases h
  | refused e => cases h

theorem andThen_assoc {α β γ : Type} (o : HostOutcome α) (f : HostWorld → α → HostOutcome β)
    (g : HostWorld → β → HostOutcome γ) :
    andThen (andThen o f) g = andThen o fun w x => andThen (f w x) g := by
  cases o <;> rfl

/-- Issuing any command answers its response, in the world whose block has performed it. -/
theorem issueRaw_of_finish (c : Command) (w : HostWorld) (r : Arch × Response)
    (h : accept c w.block = finish w.block r) :
    issueRaw c w = .next ({ w with block := { w.block with arch := r.1, response := some r.2 } }, r.2) := by
  have hs : step (w.block.offer c) = finish w.block r := by rw [← h]; rfl
  unfold issueRaw
  rw [hs]
  rfl

/-- Issuing a command moves no host memory and never stops. -/
theorem issueRaw_next (c : Command) (w : HostWorld) :
    ∃ a r, issueRaw c w =
      .next ({ w with block := { w.block with arch := a, response := some r } }, r) := by
  obtain ⟨r, h⟩ := accept_is_finish c w.block
  exact ⟨r.1, r.2, issueRaw_of_finish c w r h⟩

@[simp] theorem memWrite_eq (addr : Nat) (v : Byte) (w : HostWorld) :
    memWrite addr v w = .next ({ w with mem := w.mem.write addr v }, ()) := rfl

theorem memRead_of_some {addr : Nat} {w : HostWorld} {b : Byte} (h : w.mem.read addr = some b) :
    memRead addr w = .next (w, b) := by
  simp [memRead, h, done]

end Sys2Proof.Machine
end

