-- ==== Sys2Proof/Laws/PerInstr.lean ====
section
/-! SUPPORT. The family `OpcodeRow`, said of each instruction: its fields pass the checks of R67 and R68, and its encoding
is its row's word of the opcode table (R66) beside its operand. -/

namespace Sys2Proof.Laws.OpcodeRow

open Sys2Proof

/-- The `match` column of the opcode table, row by row (R66). -/
def rowWord : Instr → CmdWord
  | .nop _ => 0x00#8
  | .manEnc1 _ => 0x10#8
  | .manEncN _ => 0x14#8
  | .manEncB _ => 0x18#8
  | .manDec1 _ => 0x20#8
  | .manDecN _ => 0x24#8
  | .manDecB _ => 0x28#8
  | .manChk1 _ => 0x30#8
  | .manChkN _ => 0x34#8
  | .manChkB _ => 0x38#8
  | .manDeccB _ => 0x48#8
  | .dmEnc1 _ => 0x50#8
  | .dmEncN _ => 0x54#8
  | .dmEncB _ => 0x58#8
  | .dmDec1 _ => 0x60#8
  | .dmDecN _ => 0x64#8
  | .dmDecB _ => 0x68#8
  | .bmcEnc1 _ => 0x70#8
  | .bmcEncN _ => 0x74#8
  | .bmcEncB _ => 0x78#8
  | .bmcDec1 _ => 0x80#8
  | .bmcDecN _ => 0x84#8
  | .bmcDecB _ => 0x88#8
  | .bmcChk1 _ => 0x90#8
  | .bmcChkN _ => 0x94#8
  | .bmcChkB _ => 0x98#8
  | .transB _ => 0xA8#8
  | .csrrCtrl _ => 0xB0#8
  | .csrrPrev _ => 0xB1#8
  | .csrrStatus _ => 0xB2#8
  | .csrrCount _ => 0xB3#8
  | .csrrResult _ => 0xB4#8
  | .csrwCtrl _ => 0xC0#8
  | .csrwPrev _ => 0xC1#8
  | .csrwStatus _ => 0xC2#8
  | .csrwCount _ => 0xC3#8

/-- The instruction is well formed, and encodes to its row's word with its own operand. -/
def Statement (i : Instr) : Prop := i.wellFormed = true ∧ encode i = ⟨rowWord i, i.din⟩

theorem nop (din : Word) : Statement (.nop din) := ⟨rfl, rfl⟩
theorem manEnc1 (din : Word) : Statement (.manEnc1 din) := ⟨rfl, rfl⟩
theorem manEncN (din : Word) : Statement (.manEncN din) := ⟨rfl, rfl⟩
theorem manEncB (din : Word) : Statement (.manEncB din) := ⟨rfl, rfl⟩
theorem manDec1 (din : Word) : Statement (.manDec1 din) := ⟨rfl, rfl⟩
theorem manDecN (din : Word) : Statement (.manDecN din) := ⟨rfl, rfl⟩
theorem manDecB (din : Word) : Statement (.manDecB din) := ⟨rfl, rfl⟩
theorem manChk1 (din : Word) : Statement (.manChk1 din) := ⟨rfl, rfl⟩
theorem manChkN (din : Word) : Statement (.manChkN din) := ⟨rfl, rfl⟩
theorem manChkB (din : Word) : Statement (.manChkB din) := ⟨rfl, rfl⟩
theorem manDeccB (din : Word) : Statement (.manDeccB din) := ⟨rfl, rfl⟩
theorem dmEnc1 (din : Word) : Statement (.dmEnc1 din) := ⟨rfl, rfl⟩
theorem dmEncN (din : Word) : Statement (.dmEncN din) := ⟨rfl, rfl⟩
theorem dmEncB (din : Word) : Statement (.dmEncB din) := ⟨rfl, rfl⟩
theorem dmDec1 (din : Word) : Statement (.dmDec1 din) := ⟨rfl, rfl⟩
theorem dmDecN (din : Word) : Statement (.dmDecN din) := ⟨rfl, rfl⟩
theorem dmDecB (din : Word) : Statement (.dmDecB din) := ⟨rfl, rfl⟩
theorem bmcEnc1 (din : Word) : Statement (.bmcEnc1 din) := ⟨rfl, rfl⟩
theorem bmcEncN (din : Word) : Statement (.bmcEncN din) := ⟨rfl, rfl⟩
theorem bmcEncB (din : Word) : Statement (.bmcEncB din) := ⟨rfl, rfl⟩
theorem bmcDec1 (din : Word) : Statement (.bmcDec1 din) := ⟨rfl, rfl⟩
theorem bmcDecN (din : Word) : Statement (.bmcDecN din) := ⟨rfl, rfl⟩
theorem bmcDecB (din : Word) : Statement (.bmcDecB din) := ⟨rfl, rfl⟩
theorem bmcChk1 (din : Word) : Statement (.bmcChk1 din) := ⟨rfl, rfl⟩
theorem bmcChkN (din : Word) : Statement (.bmcChkN din) := ⟨rfl, rfl⟩
theorem bmcChkB (din : Word) : Statement (.bmcChkB din) := ⟨rfl, rfl⟩
theorem transB (din : Word) : Statement (.transB din) := ⟨rfl, rfl⟩
theorem csrrCtrl (din : Word) : Statement (.csrrCtrl din) := ⟨rfl, rfl⟩
theorem csrrPrev (din : Word) : Statement (.csrrPrev din) := ⟨rfl, rfl⟩
theorem csrrStatus (din : Word) : Statement (.csrrStatus din) := ⟨rfl, rfl⟩
theorem csrrCount (din : Word) : Statement (.csrrCount din) := ⟨rfl, rfl⟩
theorem csrrResult (din : Word) : Statement (.csrrResult din) := ⟨rfl, rfl⟩
theorem csrwCtrl (din : Word) : Statement (.csrwCtrl din) := ⟨rfl, rfl⟩
theorem csrwPrev (din : Word) : Statement (.csrwPrev din) := ⟨rfl, rfl⟩
theorem csrwStatus (din : Word) : Statement (.csrwStatus din) := ⟨rfl, rfl⟩
theorem csrwCount (din : Word) : Statement (.csrwCount din) := ⟨rfl, rfl⟩

end Sys2Proof.Laws.OpcodeRow
end

