-- ==== Sys2Proof/Laws/Port.lean ====
section
/-! SUPPORT. What one clock edge does to the list of responses still due. -/

namespace Sys2Proof.Machine

open Sys2Proof

@[simp] theorem ageAll_nil : ageAll [] = [] := rfl

@[simp] theorem ageAll_cons (f : InFlight) (l : List InFlight) :
    ageAll (f :: l) = { f with due := f.due - 1 } :: ageAll l := rfl

@[simp] theorem ageAll_append (l k : List InFlight) : ageAll (l ++ k) = ageAll l ++ ageAll k := by
  simp [ageAll]

/-- A command on the block's record always gives a new record and a response. -/
theorem blockStep_isSome (c : Command) (a : Arch) : ∃ r, blockStep c a = some r := by
  obtain ⟨r, h⟩ := accept_is_finish c { commandState c a with input := [] }
  refine ⟨r, ?_⟩
  have hs : step (commandState c a) = finish { commandState c a with input := [] } r := by rw [← h]; rfl
  unfold blockStep
  rw [hs]
  rfl

/-- The responses still due and the one that falls due are the aged list. -/
theorem stillDue_of_positive (f : InFlight) (l : List InFlight) (h : f.due ≠ 0) :
    stillDue (f :: l) = f :: l ∧ fallsDue (f :: l) = none := by
  simp [stillDue, fallsDue, h]

end Sys2Proof.Machine
end

