-- ==== Sys2Proof/Laws/State.lean ====
section
/-! SUPPORT. One lemma per field per update of the records, so that no proof unfolds an update. -/

namespace Sys2Proof.Machine

open Sys2Proof

@[simp] theorem writeCtrl_pol (v : Word) (a : Arch) : (writeCtrl v a).pol = v.getLsbD 0 := rfl
@[simp] theorem writeCtrl_prev (v : Word) (a : Arch) : (writeCtrl v a).prev = a.prev := rfl
@[simp] theorem writeCtrl_err (v : Word) (a : Arch) : (writeCtrl v a).err = a.err := rfl
@[simp] theorem writeCtrl_ill (v : Word) (a : Arch) : (writeCtrl v a).ill = a.ill := rfl
@[simp] theorem writeCtrl_cnt (v : Word) (a : Arch) : (writeCtrl v a).cnt = a.cnt := rfl

@[simp] theorem writePrev_pol (v : Word) (a : Arch) : (writePrev v a).pol = a.pol := rfl
@[simp] theorem writePrev_prev (v : Word) (a : Arch) : (writePrev v a).prev = v.getLsbD 0 := rfl
@[simp] theorem writePrev_err (v : Word) (a : Arch) : (writePrev v a).err = a.err := rfl
@[simp] theorem writePrev_ill (v : Word) (a : Arch) : (writePrev v a).ill = a.ill := rfl
@[simp] theorem writePrev_cnt (v : Word) (a : Arch) : (writePrev v a).cnt = a.cnt := rfl

@[simp] theorem writeStatus_pol (v : Word) (a : Arch) : (writeStatus v a).pol = a.pol := rfl
@[simp] theorem writeStatus_prev (v : Word) (a : Arch) : (writeStatus v a).prev = a.prev := rfl
@[simp] theorem writeStatus_err (v : Word) (a : Arch) : (writeStatus v a).err = v.getLsbD 0 := rfl
@[simp] theorem writeStatus_ill (v : Word) (a : Arch) : (writeStatus v a).ill = v.getLsbD 1 := rfl
@[simp] theorem writeStatus_cnt (v : Word) (a : Arch) : (writeStatus v a).cnt = a.cnt := rfl

@[simp] theorem writeCount_pol (v : Word) (a : Arch) : (writeCount v a).pol = a.pol := rfl
@[simp] theorem writeCount_prev (v : Word) (a : Arch) : (writeCount v a).prev = a.prev := rfl
@[simp] theorem writeCount_err (v : Word) (a : Arch) : (writeCount v a).err = a.err := rfl
@[simp] theorem writeCount_ill (v : Word) (a : Arch) : (writeCount v a).ill = a.ill := rfl
@[simp] theorem writeCount_cnt (v : Word) (a : Arch) : (writeCount v a).cnt = v := rfl

@[simp] theorem advancePrev_pol (ss : List Symbol) (a : Arch) : (advancePrev ss a).pol = a.pol := rfl
@[simp] theorem advancePrev_prev (ss : List Symbol) (a : Arch) : (advancePrev ss a).prev = lineEnd a.prev ss := rfl
@[simp] theorem advancePrev_err (ss : List Symbol) (a : Arch) : (advancePrev ss a).err = a.err := rfl
@[simp] theorem advancePrev_ill (ss : List Symbol) (a : Arch) : (advancePrev ss a).ill = a.ill := rfl
@[simp] theorem advancePrev_cnt (ss : List Symbol) (a : Arch) : (advancePrev ss a).cnt = a.cnt := rfl

@[simp] theorem illegalEffect_pol (a : Arch) : (illegalEffect a).1.pol = a.pol := rfl
@[simp] theorem illegalEffect_prev (a : Arch) : (illegalEffect a).1.prev = a.prev := rfl
@[simp] theorem illegalEffect_err (a : Arch) : (illegalEffect a).1.err = a.err := rfl
@[simp] theorem illegalEffect_ill (a : Arch) : (illegalEffect a).1.ill = true := rfl
@[simp] theorem illegalEffect_cnt (a : Arch) : (illegalEffect a).1.cnt = a.cnt := rfl
@[simp] theorem illegalEffect_response (a : Arch) : (illegalEffect a).2 = ⟨.illegal, 0x0000#16⟩ := rfl

@[simp] theorem archReset_pol : Arch.reset.pol = false := rfl
@[simp] theorem archReset_prev : Arch.reset.prev = false := rfl
@[simp] theorem archReset_err : Arch.reset.err = false := rfl
@[simp] theorem archReset_ill : Arch.reset.ill = false := rfl
@[simp] theorem archReset_cnt : Arch.reset.cnt = 0x0000#16 := rfl

@[simp] theorem applyReset_arch (s : State) : (applyReset s).arch = Arch.reset := rfl
@[simp] theorem applyReset_input (s : State) : (applyReset s).input = s.input := rfl
@[simp] theorem applyReset_response (s : State) : (applyReset s).response = none := rfl
@[simp] theorem applyReset_powerUps (s : State) : (applyReset s).powerUps = s.powerUps := rfl

@[simp] theorem applyPowerUp_arch (s : State) : (applyPowerUp s).arch = powerUpArch s.powerUps := rfl
@[simp] theorem applyPowerUp_input (s : State) : (applyPowerUp s).input = s.input := rfl
@[simp] theorem applyPowerUp_response (s : State) : (applyPowerUp s).response = none := rfl
@[simp] theorem applyPowerUp_powerUps (s : State) : (applyPowerUp s).powerUps = s.powerUps + 1 := rfl

@[simp] theorem idle_arch (s : State) : (idle s).arch = s.arch := rfl
@[simp] theorem idle_input (s : State) : (idle s).input = s.input := rfl
@[simp] theorem idle_response (s : State) : (idle s).response = none := rfl
@[simp] theorem idle_powerUps (s : State) : (idle s).powerUps = s.powerUps := rfl

@[simp] theorem offer_arch (c : Command) (s : State) : (s.offer c).arch = s.arch := rfl
@[simp] theorem offer_input (c : Command) (s : State) : (s.offer c).input = .command c :: s.input := rfl
@[simp] theorem offer_response (c : Command) (s : State) : (s.offer c).response = s.response := rfl
@[simp] theorem offer_powerUps (c : Command) (s : State) : (s.offer c).powerUps = s.powerUps := rfl

@[simp] theorem withFetchWord_arch (s : State) (nbits w : Nat) :
    (s.withFetchWord nbits w).arch = s.arch := rfl
@[simp] theorem withFetchWord_input (s : State) (nbits w : Nat) :
    (s.withFetchWord nbits w).input = .command (commandOfNat nbits w) :: s.input := rfl
@[simp] theorem withFetchWord_response (s : State) (nbits w : Nat) :
    (s.withFetchWord nbits w).response = s.response := rfl
@[simp] theorem withFetchWord_powerUps (s : State) (nbits w : Nat) :
    (s.withFetchWord nbits w).powerUps = s.powerUps := rfl

/-- What the reset record reads as: every register is 0. -/
theorem csrRead_reset (k : Csr) : csrRead k Arch.reset = 0x0000#16 := by cases k <;> decide

end Sys2Proof.Machine
end

