-- ==== Sys2Proof/Tests/Slice0.lean ====
section
/-! SUPPORT. Tests of the model, each a named theorem about one step or one small value. The expected results are the spec's: its
worked examples (95_test_vectors.md E1 to E10), its vectors (V1 to V12) and the examples in the command rules. Last come the
witnesses: for each statement with hypotheses, a concrete case that meets them all. -/

namespace Sys2Proof.Tests

open Sys2Proof Sys2Proof.Machine Sys2Proof.Certificates

/-- A record from its fields, in the order the spec's vectors print them. -/
def rec5 (pol prev err ill : Bool) (cnt : Word) : Arch := ⟨pol, prev, err, ill, cnt⟩

/-- One command on a record, through the whole step: what it leaves and what it answers. -/
def one (a : Arch) (cmd : CmdWord) (din : Word) : Option (Arch × Response) := blockStep ⟨cmd, din⟩ a

/-- The reset record with PREV = 1. -/
def prevOne : Arch := rec5 false true false false 0x0000#16

/-- The reset record with POL = 1. -/
def polOne : Arch := rec5 true false false false 0x0000#16

/-- The record of V11 and V12. -/
def busy : Arch := rec5 true true true true 0x1234#16

/-! ## Decoding: one word a constructor, written out from the fields of R65 -/

theorem test_decode_nop (din : Word) :
    decodeWord 0b00000000#8 din = .ok (.nop din) :=
  rfl

theorem test_decode_man_enc (din : Word) :
    decodeWord 0b00010000#8 din = .ok (.manEnc1 din) ∧
    decodeWord 0b00010100#8 din = .ok (.manEncN din) ∧
    decodeWord 0b00011000#8 din = .ok (.manEncB din) :=
  ⟨rfl, rfl, rfl⟩

theorem test_decode_man_dec (din : Word) :
    decodeWord 0b00100000#8 din = .ok (.manDec1 din) ∧
    decodeWord 0b00100100#8 din = .ok (.manDecN din) ∧
    decodeWord 0b00101000#8 din = .ok (.manDecB din) :=
  ⟨rfl, rfl, rfl⟩

theorem test_decode_man_chk (din : Word) :
    decodeWord 0b00110000#8 din = .ok (.manChk1 din) ∧
    decodeWord 0b00110100#8 din = .ok (.manChkN din) ∧
    decodeWord 0b00111000#8 din = .ok (.manChkB din) :=
  ⟨rfl, rfl, rfl⟩

theorem test_decode_man_decc (din : Word) :
    decodeWord 0b01001000#8 din = .ok (.manDeccB din) :=
  rfl

theorem test_decode_dm_enc (din : Word) :
    decodeWord 0b01010000#8 din = .ok (.dmEnc1 din) ∧
    decodeWord 0b01010100#8 din = .ok (.dmEncN din) ∧
    decodeWord 0b01011000#8 din = .ok (.dmEncB din) :=
  ⟨rfl, rfl, rfl⟩

theorem test_decode_dm_dec (din : Word) :
    decodeWord 0b01100000#8 din = .ok (.dmDec1 din) ∧
    decodeWord 0b01100100#8 din = .ok (.dmDecN din) ∧
    decodeWord 0b01101000#8 din = .ok (.dmDecB din) :=
  ⟨rfl, rfl, rfl⟩

theorem test_decode_bmc_enc (din : Word) :
    decodeWord 0b01110000#8 din = .ok (.bmcEnc1 din) ∧
    decodeWord 0b01110100#8 din = .ok (.bmcEncN din) ∧
    decodeWord 0b01111000#8 din = .ok (.bmcEncB din) :=
  ⟨rfl, rfl, rfl⟩

theorem test_decode_bmc_dec (din : Word) :
    decodeWord 0b10000000#8 din = .ok (.bmcDec1 din) ∧
    decodeWord 0b10000100#8 din = .ok (.bmcDecN din) ∧
    decodeWord 0b10001000#8 din = .ok (.bmcDecB din) :=
  ⟨rfl, rfl, rfl⟩

theorem test_decode_bmc_chk (din : Word) :
    decodeWord 0b10010000#8 din = .ok (.bmcChk1 din) ∧
    decodeWord 0b10010100#8 din = .ok (.bmcChkN din) ∧
    decodeWord 0b10011000#8 din = .ok (.bmcChkB din) :=
  ⟨rfl, rfl, rfl⟩

theorem test_decode_trans (din : Word) :
    decodeWord 0b10101000#8 din = .ok (.transB din) :=
  rfl

theorem test_decode_csrr (din : Word) :
    decodeWord 0b10110000#8 din = .ok (.csrrCtrl din) ∧
    decodeWord 0b10110001#8 din = .ok (.csrrPrev din) ∧
    decodeWord 0b10110010#8 din = .ok (.csrrStatus din) ∧
    decodeWord 0b10110011#8 din = .ok (.csrrCount din) ∧
    decodeWord 0b10110100#8 din = .ok (.csrrResult din) :=
  ⟨rfl, rfl, rfl, rfl, rfl⟩

theorem test_decode_csrw (din : Word) :
    decodeWord 0b11000000#8 din = .ok (.csrwCtrl din) ∧
    decodeWord 0b11000001#8 din = .ok (.csrwPrev din) ∧
    decodeWord 0b11000010#8 din = .ok (.csrwStatus din) ∧
    decodeWord 0b11000011#8 din = .ok (.csrwCount din) :=
  ⟨rfl, rfl, rfl, rfl⟩

theorem test_decode_refuses_each_clause :
    decode ⟨0xD0#8, 0⟩ = .error .reservedOperation ∧ decode ⟨0x1C#8, 0⟩ = .error .reservedWidth ∧
    decode ⟨0x11#8, 0⟩ = .error .reservedBitsSet ∧ decode ⟨0x44#8, 0⟩ = .error .byteWidthOnly ∧
    decode ⟨0x01#8, 0⟩ = .error .nopNumber ∧ decode ⟨0xB5#8, 0⟩ = .error .csrNotReadable ∧
    decode ⟨0xC4#8, 0⟩ = .error .csrNotWritable := ⟨rfl, rfl, rfl, rfl, rfl, rfl, rfl⟩

theorem test_table_word_carries_the_operand : decodeTableWord 24 0x00A518 = some (.manEncB 0x00A5#16) := by decide

theorem test_table_word_above_nbits_is_zero : decodeTableWord 8 0x00A518 = some (.manEncB 0x0000#16) := by decide

/-! ## Well-formedness: an ill-formed term for each check -/

theorem test_wf_operation : (Fields.c 0xD#4 0b00#2 0b00#2).wellFormed = false := by decide

theorem test_wf_format_c : (Fields.c 0xB#4 0b00#2 0b00#2).wellFormed = false := by decide

theorem test_wf_format_r : (Fields.r 0x1#4 0x0#4).wellFormed = false := by decide

theorem test_wf_width : (Fields.c 0x1#4 0b11#2 0b00#2).wellFormed = false := by decide

theorem test_wf_z : (Fields.c 0x1#4 0b00#2 0b01#2).wellFormed = false := by decide

theorem test_wf_byte_only : (Fields.c 0xA#4 0b01#2 0b00#2).wellFormed = false := by decide

theorem test_wf_nop_number : (Fields.r 0x0#4 0x1#4).wellFormed = false := by decide

theorem test_wf_csrr_number : (Fields.r 0xB#4 0x5#4).wellFormed = false := by decide

theorem test_wf_csrw_number : (Fields.r 0xC#4 0x4#4).wellFormed = false := by decide

/-! ## Each command on one step -/

/-- V11. -/
theorem test_nop_ignores_din : one busy 0x00#8 0x1234#16 = some (busy, ⟨.ok, 0x0000#16⟩) := by decide

/-- V1. -/
theorem test_manEnc1_upper_bits : one Arch.reset 0x10#8 0xFFFE#16 = some (Arch.reset, ⟨.ok, 0x0002#16⟩) := by decide

/-- E5. -/
theorem test_manEnc1_inverted : one polOne 0x10#8 0x0001#16 = some (polOne, ⟨.ok, 0x0002#16⟩) := by decide

/-- E1. -/
theorem test_manEncN_scenario : one Arch.reset 0x14#8 0x000A#16 = some (Arch.reset, ⟨.ok, 0x0066#16⟩) := by decide

/-- V1. -/
theorem test_manEncN_inverted : one polOne 0x14#8 0x000A#16 = some (polOne, ⟨.ok, 0x0099#16⟩) := by decide

/-- V1. -/
theorem test_manEncB : one Arch.reset 0x18#8 0xFFA5#16 = some (Arch.reset, ⟨.ok, 0x6699#16⟩) := by decide

/-- V1. -/
theorem test_manEncB_inverted : one polOne 0x18#8 0x00A5#16 = some (polOne, ⟨.ok, 0x9966#16⟩) := by decide

/-- V2. -/
theorem test_manDec1 : one Arch.reset 0x20#8 0x0001#16 = some (Arch.reset, ⟨.ok, 0x0001#16⟩) := by decide

/-- V2. -/
theorem test_manDec1_inverted : one polOne 0x20#8 0x0001#16 = some (polOne, ⟨.ok, 0x0000#16⟩) := by decide

/-- E1, V2. -/
theorem test_manDecN_scenario : one Arch.reset 0x24#8 0xFF66#16 = some (Arch.reset, ⟨.ok, 0x000A#16⟩) := by decide

/-- V2. -/
theorem test_manDecB : one Arch.reset 0x28#8 0x6695#16 = some (Arch.reset, ⟨.ok, 0x00A7#16⟩) := by decide

/-- V2. -/
theorem test_manDecB_inverted : one polOne 0x28#8 0x9966#16 = some (polOne, ⟨.ok, 0x00A5#16⟩) := by decide

/-- V4. -/
theorem test_manChk1 : one Arch.reset 0x30#8 0x0003#16 = some (rec5 false false true false 0x0000#16, ⟨.malformed, 0x0000#16⟩) := by decide

/-- V4. -/
theorem test_manChkN : one Arch.reset 0x34#8 0xFF66#16 = some (rec5 false false false false 0x0001#16, ⟨.ok, 0x0000#16⟩) := by decide

/-- V4. -/
theorem test_manChkB : one Arch.reset 0x38#8 0xAA54#16 = some (rec5 false false true false 0x0000#16, ⟨.malformed, 0x0000#16⟩) := by decide

/-- V4. -/
theorem test_manChkB_dm : one Arch.reset 0x38#8 0x5A5A#16 = some (rec5 false false false false 0x0001#16, ⟨.ok, 0x0000#16⟩) := by decide

/-- V3. -/
theorem test_manDeccB_frozen : one (rec5 false false true false 0x0003#16) 0x48#8 0x6699#16 = some (rec5 false false true false 0x0003#16, ⟨.ok, 0x00A5#16⟩) := by decide

/-- V3. -/
theorem test_manDeccB_saturates : one (rec5 false false false false 0xFFFF#16) 0x48#8 0x6699#16 = some (rec5 false false false false 0xFFFF#16, ⟨.ok, 0x00A5#16⟩) := by decide

/-- V5. -/
theorem test_dmEnc1 : one Arch.reset 0x50#8 0x0001#16 = some (prevOne, ⟨.ok, 0x0001#16⟩) := by decide

/-- V5. -/
theorem test_dmEnc1_prev : one prevOne 0x50#8 0x0001#16 = some (Arch.reset, ⟨.ok, 0x0002#16⟩) := by decide

/-- V5. -/
theorem test_dmEncN : one prevOne 0x54#8 0x0003#16 = some (prevOne, ⟨.ok, 0x0059#16⟩) := by decide

/-- E3. -/
theorem test_dmEncB_ones : one Arch.reset 0x58#8 0x00FF#16 = some (Arch.reset, ⟨.ok, 0x6666#16⟩) := by decide

/-- V5. -/
theorem test_dmEncB : one prevOne 0x58#8 0x00A5#16 = some (prevOne, ⟨.ok, 0xA569#16⟩) := by decide

/-- E6. -/
theorem test_dmDec1_equal_bits : one Arch.reset 0x60#8 0x0003#16 = some (prevOne, ⟨.ok, 0x0000#16⟩) := by decide

/-- E6. -/
theorem test_dmDec1 : one prevOne 0x60#8 0x0002#16 = some (Arch.reset, ⟨.ok, 0x0001#16⟩) := by decide

/-- V6. -/
theorem test_dmDecN : one Arch.reset 0x64#8 0x0059#16 = some (prevOne, ⟨.ok, 0x000B#16⟩) := by decide

/-- V6. -/
theorem test_dmDecB : one Arch.reset 0x68#8 0x3333#16 = some (prevOne, ⟨.ok, 0x0080#16⟩) := by decide

/-- V6. -/
theorem test_dmDecB_prev : one prevOne 0x68#8 0xA569#16 = some (prevOne, ⟨.ok, 0x00A5#16⟩) := by decide

/-- V7. -/
theorem test_bmcEnc1 : one Arch.reset 0x70#8 0x0000#16 = some (prevOne, ⟨.ok, 0x0003#16⟩) := by decide

/-- V7. -/
theorem test_bmcEncN : one Arch.reset 0x74#8 0x0005#16 = some (Arch.reset, ⟨.ok, 0x00D2#16⟩) := by decide

/-- E4. -/
theorem test_bmcEncB_zeros : one Arch.reset 0x78#8 0x0000#16 = some (Arch.reset, ⟨.ok, 0xCCCC#16⟩) := by decide

/-- V7. -/
theorem test_bmcEncB : one prevOne 0x78#8 0x003C#16 = some (prevOne, ⟨.ok, 0x3553#16⟩) := by decide

/-- E7. -/
theorem test_bmcDec1 : one Arch.reset 0x80#8 0x0001#16 = some (prevOne, ⟨.ok, 0x0001#16⟩) := by decide

/-- V8. -/
theorem test_bmcDecN : one prevOne 0x84#8 0x00D2#16 = some (Arch.reset, ⟨.ok, 0x0005#16⟩) := by decide

/-- V8. -/
theorem test_bmcDecB : one Arch.reset 0x88#8 0x3553#16 = some (prevOne, ⟨.ok, 0x003C#16⟩) := by decide

/-- E7. -/
theorem test_bmcChk1 : one Arch.reset 0x90#8 0x0000#16 = some (rec5 false false true false 0x0000#16, ⟨.malformed, 0x0000#16⟩) := by decide

/-- E7. -/
theorem test_bmcChk1_prev : one prevOne 0x90#8 0x0001#16 = some (rec5 false true false false 0x0001#16, ⟨.ok, 0x0000#16⟩) := by decide

/-- V9. -/
theorem test_bmcChkN : one Arch.reset 0x94#8 0x00D2#16 = some (rec5 false false false false 0x0001#16, ⟨.ok, 0x0000#16⟩) := by decide

/-- V9. -/
theorem test_bmcChkB_last_bit : one Arch.reset 0x98#8 0xB4D3#16 = some (rec5 false true false false 0x0001#16, ⟨.ok, 0x0000#16⟩) := by decide

/-- V9. -/
theorem test_bmcChkB_fails : one prevOne 0x98#8 0xCCCC#16 = some (rec5 false false true false 0x0000#16, ⟨.malformed, 0x0000#16⟩) := by decide

/-- E8. -/
theorem test_transB : one Arch.reset 0xA8#8 0x00F0#16 = some (Arch.reset, ⟨.ok, 0x0088#16⟩) := by decide

/-- V10. -/
theorem test_transB_prev : one prevOne 0xA8#8 0x0066#16 = some (prevOne, ⟨.ok, 0x00D5#16⟩) := by decide

/-- V11. -/
theorem test_csrrCtrl : one busy 0xB0#8 0xFFFF#16 = some (busy, ⟨.ok, 0x0001#16⟩) := by decide

/-- V11. -/
theorem test_csrrPrev : one busy 0xB1#8 0x0000#16 = some (busy, ⟨.ok, 0x0001#16⟩) := by decide

/-- V11. -/
theorem test_csrrStatus : one busy 0xB2#8 0x0000#16 = some (busy, ⟨.ok, 0x0003#16⟩) := by decide

/-- V11. -/
theorem test_csrrCount : one busy 0xB3#8 0x0000#16 = some (busy, ⟨.ok, 0x1234#16⟩) := by decide

/-- V11. -/
theorem test_csrrResult_failed : one busy 0xB4#8 0x0000#16 = some (busy, ⟨.ok, 0x1234#16⟩) := by decide

/-- V11. -/
theorem test_csrrResult_ok : one (rec5 true true false true 0x1234#16) 0xB4#8 0x0000#16 = some (rec5 true true false true 0x1234#16, ⟨.ok, 0x0000#16⟩) := by decide

/-- V11. -/
theorem test_csrwCtrl : one Arch.reset 0xC0#8 0xFFFF#16 = some (polOne, ⟨.ok, 0x0000#16⟩) := by decide

/-- V11. -/
theorem test_csrwPrev : one Arch.reset 0xC1#8 0x0003#16 = some (prevOne, ⟨.ok, 0x0000#16⟩) := by decide

/-- V11. -/
theorem test_csrwStatus : one Arch.reset 0xC2#8 0x0002#16 = some (rec5 false false false true 0x0000#16, ⟨.ok, 0x0000#16⟩) := by decide

/-- V11. -/
theorem test_csrwStatus_reserved : one busy 0xC2#8 0xFFFC#16 = some (rec5 true true false false 0x1234#16, ⟨.ok, 0x0000#16⟩) := by decide

/-- V11. -/
theorem test_csrwCount : one Arch.reset 0xC3#8 0xBEEF#16 = some (rec5 false false false false 0xBEEF#16, ⟨.ok, 0x0000#16⟩) := by decide

/-- V12. -/
theorem test_illegal_word : one Arch.reset 0x1C#8 0x00A5#16 = some (rec5 false false false true 0x0000#16, ⟨.illegal, 0x0000#16⟩) := by decide

/-- V12. -/
theorem test_illegal_keeps_the_rest : one busy 0xC4#8 0xFFFF#16 = some (busy, ⟨.illegal, 0x0000#16⟩) := by decide

/-- V2: a malformed symbol gives the free value; the other bits decode. -/
theorem test_manDecN_malformed :
    one Arch.reset 0x24#8 0x0067#16 =
      some (Arch.reset, ⟨.malformed, packBits [true, false, true, Config.manDecInvalid true true false]⟩) := rfl

/-- E10. -/
theorem test_lut_byte : lutEncode .byte false 0x00A5#16 = 0x6699#16 := by decide

/-- P6, its first codeword: encoded into memory, then decoded from it. -/
theorem test_one_byte_through_memory :
    andThen (encodeBuffer .man 0x100 1 0x200 false ⟨State.reset, [(0x100, 0xA5#8)]⟩) (fun w _ =>
      andThen (combinedDecode 0x200 2 0x300 w) fun w r => done { w with block := State.reset } r) =
    done ⟨State.reset, [(0x100, 0xA5#8), (0x200, 0x66#8), (0x201, 0x99#8), (0x300, 0xA5#8)]⟩ (0x0000#16, false) := by
  rfl

/-- The host's first instruction after reset is the one it offers. -/
theorem test_first_instruction : step (State.reset.withFetchWord 8 0xB2) = exec (.csrrStatus 0) State.reset := rfl

/-! ## Witnesses: a case that meets every hypothesis of a statement -/

/-- A state with one event offered. -/
def offered (e : HostEvent) (a : Arch) : State := { arch := a, input := [e], response := none, powerUps := 0 }

/-- IllegalWordOnlySetsIll, ResponseCodesAsListed and the first clause of IllIsSticky, at the ends of each of R67's ranges. -/
theorem test_witness_illegal_words :
    ∀ cmd ∈ [0xD0#8, 0xFF#8, 0x1C#8, 0xAC#8, 0x11#8, 0xAB#8, 0x40#8, 0x44#8, 0xA0#8, 0x01#8, 0x0F#8, 0xB5#8, 0xBF#8,
      0xC4#8, 0xCF#8], (offered (.command ⟨cmd, 0⟩) busy).input = [.command ⟨cmd, 0⟩] ∧ IllegalByR67 cmd ∧
      ∃ t, step (offered (.command ⟨cmd, 0⟩) busy) = .next t := by
  intro cmd h
  simp only [List.mem_cons, List.not_mem_nil, or_false] at h
  refine ⟨rfl, ?_, ?_⟩
  · unfold IllegalByR67
    rcases h with h | h | h | h | h | h | h | h | h | h | h | h | h | h | h <;> subst h <;> decide
  · rcases h with h | h | h | h | h | h | h | h | h | h | h | h | h | h | h <;> subst h <;> exact ⟨_, rfl⟩

/-- EncodeOfDecodeIsTheCommand and StepRunsTheDecodedInstruction. -/
theorem test_witness_decoded :
    (offered (.command ⟨0x48#8, 0x6699#16⟩) busy).input = .command ⟨0x48#8, 0x6699#16⟩ :: [] ∧
      decode ⟨0x48#8, 0x6699#16⟩ = .ok (.manDeccB 0x6699#16) ∧ (Instr.manDeccB 0x6699#16).wellFormed = true :=
  ⟨rfl, rfl, rfl⟩

/-- StepOnResetPowerUpAndNothing: an input for each clause. -/
theorem test_witness_other_events :
    (offered .reset busy).input = .reset :: [] ∧ (offered .powerUp busy).input = .powerUp :: [] ∧ State.reset.input = [] :=
  ⟨rfl, rfl, rfl⟩

/-- StepKeepsTheResponseConforming. -/
theorem test_witness_conforms :
    Safety.Conforms (offered (.command ⟨0xD0#8, 0⟩) busy) ∧
      ∃ t, step (offered (.command ⟨0xD0#8, 0⟩) busy) = .next t := by
  refine ⟨fun r h => ?_, _, rfl⟩
  cases h

/-- ErrIsStickyAndFreezesCnt, with CSRW STATUS writing 1 (the boundary of what may clear ERR). -/
theorem test_witness_err_sticky :
    (offered (.command ⟨0xC2#8, 0x0001#16⟩) busy).input = .command ⟨0xC2#8, 0x0001#16⟩ :: [] ∧
      mayClearErr (.command ⟨0xC2#8, 0x0001#16⟩) = false ∧ busy.err = true ∧
      (∃ t, step (offered (.command ⟨0xC2#8, 0x0001#16⟩) busy) = .next t) ∧
      ∀ din, HostEvent.command ⟨0xC2#8, 0x0001#16⟩ ≠ .command ⟨0xC3#8, din⟩ :=
  ⟨rfl, rfl, rfl, ⟨_, rfl⟩, fun _ h => by simp at h⟩

/-- IllIsSticky, its second, third and fourth clauses. -/
theorem test_witness_ill_sticky :
    (mayClearIll (.command ⟨0xC2#8, 0x0002#16⟩) = false ∧ busy.ill = true ∧
      ∃ t, step (offered (.command ⟨0xC2#8, 0x0002#16⟩) busy) = .next t) ∧
    ((0x0001#16).getLsbD 1 = false ∧ ∃ t, step (offered (.command ⟨0xC2#8, 0x0001#16⟩) busy) = .next t) ∧
    ∃ t, step (offered .reset busy) = .next t :=
  ⟨⟨rfl, rfl, _, rfl⟩, ⟨rfl, _, rfl⟩, _, rfl⟩

/-- InstructionsWriteOnlyTheirFields: NOP meets the premise of every clause. -/
theorem test_witness_frame :
    (∃ t, exec (.nop 0) (offered .reset busy) = .next t) ∧ (∀ din, Instr.nop 0 ≠ .csrwCtrl din) ∧
      Safety.writesPrev (.nop 0) = false ∧ Safety.accounts (.nop 0) = false ∧
      (∀ din, Instr.nop 0 ≠ .csrwStatus din) ∧ ∀ din, Instr.nop 0 ≠ .csrwCount din :=
  ⟨⟨_, rfl⟩, nofun, rfl, rfl, nofun, nofun⟩

/-- ManchesterDependsOnPolarityOnly: two records that differ in everything but POL, and two that differ in everything
but ERR and CNT. -/
theorem test_witness_polarity_only :
    polOne.pol = busy.pol ∧ (∃ t, exec (.manDec1 3) (offered .reset polOne) = .next t) ∧
      (∃ t, exec (.manDec1 3) (offered .reset busy) = .next t) ∧
      (rec5 false false true false 0x1234#16).err = busy.err ∧ (rec5 false false true false 0x1234#16).cnt = busy.cnt ∧
      (∃ t, exec (.manDeccB 3) (offered .reset busy) = .next t) ∧
      ∃ t, exec (.manDeccB 3) (offered .reset (rec5 false false true false 0x1234#16)) = .next t :=
  ⟨rfl, ⟨_, rfl⟩, ⟨_, rfl⟩, rfl, rfl, ⟨_, rfl⟩, _, rfl⟩

/-- OperandBitsAboveAreIgnored, at each of its widths: two operands that differ just above. -/
theorem test_witness_upper_bits :
    ∀ n ∈ [0, 1, 2, 4, 8], ∀ k < n, (0x0000#16).getLsbD k = (BitVec.twoPow 16 n).getLsbD k := by decide

/-- ReservedRegisterBits: two values that differ on reserved bits only. -/
theorem test_witness_reserved_bits :
    (0x0003#16).getLsbD 0 = (0xFFFF#16).getLsbD 0 ∧ (0x0003#16).getLsbD 1 = (0xFFFF#16).getLsbD 1 := by decide

/-- PolarityComplements and ManChkChecksEachSymbol, their clauses about well-formed words, at each width. -/
theorem test_witness_well_formed_word :
    ∀ n ∈ [1, 4, 8], ManOk n 0x6699#16 ∧ firstBit 0x6699#16 (n - 1) ≠ secondBit 0x6699#16 (n - 1) := by decide

/-- The clause on the words of an operation, in every statement that has it: its lowest and highest word. -/
theorem test_witness_op_words :
    ∀ op < 13, (BitVec.ofNat 8 (16 * op)).toNat / 16 = op ∧ (BitVec.ofNat 8 (16 * op + 15)).toNat / 16 = op := by decide

/-- NopDoesNothing, its clause on instructions without effect and result. -/
theorem test_witness_no_effect : ∀ s, exec (.nop 0xFFFF#16) s = answers s s.arch .ok 0x0000#16 := fun _ => rfl

/-- A host world whose memory holds the codewords 0x6699 and 0xAA54, the second malformed, and two data bytes. -/
def worldM : HostWorld :=
  ⟨State.reset, [(0x10, 0x66#8), (0x11, 0x99#8), (0x12, 0xAA#8), (0x13, 0x54#8), (0x20, 0xA5#8), (0x21, 0x0F#8)]⟩

theorem codewords_of_worldM : CodewordsAt worldM.mem 0x10 [0x6699#16, 0xAA54#16] := by
  intro k h
  have hk : k = 0 ∨ k = 1 := by simp at h; omega
  rcases hk with rfl | rfl <;> simp [worldM, Memory.read]

theorem bytes_of_worldM : BytesAt worldM.mem 0x20 [0xA5#8, 0x0F#8] := by
  intro k h
  have hk : k = 0 ∨ k = 1 := by simp at h; omega
  rcases hk with rfl | rfl <;> simp [worldM, Memory.read]

/-- ManCheckBlockFindsTheFirstFailure, BmcCheckBlockThreadsTheLevel, CombinedDecodeStopsAtTheFirstFailure and both branches of
TwoPhaseDecodeIsAllOrNothing (the second word is malformed; the first alone is a valid block). -/
theorem test_witness_block :
    CodewordsAt worldM.mem 0x10 [0x6699#16, 0xAA54#16] ∧ DecodeBuffersOk 0x10 4 0x10 ∧ DecodeBuffersOk 0x10 4 0x40 ∧
      ManOk 8 0x6699#16 ∧ ¬ ManOk 8 0xAA54#16 ∧ CodewordsAt worldM.mem 0x10 [0x6699#16] := by
  refine ⟨codewords_of_worldM, .inl rfl, .inr (by decide), by decide, by decide, ?_⟩
  intro k h
  have hk : k = 0 := by simp at h; omega
  subst hk
  simp [worldM, Memory.read]

/-- BmcCheckBlockThreadsTheLevel: one block with and one without a failure from level 0. -/
theorem test_witness_bmc_block : BmcBlockOk false [0xCCCC#16, 0xB4D2#16] ∧ ¬ BmcBlockOk true [0xCCCC#16] := by
  constructor
  · exact ⟨by decide, by decide, trivial⟩
  · intro h; exact absurd h.1 (by decide)

/-- EncodeThenCombinedDecodeIsTheInput, NibbleEncodeOfABufferIsTheSame, StatefulBufferRoundTrip and EncodeInPlaceLosesNoInput; the
output buffer begins right after the input's last byte. -/
theorem test_witness_buffers :
    BytesAt worldM.mem 0x20 [0xA5#8, 0x0F#8] ∧ rangesOverlap 0x20 2 0x22 4 = false ∧ DecodeBuffersOk 0x22 4 0x22 ∧
      DecodeBuffersOk 0x22 4 0x20 :=
  ⟨bytes_of_worldM, by decide, .inl rfl, .inr (by decide)⟩

/-- ProceduresKeepMemoryCanonical, with a procedure that answers. -/
theorem test_witness_canonical :
    worldM.mem.wf ∧ ∃ r, encodeBuffer .man 0x20 1 0x30 false worldM = .next r := ⟨by decide, _, rfl⟩

/-- ProceduresRefuseMisuse: each clause at the edge of its range. -/
theorem test_witness_misuse :
    3 % 2 = 1 ∧ (131072 % 2 = 0 ∧ 65535 < 131072 / 2) ∧ rangesOverlap 0x20 2 0x21 4 = true ∧
      (131070 % 2 = 0 ∧ 131070 / 2 ≤ 65535 ∧ 0x0F ≠ 0x10 ∧ rangesOverlap 0x10 131070 0x0F (131070 / 2) = true) := by decide

/-- An edge at which a host offers NOP and the block takes it. -/
def takesNop : PortIn := ⟨false, true, true, 0x00#8, 0x0000#16⟩

/-- EveryEdgeKeepsResponsesInOrder, EdgePerformsTheAcceptedCommand and ResponseComesAfterTheLatency. -/
theorem test_witness_port :
    PortOrdered PortState.reset ∧ accepts takesNop = true ∧
      blockStep ⟨takesNop.cmd, takesNop.din⟩ PortState.reset.arch = some (Arch.reset, ⟨.ok, 0x0000#16⟩) ∧
      (List.replicate Config.latency takesNop).length = Config.latency ∧
      ∀ j ∈ List.replicate Config.latency takesNop, j.rst = false := by
  refine ⟨⟨List.Pairwise.nil, fun f h => by cases h⟩, rfl, by decide, by simp, fun j h => ?_⟩
  rw [List.eq_of_mem_replicate h]
  rfl

/-- EdgePerformsTheAcceptedCommand where nothing is accepted, and ResetEdgeWins with a command offered at the same edge. -/
theorem test_witness_port_others :
    (accepts ⟨false, false, true, 0x00#8, 0⟩ = false ∧ (⟨false, false, true, 0x00#8, 0⟩ : PortIn).rst = false) ∧
      (⟨true, true, true, 0x00#8, 0⟩ : PortIn).rst = true := ⟨⟨rfl, rfl⟩, rfl⟩

/-- ResetConforms rests on the reset state having no response. -/
theorem test_reset_has_no_response : State.reset.response = none := rfl

end Sys2Proof.Tests
end

section
/-! PROOFS. Every host procedure keeps the canonical form of host memory. A host action is built from commands and reads,
which move no byte, from single-byte writes, and from guards, by sequencing and loops; each of these keeps the form, and
each procedure's proof follows the way the procedure is put together. -/

namespace Sys2Proof.Proofs

open Sys2Proof Sys2Proof.Machine

/-- A host action that leaves canonical memory canonical whenever it answers. -/
def KeepsCanonical {α : Type} (act : HostWorld → HostOutcome α) : Prop :=
  ∀ ⦃w w' : HostWorld⦄ ⦃x : α⦄, w.mem.wf → act w = .next (w', x) → w'.mem.wf

section Rules

variable {α β : Type}

/-- An action that moves no memory keeps the form. -/
theorem keepsCanonical_of_mem_eq {act : HostWorld → HostOutcome α}
    (h : ∀ w w' x, act w = .next (w', x) → w'.mem = w.mem) : KeepsCanonical act :=
  fun w w' x hw hr => h w w' x hr ▸ hw

theorem keepsCanonical_done (x : α) : KeepsCanonical fun w => done w x :=
  keepsCanonical_of_mem_eq fun _ _ _ h => by cases h; rfl

theorem keepsCanonical_refused (r : Refusal) :
    KeepsCanonical fun _ => (.refused r : HostOutcome α) :=
  fun _ _ _ _ h => by cases h

theorem keepsCanonical_andThen {act : HostWorld → HostOutcome α} {f : HostWorld → α → HostOutcome β}
    (hact : KeepsCanonical act) (hf : ∀ x, KeepsCanonical fun w => f w x) :
    KeepsCanonical fun w => andThen (act w) f := by
  intro w w' y hw h
  obtain ⟨v, x, hv, hr⟩ := andThen_eq_next h
  exact hf x (hact hw hv) hr

theorem keepsCanonical_ite (c : Prop) [Decidable c] {f g : HostWorld → HostOutcome α}
    (hf : KeepsCanonical f) (hg : KeepsCanonical g) : KeepsCanonical fun w => if c then f w else g w := by
  by_cases h : c
  · simpa only [if_pos h] using hf
  · simpa only [if_neg h] using hg

theorem keepsCanonical_issue (i : Instr) : KeepsCanonical (issue i) := by
  refine keepsCanonical_of_mem_eq fun w w' x h => ?_
  obtain ⟨a, r, hnext⟩ := issueRaw_next (encode i) w
  cases hnext.symm.trans h
  rfl

theorem keepsCanonical_memRead (addr : Nat) : KeepsCanonical (memRead addr) := by
  refine keepsCanonical_of_mem_eq fun w w' x h => ?_
  unfold memRead at h
  split at h
  · cases h; rfl
  · cases h

theorem keepsCanonical_memWrite (addr : Nat) (v : Byte) : KeepsCanonical (memWrite addr v) := by
  intro w w' x hw h
  cases h
  exact write_wf addr v hw

theorem keepsCanonical_forUp {f : Nat → HostWorld → HostOutcome Unit} (hf : ∀ k, KeepsCanonical (f k))
    (n k : Nat) : KeepsCanonical (forUp f n k) := by
  induction n generalizing k with
  | zero => exact keepsCanonical_done ()
  | succ n ih => exact keepsCanonical_andThen (hf k) fun _ => ih (k + 1)

theorem keepsCanonical_forDown {f : Nat → HostWorld → HostOutcome Unit} (hf : ∀ k, KeepsCanonical (f k))
    (n : Nat) : KeepsCanonical (forDown f n) := by
  induction n with
  | zero => exact keepsCanonical_done ()
  | succ n ih => exact keepsCanonical_andThen (hf n) fun _ => ih

end Rules

/-! The parts the procedures share: codewords, guards, and what opens and closes a stream or a block. -/

theorem keepsCanonical_readCodeword (buf k : Nat) : KeepsCanonical (readCodeword buf k) :=
  keepsCanonical_andThen (keepsCanonical_memRead _) fun _ =>
    keepsCanonical_andThen (keepsCanonical_memRead _) fun _ => keepsCanonical_done _

theorem keepsCanonical_writeCodeword (buf k : Nat) (cw : Word) : KeepsCanonical (writeCodeword buf k cw) :=
  keepsCanonical_andThen (keepsCanonical_memWrite _ _) fun _ => keepsCanonical_memWrite _ _

theorem keepsCanonical_distinctBuffers (inp li out lo : Nat) : KeepsCanonical (distinctBuffers inp li out lo) :=
  keepsCanonical_ite _ (keepsCanonical_refused _) (keepsCanonical_done ())

theorem keepsCanonical_wholeCodewords (len : Nat) : KeepsCanonical (wholeCodewords len) :=
  keepsCanonical_ite _ (keepsCanonical_done ()) (keepsCanonical_refused _)

theorem keepsCanonical_blockFits (m : Nat) : KeepsCanonical (blockFits m) :=
  keepsCanonical_ite _ (keepsCanonical_done ()) (keepsCanonical_refused _)

theorem keepsCanonical_decodeBuffers (inp len out : Nat) : KeepsCanonical (decodeBuffers inp len out) :=
  keepsCanonical_ite _ (keepsCanonical_done ()) (keepsCanonical_distinctBuffers _ _ _ _)

theorem keepsCanonical_blockToDecode (inp len out : Nat) : KeepsCanonical (blockToDecode inp len out) :=
  keepsCanonical_andThen (keepsCanonical_wholeCodewords len) fun _ =>
    keepsCanonical_andThen (keepsCanonical_blockFits _) fun _ => keepsCanonical_decodeBuffers inp len out

theorem keepsCanonical_beginBlock : KeepsCanonical beginBlock :=
  keepsCanonical_andThen (keepsCanonical_issue _) fun _ =>
    keepsCanonical_andThen (keepsCanonical_issue _) fun _ => keepsCanonical_done ()

theorem keepsCanonical_openStream (code : LineCode) (p : Bool) : KeepsCanonical (openStream code p) := by
  cases code with
  | man => exact keepsCanonical_done ()
  | stateful _ => exact keepsCanonical_andThen (keepsCanonical_issue _) fun _ => keepsCanonical_done ()

theorem keepsCanonical_closeStream (code : LineCode) : KeepsCanonical (closeStream code) := by
  cases code with
  | man => exact keepsCanonical_done none
  | stateful _ =>
    unfold closeStream
    exact keepsCanonical_andThen (keepsCanonical_issue _) fun _ => keepsCanonical_done _

theorem keepsCanonical_openCheck (chk : Checker) (p : Bool) : KeepsCanonical (openCheck chk p) := by
  cases chk with
  | man => exact keepsCanonical_done ()
  | bmc => exact keepsCanonical_andThen (keepsCanonical_issue _) fun _ => keepsCanonical_done ()

/-! One unit of each procedure's loop, and the loops that may break early. -/

theorem keepsCanonical_encodeOne (code : LineCode) (inp out k : Nat) : KeepsCanonical (encodeOne code inp out k) :=
  keepsCanonical_andThen (keepsCanonical_memRead _) fun _ =>
    keepsCanonical_andThen (keepsCanonical_issue _) fun _ => keepsCanonical_writeCodeword out k _

theorem keepsCanonical_encodeOneByNibbles (code : LineCode) (inp out k : Nat) :
    KeepsCanonical (encodeOneByNibbles code inp out k) :=
  keepsCanonical_andThen (keepsCanonical_memRead _) fun _ =>
    keepsCanonical_andThen (keepsCanonical_issue _) fun _ =>
      keepsCanonical_andThen (keepsCanonical_memWrite _ _) fun _ =>
        keepsCanonical_andThen (keepsCanonical_issue _) fun _ => keepsCanonical_memWrite _ _

theorem keepsCanonical_decodeOne (cmd : Word → Instr) (inp out k : Nat) : KeepsCanonical (decodeOne cmd inp out k) :=
  keepsCanonical_andThen (keepsCanonical_readCodeword inp k) fun _ =>
    keepsCanonical_andThen (keepsCanonical_issue _) fun _ => keepsCanonical_memWrite _ _

theorem keepsCanonical_checkLoop (chk : Checker) (early : Bool) (inp m k : Nat) :
    KeepsCanonical (checkLoop chk early inp m k) := by
  induction m generalizing k with
  | zero => exact keepsCanonical_done ()
  | succ m ih =>
    exact keepsCanonical_andThen (keepsCanonical_readCodeword inp k) fun _ =>
      keepsCanonical_andThen (keepsCanonical_issue _) fun _ =>
        keepsCanonical_ite _ (keepsCanonical_done ()) (ih (k + 1))

theorem keepsCanonical_combinedLoop (inp out m k : Nat) : KeepsCanonical (combinedLoop inp out m k) := by
  induction m generalizing k with
  | zero => exact keepsCanonical_done ()
  | succ m ih =>
    exact keepsCanonical_andThen (keepsCanonical_readCodeword inp k) fun _ =>
      keepsCanonical_andThen (keepsCanonical_issue _) fun _ =>
        keepsCanonical_ite _ (keepsCanonical_done ()) <|
          keepsCanonical_andThen (keepsCanonical_memWrite _ _) fun _ => ih (k + 1)

/-! The seven procedures. -/

theorem keepsCanonical_encodeBuffer (code : LineCode) (inp n out : Nat) (p : Bool) :
    KeepsCanonical (encodeBuffer code inp n out p) :=
  keepsCanonical_andThen (keepsCanonical_distinctBuffers _ _ _ _) fun _ =>
    keepsCanonical_andThen (keepsCanonical_openStream code p) fun _ =>
      keepsCanonical_andThen (keepsCanonical_forUp (keepsCanonical_encodeOne code inp out) n 0) fun _ =>
        keepsCanonical_closeStream code

theorem keepsCanonical_encodeBufferByNibbles (code : LineCode) (inp n out : Nat) (p : Bool) :
    KeepsCanonical (encodeBufferByNibbles code inp n out p) :=
  keepsCanonical_andThen (keepsCanonical_distinctBuffers _ _ _ _) fun _ =>
    keepsCanonical_andThen (keepsCanonical_openStream code p) fun _ =>
      keepsCanonical_andThen (keepsCanonical_forUp (keepsCanonical_encodeOneByNibbles code inp out) n 0) fun _ =>
        keepsCanonical_closeStream code

theorem keepsCanonical_encodeInPlace (code : LineCode) (buf n : Nat) : KeepsCanonical (encodeInPlace code buf n) := by
  cases code with
  | man => exact keepsCanonical_forDown (keepsCanonical_encodeOne .man buf buf) n
  | stateful _ => exact keepsCanonical_refused _

theorem keepsCanonical_checkBlock (chk : Checker) (early : Bool) (inp len : Nat) (p : Bool) :
    KeepsCanonical (checkBlock chk early inp len p) :=
  keepsCanonical_andThen (keepsCanonical_wholeCodewords len) fun _ =>
    keepsCanonical_andThen (keepsCanonical_blockFits _) fun _ =>
      keepsCanonical_andThen keepsCanonical_beginBlock fun _ =>
        keepsCanonical_andThen (keepsCanonical_openCheck chk p) fun _ =>
          keepsCanonical_andThen (keepsCanonical_checkLoop chk early inp _ 0) fun _ =>
            keepsCanonical_andThen (keepsCanonical_issue _) fun _ => keepsCanonical_done _

theorem keepsCanonical_twoPhaseDecode (early : Bool) (inp len out : Nat) :
    KeepsCanonical (twoPhaseDecode early inp len out) :=
  keepsCanonical_andThen (keepsCanonical_blockToDecode inp len out) fun _ =>
    keepsCanonical_andThen (keepsCanonical_checkBlock .man early inp len false) fun _ =>
      keepsCanonical_ite _
        (keepsCanonical_andThen (keepsCanonical_forUp (keepsCanonical_decodeOne .manDecB inp out) _ 0) fun _ =>
          keepsCanonical_done true)
        (keepsCanonical_done false)

theorem keepsCanonical_combinedDecode (inp len out : Nat) : KeepsCanonical (combinedDecode inp len out) :=
  keepsCanonical_andThen (keepsCanonical_blockToDecode inp len out) fun _ =>
    keepsCanonical_andThen keepsCanonical_beginBlock fun _ =>
      keepsCanonical_andThen (keepsCanonical_combinedLoop inp out _ 0) fun _ =>
        keepsCanonical_andThen (keepsCanonical_issue _) fun _ =>
          keepsCanonical_andThen (keepsCanonical_issue _) fun _ => keepsCanonical_done _

theorem keepsCanonical_decodeBuffer (code : StatefulCode) (inp len out : Nat) (p : Bool) :
    KeepsCanonical (decodeBuffer code inp len out p) :=
  keepsCanonical_andThen (keepsCanonical_wholeCodewords len) fun _ =>
    keepsCanonical_andThen (keepsCanonical_decodeBuffers inp len out) fun _ =>
      keepsCanonical_andThen (keepsCanonical_openStream (.stateful code) p) fun _ =>
        keepsCanonical_andThen (keepsCanonical_forUp (keepsCanonical_decodeOne (decodeByte code) inp out) _ 0) fun _ =>
          keepsCanonical_closeStream (.stateful code)

/-- Settles O53: each procedure is put together from actions that keep the form. -/
theorem proceduresKeepMemoryCanonical : Obligations.ProceduresKeepMemoryCanonical := by
  unfold Obligations.ProceduresKeepMemoryCanonical
  intro w hw
  exact ⟨fun code inp n out p _ _ => keepsCanonical_encodeBuffer code inp n out p hw,
    fun code inp n out p _ _ => keepsCanonical_encodeBufferByNibbles code inp n out p hw,
    fun code buf n _ _ => keepsCanonical_encodeInPlace code buf n hw,
    fun chk early inp len p _ _ => keepsCanonical_checkBlock chk early inp len p hw,
    fun early inp len out _ _ => keepsCanonical_twoPhaseDecode early inp len out hw,
    fun inp len out _ _ => keepsCanonical_combinedDecode inp len out hw,
    fun code inp len out p _ _ => keepsCanonical_decodeBuffer code inp len out p hw⟩

end Sys2Proof.Proofs
end

section
/-! PROOFS. The command words. A command that decodes is the encoding of the instruction it decodes to: the decoder reads each
field of the word once, and the encoder puts the same fields back. No encoding is among the words R67 and R68 call
illegal, so an illegal word never decodes. -/

namespace Sys2Proof.Proofs

open Sys2Proof Sys2Proof.Machine Sys2Proof.Certificates

/-- The `W` field that selects a width (R10). -/
def widthField : Width → BitVec 2
  | .bit => 0b00#2
  | .nibble => 0b01#2
  | .byte => 0b10#2

theorem eq_widthField_of_widthOf {v : BitVec 2} {w : Width} (h : widthOf v = some w) : v = widthField w := by
  cases w <;> revert v <;> decide

/-- A format-C word is its three fields put together (R63). -/
theorem opField_append_wField_append_zField (cmd : CmdWord) : opField cmd ++ wField cmd ++ zField cmd = cmd := by
  unfold opField wField zField
  rw [BitVec.extractLsb'_append_extractLsb'_eq_extractLsb' (by rfl),
    BitVec.extractLsb'_append_extractLsb'_eq_extractLsb' (by rfl)]
  exact BitVec.extractLsb'_eq_self

/-- A format-R word is its two fields put together (R63). -/
theorem opField_append_kField (cmd : CmdWord) : opField cmd ++ kField cmd = cmd := by
  unfold opField kField
  rw [BitVec.extractLsb'_append_extractLsb'_eq_extractLsb' (by rfl)]
  exact BitVec.extractLsb'_eq_self

section Fields

variable {i : Instr} {cmd : CmdWord} {din : Word}

theorem encode_eq_of_fields_c {op : BitVec 4} {w z : BitVec 2} (hi : i.fields = .c op w z)
    (hop : (opField cmd).toNat = op.toNat) (hw : wField cmd = w) (hz : zField cmd = z) (hdin : i.din = din) :
    encode i = ⟨cmd, din⟩ := by
  obtain rfl := BitVec.eq_of_toNat_eq hop
  rw [encode, hi, hdin, ← hw, ← hz, Fields.word, opField_append_wField_append_zField]

theorem encode_eq_of_fields_r {op k : BitVec 4} (hi : i.fields = .r op k)
    (hop : (opField cmd).toNat = op.toNat) (hk : (kField cmd).toNat = k.toNat) (hdin : i.din = din) :
    encode i = ⟨cmd, din⟩ := by
  obtain rfl := BitVec.eq_of_toNat_eq hop
  obtain rfl := BitVec.eq_of_toNat_eq hk
  rw [encode, hi, hdin, Fields.word, opField_append_kField]

theorem encode_of_decodeAnyWidth {op : BitVec 4} {make : Width → Instr}
    (hmake : ∀ w, (make w).fields = .c op (widthField w) 0b00#2 ∧ (make w).din = din)
    (hop : (opField cmd).toNat = op.toNat) (h : decodeAnyWidth cmd make = .ok i) : encode i = ⟨cmd, din⟩ := by
  obtain ⟨hz, w, hw, rfl⟩ := decodeAnyWidth_ok h
  obtain ⟨hfields, hdin⟩ := hmake w
  exact encode_eq_of_fields_c hfields hop (eq_widthField_of_widthOf hw) hz hdin

theorem encode_of_decodeByteOnly {op : BitVec 4} {j : Instr} (hj : j.fields = .c op 0b10#2 0b00#2) (hdin : j.din = din)
    (hop : (opField cmd).toNat = op.toNat) (h : decodeByteOnly cmd j = .ok i) : encode i = ⟨cmd, din⟩ := by
  obtain ⟨hz, hw, rfl⟩ := decodeByteOnly_ok h
  exact encode_eq_of_fields_c hj hop (eq_widthField_of_widthOf hw) hz hdin

theorem encode_of_decodeCsrr (hop : (opField cmd).toNat = 0xB) (h : decodeCsrr (kField cmd) din = .ok i) :
    encode i = ⟨cmd, din⟩ := by
  unfold decodeCsrr at h
  split at h <;> cases h
  all_goals next hk => exact encode_eq_of_fields_r rfl hop hk rfl

theorem encode_of_decodeCsrw (hop : (opField cmd).toNat = 0xC) (h : decodeCsrw (kField cmd) din = .ok i) :
    encode i = ⟨cmd, din⟩ := by
  unfold decodeCsrw at h
  split at h <;> cases h
  all_goals next hk => exact encode_eq_of_fields_r rfl hop hk rfl

theorem encode_of_decodeWord (h : decodeWord cmd din = .ok i) : encode i = ⟨cmd, din⟩ := by
  unfold decodeWord at h
  split at h
  · next hop =>
    split at h <;> cases h
    next hk => exact encode_eq_of_fields_r rfl hop (congrArg BitVec.toNat (eq_of_beq hk)) rfl
  · next hop => exact encode_of_decodeAnyWidth (op := 0x1#4) (by intro w; cases w <;> exact ⟨rfl, rfl⟩) hop h
  · next hop => exact encode_of_decodeAnyWidth (op := 0x2#4) (by intro w; cases w <;> exact ⟨rfl, rfl⟩) hop h
  · next hop => exact encode_of_decodeAnyWidth (op := 0x3#4) (by intro w; cases w <;> exact ⟨rfl, rfl⟩) hop h
  · next hop => exact encode_of_decodeByteOnly (op := 0x4#4) rfl rfl hop h
  · next hop => exact encode_of_decodeAnyWidth (op := 0x5#4) (by intro w; cases w <;> exact ⟨rfl, rfl⟩) hop h
  · next hop => exact encode_of_decodeAnyWidth (op := 0x6#4) (by intro w; cases w <;> exact ⟨rfl, rfl⟩) hop h
  · next hop => exact encode_of_decodeAnyWidth (op := 0x7#4) (by intro w; cases w <;> exact ⟨rfl, rfl⟩) hop h
  · next hop => exact encode_of_decodeAnyWidth (op := 0x8#4) (by intro w; cases w <;> exact ⟨rfl, rfl⟩) hop h
  · next hop => exact encode_of_decodeAnyWidth (op := 0x9#4) (by intro w; cases w <;> exact ⟨rfl, rfl⟩) hop h
  · next hop => exact encode_of_decodeByteOnly (op := 0xA#4) rfl rfl hop h
  · next hop => exact encode_of_decodeCsrr hop h
  · next hop => exact encode_of_decodeCsrw hop h
  · cases h

end Fields

/-- A command that decodes is the encoding of what it decodes to. -/
theorem encode_of_decode {c : Command} {i : Instr} (h : decode c = .ok i) : encode i = c :=
  encode_of_decodeWord h

/-- Fields that pass the checks of R67 and R68 make a word that they do not call illegal. -/
theorem not_illegalByR67_word {f : Fields} (h : f.wellFormed = true) : ¬ IllegalByR67 f.word := by
  cases f with
  | c op w z =>
    revert op w z
    unfold IllegalByR67
    decide
  | r op k =>
    revert op k
    unfold IllegalByR67
    decide

theorem wellFormed_eq_true (i : Instr) : i.wellFormed = true := by cases i <;> rfl

theorem not_illegalByR67_encode (i : Instr) : ¬ IllegalByR67 (encode i).cmd :=
  not_illegalByR67_word (wellFormed_eq_true i)

end Sys2Proof.Proofs
end

section
/-! PROOFS. What one step can do to the record, said once. A step on an event that is no command is given by an equation; an
instruction changes the record in one of eight ways, each named with the instructions that may do it; a command that does
not decode only sets ILL. What each way leaves unchanged is then read off field by field, and the statements about the
write column (R35), the sticky flags (R25, R26) and the frozen count (R27) follow. -/

namespace Sys2Proof.Proofs

open Sys2Proof Sys2Proof.Machine Sys2Proof.Certificates

/-! ## A step, by the event the host offers -/

section Step

variable {s : State} {rest : List HostEvent}

theorem step_of_nothing (h : s.input = []) : step s = .next (idle s) := by
  unfold step; rw [h]

theorem step_of_command {c : Command} (h : s.input = .command c :: rest) :
    step s = accept c { s with input := rest } := by
  unfold step; rw [h]

theorem step_of_reset (h : s.input = .reset :: rest) : step s = .next (applyReset { s with input := rest }) := by
  unfold step; rw [h]

theorem step_of_powerUp (h : s.input = .powerUp :: rest) :
    step s = .next (applyPowerUp { s with input := rest }) := by
  unfold step; rw [h]

end Step

theorem accept_of_decode {c : Command} {i : Instr} (s : State) (h : decode c = .ok i) : accept c s = exec i s := by
  unfold accept; rw [h]

/-- Settles O19: a command that decodes is accepted as its instruction. -/
theorem stepRunsTheDecodedInstruction : Obligations.StepRunsTheDecodedInstruction := by
  unfold Obligations.StepRunsTheDecodedInstruction
  intro s c rest i hin hdec _
  rw [step_of_command hin, accept_of_decode _ hdec]

/-- Settles O20, by the equation of each event that is no command. -/
theorem stepOnResetPowerUpAndNothing : Obligations.StepOnResetPowerUpAndNothing := by
  unfold Obligations.StepOnResetPowerUpAndNothing
  intro s rest
  exact ⟨step_of_reset, fun h => ⟨powerUpArch s.powerUps, step_of_powerUp h⟩, step_of_nothing⟩

/-- Settles O21: the record by its definition, the registers by what the reset record reads as. -/
theorem resetValuesAreZero : Obligations.ResetValuesAreZero := by
  unfold Obligations.ResetValuesAreZero
  exact ⟨rfl, csrRead_reset⟩

theorem conforms_of_no_response {s : State} (h : s.response = none) : Safety.Conforms s := by
  intro r hr
  rw [h] at hr
  cases hr

/-- Settles O25: after reset no response stands at the port. -/
theorem resetConforms : Obligations.ResetConforms := by
  unfold Obligations.ResetConforms
  exact conforms_of_no_response rfl

/-! ## What an instruction can do to the record -/

/-- The ways an instruction changes the record `a`, each with the instructions that may do it. -/
inductive RecordChange (a : Arch) : Instr → Arch → Prop
  | keeps {i : Instr} : RecordChange a i a
  | level {i : Instr} (ss : List Symbol) (hprev : Safety.writesPrev i = true) : RecordChange a i (advancePrev ss a)
  | unit {i : Instr} (v : Bool) (hacc : Safety.accounts i = true) : RecordChange a i (account v a)
  | unitAndLevel {i : Instr} (v : Bool) (ss : List Symbol) (hacc : Safety.accounts i = true)
      (hprev : Safety.writesPrev i = true) : RecordChange a i (account v (advancePrev ss a))
  | ctrl (din : Word) : RecordChange a (.csrwCtrl din) (writeCtrl din a)
  | prev (din : Word) : RecordChange a (.csrwPrev din) (writePrev din a)
  | status (din : Word) : RecordChange a (.csrwStatus din) (writeStatus din a)
  | count (din : Word) : RecordChange a (.csrwCount din) (writeCount din a)

/-- Every instruction finishes with a record it may leave. -/
theorem exec_recordChange (i : Instr) (s : State) :
    ∃ a r, exec i s = finish s (a, r) ∧ RecordChange s.arch i a := by
  cases i with
  | nop _ | manEnc1 _ | manEncN _ | manEncB _ | manDec1 _ | manDecN _ | manDecB _ | transB _ | csrrCtrl _ | csrrPrev _
  | csrrStatus _ | csrrCount _ | csrrResult _ => exact ⟨_, _, rfl, .keeps⟩
  | dmEnc1 _ | dmEncN _ | dmEncB _ | dmDec1 _ | dmDecN _ | dmDecB _ | bmcEnc1 _ | bmcEncN _ | bmcEncB _ | bmcDec1 _
  | bmcDecN _ | bmcDecB _ => exact ⟨_, _, rfl, .level _ rfl⟩
  | manDeccB _ | manChk1 _ | manChkN _ | manChkB _ => exact ⟨_, _, rfl, .unit _ rfl⟩
  | bmcChk1 _ | bmcChkN _ | bmcChkB _ => exact ⟨_, _, rfl, .unitAndLevel _ _ rfl rfl⟩
  | csrwCtrl din => exact ⟨_, _, rfl, .ctrl din⟩
  | csrwPrev din => exact ⟨_, _, rfl, .prev din⟩
  | csrwStatus din => exact ⟨_, _, rfl, .status din⟩
  | csrwCount din => exact ⟨_, _, rfl, .count din⟩

/-- What an instruction that answers a next state did: a change of the record, and nothing to the input or the counter. -/
theorem exec_next {i : Instr} {s t : State} (h : exec i s = .next t) :
    RecordChange s.arch i t.arch ∧ t.input = s.input ∧ t.powerUps = s.powerUps := by
  obtain ⟨a, r, hexec, hchange⟩ := exec_recordChange i s
  obtain ⟨harch, -, hinput, hpowerUps⟩ := finish_next (hexec.symm.trans h)
  exact ⟨harch ▸ hchange, hinput, hpowerUps⟩

theorem account_cnt_of_err {a : Arch} (v : Bool) (h : a.err = true) : (account v a).cnt = a.cnt := by
  cases v with
  | false => rfl
  | true => rw [account_frozen a h]

namespace RecordChange

variable {a b : Arch} {i : Instr}

theorem pol_eq (h : RecordChange a i b) (hi : ∀ din, i ≠ .csrwCtrl din) : b.pol = a.pol := by
  cases h with
  | ctrl din => exact absurd rfl (hi din)
  | _ => simp

theorem prev_eq (h : RecordChange a i b) (hi : Safety.writesPrev i = false) : b.prev = a.prev := by
  cases h with
  | level ss hprev | unitAndLevel v ss hacc hprev => simp [hi] at hprev
  | prev din => cases hi
  | _ => simp

theorem err_eq (h : RecordChange a i b) (hacc : Safety.accounts i = false) (hi : ∀ din, i ≠ .csrwStatus din) :
    b.err = a.err := by
  cases h with
  | unit v hunit | unitAndLevel v ss hunit hprev => simp [hacc] at hunit
  | status din => exact absurd rfl (hi din)
  | _ => simp

theorem ill_eq (h : RecordChange a i b) (hi : ∀ din, i ≠ .csrwStatus din) : b.ill = a.ill := by
  cases h with
  | status din => exact absurd rfl (hi din)
  | _ => simp

theorem cnt_eq (h : RecordChange a i b) (hacc : Safety.accounts i = false) (hi : ∀ din, i ≠ .csrwCount din) :
    b.cnt = a.cnt := by
  cases h with
  | unit v hunit | unitAndLevel v ss hunit hprev => simp [hacc] at hunit
  | count din => exact absurd rfl (hi din)
  | _ => simp

/-- No instruction but a write of STATUS that says so clears ERR. -/
theorem err_stays (h : RecordChange a i b) (herr : a.err = true)
    (hi : ∀ din, i = .csrwStatus din → din.getLsbD 0 = true) : b.err = true := by
  cases h with
  | unit v hunit | unitAndLevel v ss hunit hprev => simp [account_err, herr]
  | status din => exact hi din rfl
  | _ => simpa using herr

/-- While ERR is set a checked unit counts nothing, so only a write of COUNT moves CNT. -/
theorem cnt_frozen (h : RecordChange a i b) (herr : a.err = true) (hi : ∀ din, i ≠ .csrwCount din) :
    b.cnt = a.cnt := by
  cases h with
  | unit v hunit | unitAndLevel v ss hunit hprev => exact account_cnt_of_err v herr
  | count din => exact absurd rfl (hi din)
  | _ => simp

/-- No instruction but a write of STATUS that says so clears ILL. -/
theorem ill_stays (h : RecordChange a i b) (hill : a.ill = true)
    (hi : ∀ din, i = .csrwStatus din → din.getLsbD 1 = true) : b.ill = true := by
  cases h with
  | status din => exact hi din rfl
  | _ => simpa using hill

end RecordChange

/-- Settles O28, each clause by what the ways of changing the record leave of its field. -/
theorem instructionsWriteOnlyTheirFields : Obligations.InstructionsWriteOnlyTheirFields := by
  unfold Obligations.InstructionsWriteOnlyTheirFields
  intro i s t h
  obtain ⟨hchange, hinput, hpowerUps⟩ := exec_next h
  exact ⟨hchange.pol_eq, hchange.prev_eq, hchange.err_eq, hchange.ill_eq, hchange.cnt_eq, hinput, hpowerUps⟩

/-! ## What a command can do to the record, and the sticky flags -/

/-- What a step on a command did to the record: a change its instruction may make, or the effect of an illegal word. -/
theorem step_command_record {s t : State} {c : Command} {rest : List HostEvent}
    (hin : s.input = .command c :: rest) (h : step s = .next t) :
    (∃ i, encode i = c ∧ RecordChange s.arch i t.arch) ∨ t.arch = (illegalEffect s.arch).1 := by
  rw [step_of_command hin] at h
  obtain ⟨i, hdec, hacc⟩ | ⟨e, -, hacc⟩ := accept_cases c { s with input := rest } <;> rw [hacc] at h
  · obtain ⟨hchange, -, -⟩ := exec_next h
    exact .inl ⟨i, encode_of_decode hdec, hchange⟩
  · obtain ⟨harch, -, -, -⟩ := finish_next h
    exact .inr harch

/-- A step on a word that R67 and R68 call illegal has the effect of an illegal word on the record. -/
theorem step_illegal_record {s t : State} {c : Command} {rest : List HostEvent} (hin : s.input = .command c :: rest)
    (hillegal : IllegalByR67 c.cmd) (h : step s = .next t) : t.arch = (illegalEffect s.arch).1 := by
  obtain ⟨i, rfl, -⟩ | harch := step_command_record hin h
  · exact absurd hillegal (not_illegalByR67_encode i)
  · exact harch

theorem mayClearErr_csrwStatus (din : Word) :
    mayClearErr (.command (encode (.csrwStatus din))) = !din.getLsbD 0 := rfl

theorem mayClearIll_csrwStatus (din : Word) :
    mayClearIll (.command (encode (.csrwStatus din))) = !din.getLsbD 1 := rfl

/-- Settles O26: a command either is an instruction, whose change of the record keeps ERR and freezes CNT, or sets only ILL. -/
theorem errIsStickyAndFreezesCnt : Obligations.ErrIsStickyAndFreezesCnt := by
  unfold Obligations.ErrIsStickyAndFreezesCnt
  intro s t e rest hin hclear herr h
  cases e with
  | reset | powerUp => cases hclear
  | command c =>
    obtain ⟨i, rfl, hchange⟩ | harch := step_command_record hin h
    · refine ⟨hchange.err_stays herr ?_, fun hcount => hchange.cnt_frozen herr ?_⟩
      · rintro din rfl
        simpa [mayClearErr_csrwStatus] using hclear
      · rintro din rfl
        exact hcount din rfl
    · exact ⟨by rw [harch, illegalEffect_err, herr], fun _ => by rw [harch, illegalEffect_cnt]⟩

/-- ILL stays set along a step whose event may not clear it. -/
theorem step_ill_stays {s t : State} {e : HostEvent} {rest : List HostEvent} (hin : s.input = e :: rest)
    (hclear : mayClearIll e = false) (hill : s.arch.ill = true) (h : step s = .next t) : t.arch.ill = true := by
  cases e with
  | reset | powerUp => cases hclear
  | command c =>
    obtain ⟨i, rfl, hchange⟩ | harch := step_command_record hin h
    · refine hchange.ill_stays hill ?_
      rintro din rfl
      simpa [mayClearIll_csrwStatus] using hclear
    · rw [harch, illegalEffect_ill]

theorem exec_csrwStatus (v : Word) (s : State) :
    exec (.csrwStatus v) s = finish s (writeStatus v s.arch, okWith 0x0000#16) := rfl

theorem decode_csrwStatus (din : Word) : decode ⟨0xC2#8, din⟩ = .ok (.csrwStatus din) := by
  rw [decode_mk]; rfl

theorem step_csrwStatus_record {s t : State} {din : Word} {rest : List HostEvent}
    (hin : s.input = .command ⟨0xC2#8, din⟩ :: rest) (h : step s = .next t) : t.arch = writeStatus din s.arch := by
  rw [step_of_command hin, accept_of_decode _ (decode_csrwStatus din), exec_csrwStatus] at h
  obtain ⟨harch, -, -, -⟩ := finish_next h
  exact harch

/-- Settles O27: an illegal word sets ILL, only the events named may clear it, and CSRW STATUS and reset do. -/
theorem illIsSticky : Obligations.IllIsSticky := by
  unfold Obligations.IllIsSticky
  refine ⟨?illegal, fun s t e rest => step_ill_stays, ?status, ?reset, rfl⟩
  case illegal =>
    intro s t c rest hin hillegal h
    rw [step_illegal_record hin hillegal h, illegalEffect_ill]
  case status =>
    intro s t din rest hin hdin h
    rw [step_csrwStatus_record hin h, writeStatus_ill, hdin]
  case reset =>
    intro s t rest hin h
    cases (step_of_reset hin).symm.trans h
    rfl

/-! ## The reserved bits of the registers -/

theorem exec_csrwCtrl (v : Word) (s : State) :
    exec (.csrwCtrl v) s = finish s (writeCtrl v s.arch, okWith 0x0000#16) := rfl

theorem exec_csrwPrev (v : Word) (s : State) :
    exec (.csrwPrev v) s = finish s (writePrev v s.arch, okWith 0x0000#16) := rfl

theorem exec_csrwCount (v : Word) (s : State) :
    exec (.csrwCount v) s = finish s (writeCount v s.arch, okWith 0x0000#16) := rfl

theorem exec_csrrCount (din : Word) (s : State) :
    exec (.csrrCount din) s = finish s (s.arch, okWith s.arch.cnt) := rfl

theorem finish_okWith (s : State) (a : Arch) (dout : Word) :
    ∃ t, finish s (a, okWith dout) = .next t ∧ t.response = some ⟨.ok, dout⟩ := ⟨_, rfl, rfl⟩

theorem zeroFrom_packBits (bits : List Bool) : ZeroFrom bits.length (packBits bits) :=
  fun k hk => getLsbD_packBits_above bits k hk

section Writes

variable {v w : Word}

theorem writeCtrl_congr (h : v.getLsbD 0 = w.getLsbD 0) : writeCtrl v = writeCtrl w := by
  funext a; rw [writeCtrl, writeCtrl, h]

theorem writePrev_congr (h : v.getLsbD 0 = w.getLsbD 0) : writePrev v = writePrev w := by
  funext a; rw [writePrev, writePrev, h]

theorem writeStatus_congr (h0 : v.getLsbD 0 = w.getLsbD 0) (h1 : v.getLsbD 1 = w.getLsbD 1) :
    writeStatus v = writeStatus w := by
  funext a; rw [writeStatus, writeStatus, h0, h1]

end Writes

/-- Settles O31: the registers read as packed bits, a write uses only the bits its register has, and COUNT keeps all 16. -/
theorem reservedRegisterBits : Obligations.ReservedRegisterBits := by
  unfold Obligations.ReservedRegisterBits
  refine ⟨?reads, ?ignored, ?noError, ?count⟩
  case reads =>
    exact fun a => ⟨zeroFrom_packBits [a.pol], zeroFrom_packBits [a.prev], zeroFrom_packBits [a.ill, a.err]⟩
  case ignored =>
    intro s v w h0
    refine ⟨?_, ?_, fun h1 => ?_⟩
    · rw [exec_csrwCtrl, exec_csrwCtrl, writeCtrl_congr h0]
    · rw [exec_csrwPrev, exec_csrwPrev, writePrev_congr h0]
    · rw [exec_csrwStatus, exec_csrwStatus, writeStatus_congr h0 h1]
  case noError =>
    intro s v i hi
    simp only [List.mem_cons, List.not_mem_nil, or_false] at hi
    obtain rfl | rfl | rfl | rfl := hi
    all_goals exact finish_okWith s _ 0x0000#16
  case count =>
    exact fun s v din => ⟨_, exec_csrwCount v s, exec_csrrCount din _⟩

end Sys2Proof.Proofs
end

section
/-! PROOFS. What an instruction does to the block's record, as a function of the record alone: `exec`, `perform` and the
host's `issue` all do this and nothing else. With it the save and restore of R56. -/

namespace Sys2Proof.Proofs

open Sys2Proof Sys2Proof.Machine Sys2Proof.Certificates

/-- The record an instruction leaves and its response: what `exec` answers where nothing else stands at the port. -/
def effect (i : Instr) (a : Arch) : Arch × Response :=
  match exec i { arch := a, input := [], response := none, powerUps := 0 } with
  | .next t => (t.arch, t.response.getD (okWith 0x0000#16))
  | .fault _ => (a, okWith 0x0000#16)
  | .refused _ => (a, okWith 0x0000#16)

/-- Every instruction finishes with its effect, whatever stands at the port. -/
theorem exec_eq_finish_effect (i : Instr) (s : State) : exec i s = finish s (effect i s.arch) := by
  cases i <;> rfl

/-- The effects of instructions one after another: the last record, and the responses in order. -/
def effects : List Instr → Arch → Arch × List Response
  | [], a => (a, [])
  | i :: rest, a =>
      let r := effects rest (effect i a).1
      (r.1, (effect i a).2 :: r.2)

@[simp] theorem effects_nil (a : Arch) : effects [] a = (a, []) := rfl

@[simp] theorem effects_cons (i : Instr) (rest : List Instr) (a : Arch) :
    effects (i :: rest) a =
      ((effects rest (effect i a).1).1, (effect i a).2 :: (effects rest (effect i a).1).2) := rfl

@[simp] theorem length_effects (is : List Instr) (a : Arch) : (effects is a).2.length = is.length := by
  induction is generalizing a with
  | nil => rfl
  | cons i rest ih => simp [ih]

/-- Performing instructions leaves their effects. -/
theorem perform_eq_effects (is : List Instr) (s : State) :
    ∃ t, perform is s = some (t, (effects is s.arch).2) ∧ t.arch = (effects is s.arch).1 := by
  induction is generalizing s with
  | nil => exact ⟨s, rfl, rfl⟩
  | cons i rest ih =>
    obtain ⟨t, ht, harch⟩ := ih { s with arch := (effect i s.arch).1, response := some (effect i s.arch).2 }
    refine ⟨t, ?_, harch⟩
    simp only [perform, exec_eq_finish_effect, finish_eq, ht, effects_cons]

theorem encode_eq_rowWord (i : Instr) : encode i = ⟨Laws.OpcodeRow.rowWord i, i.din⟩ := by
  cases i <;> rfl

/-- Every instruction decodes from its encoding. -/
theorem decode_encode (i : Instr) : decode (encode i) = .ok i := by
  rw [encode_eq_rowWord, decode_mk]
  cases i <;> dsimp only [Laws.OpcodeRow.rowWord, Instr.din] <;> rfl

/-- The host's world after the block has performed an instruction. -/
def performed (i : Instr) (w : HostWorld) : HostWorld :=
  { w with block := { w.block with
      arch := (effect i w.block.arch).1, response := some (effect i w.block.arch).2 } }

@[simp] theorem performed_mem (i : Instr) (w : HostWorld) : (performed i w).mem = w.mem := rfl

@[simp] theorem performed_arch (i : Instr) (w : HostWorld) :
    (performed i w).block.arch = (effect i w.block.arch).1 := rfl

/-- Issuing an instruction has its effect on the block and none on memory. -/
@[simp] theorem issue_eq (i : Instr) (w : HostWorld) :
    issue i w = .next (performed i w, (effect i w.block.arch).2) :=
  issueRaw_of_finish (encode i) w (effect i w.block.arch)
    ((accept_of_decode _ (decode_encode i)).trans (exec_eq_finish_effect i w.block))

/-! ## Host actions that answer -/

section Ends

variable {α β : Type}

/-- A host action answers, and what it leaves and returns satisfies `Q`. -/
def Ends (o : HostOutcome α) (Q : HostWorld → α → Prop) : Prop := ∃ w x, o = .next (w, x) ∧ Q w x

@[simp] theorem ends_next (w : HostWorld) (x : α) (Q : HostWorld → α → Prop) : Ends (.next (w, x)) Q ↔ Q w x := by
  constructor
  · rintro ⟨_, _, h, hq⟩
    cases h
    exact hq
  · exact fun hq => ⟨w, x, rfl, hq⟩

@[simp] theorem ends_done (w : HostWorld) (x : α) (Q : HostWorld → α → Prop) : Ends (done w x) Q ↔ Q w x :=
  ends_next w x Q

theorem Ends.imp {o : HostOutcome α} {P Q : HostWorld → α → Prop} (h : Ends o P) (hpq : ∀ w x, P w x → Q w x) :
    Ends o Q := by
  obtain ⟨w, x, ho, hp⟩ := h
  exact ⟨w, x, ho, hpq w x hp⟩

/-- A sequence answers when its first part does and its second does from every world the first may leave. -/
theorem Ends.andThen {o : HostOutcome α} {f : HostWorld → α → HostOutcome β} {P : HostWorld → α → Prop}
    {Q : HostWorld → β → Prop} (h : Ends o P) (hf : ∀ w x, P w x → Ends (f w x) Q) : Ends (andThen o f) Q := by
  obtain ⟨w, x, rfl, hp⟩ := h
  exact hf w x hp

@[simp] theorem andThen_refused (r : Refusal) (f : HostWorld → α → HostOutcome β) :
    Machine.andThen (.refused r) f = .refused r := rfl

end Ends

/-! ## The register commands, and the save and restore of a context (R56) -/

@[simp] theorem effect_csrrCtrl (v : Word) (a : Arch) : effect (.csrrCtrl v) a = (a, okWith (csrRead .ctrl a)) := rfl
@[simp] theorem effect_csrrPrev (v : Word) (a : Arch) : effect (.csrrPrev v) a = (a, okWith (csrRead .prev a)) := rfl
@[simp] theorem effect_csrrStatus (v : Word) (a : Arch) :
    effect (.csrrStatus v) a = (a, okWith (csrRead .status a)) := rfl
@[simp] theorem effect_csrrCount (v : Word) (a : Arch) : effect (.csrrCount v) a = (a, okWith (csrRead .count a)) := rfl
@[simp] theorem effect_csrrResult (v : Word) (a : Arch) :
    effect (.csrrResult v) a = (a, okWith (csrRead .result a)) := rfl
@[simp] theorem effect_csrwCtrl (v : Word) (a : Arch) : effect (.csrwCtrl v) a = (writeCtrl v a, okWith 0x0000#16) := rfl
@[simp] theorem effect_csrwPrev (v : Word) (a : Arch) : effect (.csrwPrev v) a = (writePrev v a, okWith 0x0000#16) := rfl
@[simp] theorem effect_csrwStatus (v : Word) (a : Arch) :
    effect (.csrwStatus v) a = (writeStatus v a, okWith 0x0000#16) := rfl
@[simp] theorem effect_csrwCount (v : Word) (a : Arch) :
    effect (.csrwCount v) a = (writeCount v a, okWith 0x0000#16) := rfl

@[simp] theorem csrRead_status_err (a : Arch) : (csrRead .status a).getLsbD 0 = a.err := by
  rw [csrRead, getLsbD_packBits]; rfl

@[simp] theorem csrRead_status_ill (a : Arch) : (csrRead .status a).getLsbD 1 = a.ill := by
  rw [csrRead, getLsbD_packBits]; rfl

/-- The four writable registers hold the whole record. -/
theorem write_of_csrRead (a b : Arch) :
    writeCount (csrRead .count a) (writeStatus (csrRead .status a)
      (writePrev (csrRead .prev a) (writeCtrl (csrRead .ctrl a) b))) = a := by
  rw [writeStatus, writePrev, writeCtrl, csrRead_status_err, csrRead_status_ill, csrRead, csrRead,
    getLsbD_zextBit_zero, getLsbD_zextBit_zero]
  rfl

/-- What the save of R56 reads of a record. -/
def savedContext (a : Arch) : SavedContext :=
  ⟨csrRead .ctrl a, csrRead .prev a, csrRead .status a, csrRead .count a⟩

theorem ends_saveContext (w : HostWorld) :
    Ends (saveContext w) fun w1 c => w1.block.arch = w.block.arch ∧ w1.mem = w.mem ∧ c = savedContext w.block.arch := by
  simp [saveContext, savedContext, okWith]

theorem ends_restoreContext (a : Arch) (w : HostWorld) :
    Ends (restoreContext (savedContext a) w) fun w2 _ => w2.block.arch = a ∧ w2.mem = w.mem := by
  simp [restoreContext, savedContext, write_of_csrRead]

/-- Settles O32: a read of a register changes nothing, and the four writes put back the record that was read. -/
theorem restoreBringsTheSavedContextBack : Obligations.RestoreBringsTheSavedContextBack := by
  unfold Obligations.RestoreBringsTheSavedContextBack
  intro w between
  obtain ⟨w1, _, hsave, harch, hmem, rfl⟩ := ends_saveContext w
  obtain ⟨w2, _, hrestore, hback, hkeep⟩ := ends_restoreContext w.block.arch between
  exact ⟨w1, _, w2, hsave, harch, hmem, hrestore, hback, hkeep⟩

end Sys2Proof.Proofs
end

section
/-! PROOFS. Host buffers: what holds of the bytes and codewords of a buffer, what stands outside it, and what the host makes
sure of before a run (R55). -/

namespace Sys2Proof.Proofs

open Sys2Proof Sys2Proof.Machine Sys2Proof.Certificates

/-! ## The guards of a run -/

section Guards

variable {w : HostWorld} {inp li out lo len m : Nat}

theorem rangesOverlap_eq_false :
    rangesOverlap inp li out lo = false ↔ li = 0 ∨ lo = 0 ∨ inp + li ≤ out ∨ out + lo ≤ inp := by
  rw [rangesOverlap, decide_eq_false_iff_not]
  omega

theorem distinctBuffers_of_apart (h : rangesOverlap inp li out lo = false) :
    distinctBuffers inp li out lo w = .next (w, ()) := by
  rw [distinctBuffers, h]; rfl

theorem distinctBuffers_of_overlap (h : rangesOverlap inp li out lo = true) :
    distinctBuffers inp li out lo w = .refused .bufferOverlap := by
  rw [distinctBuffers, h]; rfl

theorem wholeCodewords_of_even (h : len % 2 = 0) : wholeCodewords len w = .next (w, ()) := by
  rw [wholeCodewords, h]; rfl

theorem wholeCodewords_of_odd (h : len % 2 = 1) : wholeCodewords len w = .refused .oddSymbolBuffer := by
  rw [wholeCodewords, h]; rfl

theorem blockFits_of_le (h : m ≤ 65535) : blockFits m w = .next (w, ()) := if_pos h

theorem blockFits_of_gt (h : 65535 < m) : blockFits m w = .refused .blockTooLong := if_neg (by omega)

theorem decodeBuffers_of_ok (h : DecodeBuffersOk inp len out) : decodeBuffers inp len out w = .next (w, ()) := by
  unfold decodeBuffers
  obtain rfl | h := h
  · rw [beq_self_eq_true]; rfl
  · split
    · rfl
    · exact distinctBuffers_of_apart h

theorem decodeBuffers_of_overlap (hne : out ≠ inp) (h : rangesOverlap inp len out (len / 2) = true) :
    decodeBuffers inp len out w = .refused .bufferOverlap := by
  rw [decodeBuffers, if_neg (by simpa using hne), distinctBuffers_of_overlap h]

theorem blockToDecode_of_ok (heven : len % 2 = 0) (hfits : len / 2 ≤ 65535) (h : DecodeBuffersOk inp len out) :
    blockToDecode inp len out w = .next (w, ()) := by
  simp only [blockToDecode, wholeCodewords_of_even heven, blockFits_of_le hfits, decodeBuffers_of_ok h, andThen_next]

theorem blockToDecode_of_odd (hodd : len % 2 = 1) : blockToDecode inp len out w = .refused .oddSymbolBuffer := by
  simp only [blockToDecode, wholeCodewords_of_odd hodd, andThen_refused]

theorem blockToDecode_of_long (heven : len % 2 = 0) (hlong : 65535 < len / 2) :
    blockToDecode inp len out w = .refused .blockTooLong := by
  simp only [blockToDecode, wholeCodewords_of_even heven, blockFits_of_gt hlong, andThen_next, andThen_refused]

theorem blockToDecode_of_overlap (heven : len % 2 = 0) (hfits : len / 2 ≤ 65535) (hne : out ≠ inp)
    (h : rangesOverlap inp len out (len / 2) = true) :
    blockToDecode inp len out w = .refused .bufferOverlap := by
  simp only [blockToDecode, wholeCodewords_of_even heven, blockFits_of_le hfits, decodeBuffers_of_overlap hne h,
    andThen_next]

end Guards

/-- Settles O54: each procedure begins with its guards, and a guard that refuses ends the run. -/
theorem proceduresRefuseMisuse : Obligations.ProceduresRefuseMisuse := by
  unfold Obligations.ProceduresRefuseMisuse
  intro w inp len out n p early chk code st
  refine ⟨fun hodd => ?odd, fun heven hlong => ?long, fun hoverlap => ?encode, fun heven hfits hne hoverlap => ?decode⟩
  case odd =>
    simp only [checkBlock, twoPhaseDecode, combinedDecode, decodeBuffer, blockToDecode_of_odd hodd,
      wholeCodewords_of_odd hodd, andThen_refused, and_self]
  case long =>
    simp only [checkBlock, twoPhaseDecode, combinedDecode, blockToDecode_of_long heven hlong,
      wholeCodewords_of_even heven, blockFits_of_gt hlong, andThen_next, andThen_refused, and_self]
  case encode =>
    simp only [encodeBuffer, encodeBufferByNibbles, distinctBuffers_of_overlap hoverlap, andThen_refused, and_self]
  case decode =>
    simp only [twoPhaseDecode, combinedDecode, decodeBuffer, blockToDecode_of_overlap heven hfits hne hoverlap,
      wholeCodewords_of_even heven, decodeBuffers_of_overlap hne hoverlap, andThen_next, andThen_refused, and_self]

/-! ## What stands outside a buffer -/

section Outside

variable {m m' m'' : Memory} {addr addr' n n' : Nat}

theorem sameOutside_refl (addr n : Nat) (m : Memory) : SameOutside addr n m m := fun _ _ => rfl

theorem sameOutside_trans (h : SameOutside addr n m m') (h' : SameOutside addr n m' m'') :
    SameOutside addr n m m'' := fun a ha => (h' a ha).trans (h a ha)

/-- What holds outside a buffer holds outside a larger one. -/
theorem sameOutside_widen (h : SameOutside addr n m m') (hlow : addr' ≤ addr) (hhigh : addr + n ≤ addr' + n') :
    SameOutside addr' n' m m' := fun a ha => h a (by omega)

theorem sameOutside_write (m : Memory) (addr : Nat) (v : Byte) : SameOutside addr 1 m (m.write addr v) :=
  fun a ha => read_write_other m addr a v (by omega)

end Outside

/-! ## The bytes and the codewords of a buffer -/

section Contents

variable {m m' : Memory} {addr lo n : Nat}

theorem bytesAt_nil : BytesAt m addr [] := fun _ h => absurd h (Nat.not_lt_zero _)

theorem bytesAt_cons {d : Byte} {ds : List Byte} :
    BytesAt m addr (d :: ds) ↔ m.read addr = some d ∧ BytesAt m (addr + 1) ds := by
  constructor
  · refine fun h => ⟨h 0 (by simp), fun k hk => ?_⟩
    rw [show addr + 1 + k = addr + (k + 1) by omega]
    exact h (k + 1) (by simpa using hk)
  · rintro ⟨h0, h⟩ (_ | k) hk
    · exact h0
    · rw [show addr + (k + 1) = addr + 1 + k by omega]
      exact h k (by simpa using hk)

theorem bytesAt_concat {d : Byte} {ds : List Byte} :
    BytesAt m addr (ds ++ [d]) ↔ BytesAt m addr ds ∧ m.read (addr + ds.length) = some d := by
  induction ds generalizing addr with
  | nil => simp [bytesAt_cons, bytesAt_nil]
  | cons e ds ih => simp [bytesAt_cons, ih, and_assoc, Nat.add_assoc, Nat.add_comm 1]

theorem codewordsAt_nil : CodewordsAt m addr [] := fun _ h => absurd h (Nat.not_lt_zero _)

theorem codewordsAt_cons {cw : Word} {cws : List Word} :
    CodewordsAt m addr (cw :: cws) ↔
      (m.read addr = some (cw.extractLsb' 8 8) ∧ m.read (addr + 1) = some (cw.extractLsb' 0 8)) ∧
        CodewordsAt m (addr + 2) cws := by
  constructor
  · refine fun h => ⟨h 0 (by simp), fun k hk => ?_⟩
    rw [show addr + 2 + 2 * k = addr + 2 * (k + 1) by omega]
    exact h (k + 1) (by simpa using hk)
  · rintro ⟨h0, h⟩ (_ | k) hk
    · exact h0
    · rw [show addr + 2 * (k + 1) = addr + 2 + 2 * k by omega]
      exact h k (by simpa using hk)

theorem codewordsAt_concat {cw : Word} {cws : List Word} :
    CodewordsAt m addr (cws ++ [cw]) ↔ CodewordsAt m addr cws ∧ CodewordsAt m (addr + 2 * cws.length) [cw] := by
  induction cws generalizing addr with
  | nil => simp [codewordsAt_nil]
  | cons c cws ih =>
    rw [List.cons_append, codewordsAt_cons, ih, codewordsAt_cons (cw := c), List.length_cons,
      show addr + 2 + 2 * cws.length = addr + 2 * (cws.length + 1) by omega]
    simp only [and_assoc]

/-- Bytes stand where the memory did not change. -/
theorem bytesAt_of_sameOutside {ds : List Byte} (h : BytesAt m addr ds) (hsame : SameOutside lo n m m')
    (hapart : addr + ds.length ≤ lo ∨ lo + n ≤ addr) : BytesAt m' addr ds :=
  fun k hk => (hsame _ (by omega)).trans (h k hk)

/-- Codewords stand where the memory did not change. -/
theorem codewordsAt_of_sameOutside {cws : List Word} (h : CodewordsAt m addr cws) (hsame : SameOutside lo n m m')
    (hapart : addr + 2 * cws.length ≤ lo ∨ lo + n ≤ addr) : CodewordsAt m' addr cws :=
  fun k hk => ⟨(hsame _ (by omega)).trans (h k hk).1, (hsame _ (by omega)).trans (h k hk).2⟩

/-- The memory with a codeword written at an address, its high byte first (R43). -/
def storeCodeword (m : Memory) (addr : Nat) (cw : Word) : Memory :=
  (m.write addr (cw.extractLsb' 8 8)).write (addr + 1) (cw.extractLsb' 0 8)

theorem sameOutside_storeCodeword (m : Memory) (addr : Nat) (cw : Word) :
    SameOutside addr 2 m (storeCodeword m addr cw) :=
  sameOutside_trans (sameOutside_widen (sameOutside_write m addr _) (by omega) (by omega))
    (sameOutside_widen (sameOutside_write _ (addr + 1) _) (by omega) (by omega))

theorem codewordsAt_storeCodeword (m : Memory) (addr : Nat) (cw : Word) :
    CodewordsAt (storeCodeword m addr cw) addr [cw] := by
  refine codewordsAt_cons.mpr ⟨⟨?_, read_write_same _ _ _⟩, codewordsAt_nil⟩
  rw [storeCodeword, read_write_other _ _ _ _ (by omega), read_write_same]

theorem extract_append_extract (cw : Word) : cw.extractLsb' 8 8 ++ cw.extractLsb' 0 8 = cw := by
  rw [BitVec.extractLsb'_append_extractLsb'_eq_extractLsb' (by rfl)]
  exact BitVec.extractLsb'_eq_self

theorem readCodeword_of_codewordsAt {w : HostWorld} {inp k : Nat} {cw : Word} {cws : List Word}
    (h : CodewordsAt w.mem (inp + 2 * k) (cw :: cws)) : readCodeword inp k w = .next (w, cw) := by
  obtain ⟨⟨hhigh, hlow⟩, -⟩ := codewordsAt_cons.mp h
  rw [readCodeword, memRead_of_some hhigh, andThen_next, memRead_of_some hlow, andThen_next, extract_append_extract]
  rfl

theorem writeCodeword_eq (buf k : Nat) (cw : Word) (w : HostWorld) :
    writeCodeword buf k cw w = .next ({ w with mem := storeCodeword w.mem (buf + 2 * k) cw }, ()) := rfl

end Contents

end Sys2Proof.Proofs
end

section
/-! PROOFS. The three encoders as one: a run of data bits becomes a run of symbols, from the record it finds to the record it
leaves, and a longer run is its parts one after the other. A command packs its symbols into a word, so the way a run is
cut into commands shows in neither symbols nor record (R42). -/

namespace Sys2Proof.Proofs

open Sys2Proof Sys2Proof.Machine Sys2Proof.Certificates

/-- The encode command of a code at each width (R65). -/
def encodeAt : LineCode → Word → Width → Instr
  | .man => manEncOf
  | .stateful .dm => dmEncOf
  | .stateful .bmc => bmcEncOf

theorem encodeByte_eq (code : LineCode) (din : Word) : encodeByte code din = encodeAt code din .byte := by
  obtain _ | _ | _ := code <;> rfl

theorem encodeNibble_eq (code : LineCode) (din : Word) : encodeNibble code din = encodeAt code din .nibble := by
  obtain _ | _ | _ := code <;> rfl

/-- The symbols of a run of data bits from a record (R80, R100, R110). -/
def lineSymbols : LineCode → Arch → List Bool → List Symbol
  | .man, a => List.map (msym a.pol)
  | .stateful .dm, a => dmSymbols a.prev
  | .stateful .bmc, a => bmcSymbols a.prev

/-- The record after a run of symbols: a stateful code carries the line level on (R24). -/
def lineRecord : LineCode → List Symbol → Arch → Arch
  | .man, _, a => a
  | .stateful _, ss, a => advancePrev ss a

/-- An encode command packs the symbols of its data bits. -/
theorem effect_encodeAt (code : LineCode) (din : Word) (w : Width) (a : Arch) :
    effect (encodeAt code din w) a =
      (lineRecord code (lineSymbols code a (dataBits (unitsOf w) din)) a,
        okWith (packSymbols (lineSymbols code a (dataBits (unitsOf w) din)))) := by
  obtain _ | _ | _ := code <;> cases w <;> rfl

/-- An encode command reads only the data bits of its operand. -/
theorem effect_encodeAt_congr (code : LineCode) {x y : Word} (w : Width) (a : Arch)
    (h : dataBits (unitsOf w) x = dataBits (unitsOf w) y) :
    effect (encodeAt code x w) a = effect (encodeAt code y w) a := by
  rw [effect_encodeAt, effect_encodeAt, h]

@[simp] theorem length_lineSymbols (code : LineCode) (a : Arch) (bits : List Bool) :
    (lineSymbols code a bits).length = bits.length := by
  obtain _ | _ | _ := code <;> simp [lineSymbols]

theorem advancePrev_append (ss ts : List Symbol) (a : Arch) :
    advancePrev (ss ++ ts) a = advancePrev ts (advancePrev ss a) := by
  simp [advancePrev, lineEnd_append]

theorem lineRecord_append (code : LineCode) (ss ts : List Symbol) (a : Arch) :
    lineRecord code (ss ++ ts) a = lineRecord code ts (lineRecord code ss a) := by
  cases code with
  | man => rfl
  | stateful _ => exact advancePrev_append ss ts a

/-- The symbols of a longer run are those of its parts, the second from the record the first leaves. -/
theorem lineSymbols_append (code : LineCode) (a : Arch) (bs cs : List Bool) :
    lineSymbols code a (bs ++ cs) =
      lineSymbols code a bs ++ lineSymbols code (lineRecord code (lineSymbols code a bs) a) cs := by
  obtain _ | _ | _ := code
  · exact List.map_append
  · exact dmSymbols_append a.prev bs cs
  · exact bmcSymbols_append a.prev bs cs

/-! ## A stream of encode commands -/

/-- A stream of encode commands produces the symbols of all its data bits, and leaves the record they lead to. -/
theorem effects_encodeAt (code : LineCode) (ws : List (Width × Word)) (a : Arch) :
    (effects (ws.map fun x => encodeAt code x.2 x.1) a).1 = lineRecord code (lineSymbols code a (streamBits ws)) a ∧
    streamSymbols ws (effects (ws.map fun x => encodeAt code x.2 x.1) a).2 =
      lineSymbols code a (streamBits ws) := by
  induction ws generalizing a with
  | nil => obtain _ | _ | _ := code <;> exact ⟨rfl, rfl⟩
  | cons x ws ih =>
    obtain ⟨w, din⟩ := x
    obtain ⟨hrecord, hsymbols⟩ := ih (effect (encodeAt code din w) a).1
    have hbits : streamBits ((w, din) :: ws) = dataBits (unitsOf w) din ++ streamBits ws := rfl
    have hfirst : symbols (unitsOf w) (effect (encodeAt code din w) a).2.dout =
        lineSymbols code a (dataBits (unitsOf w) din) := by
      rw [effect_encodeAt]
      have hlen : (lineSymbols code a (dataBits (unitsOf w) din)).length = unitsOf w := by simp
      have hround := symbols_packSymbols (lineSymbols code a (dataBits (unitsOf w) din)) (by cases w <;> simp)
      rwa [hlen] at hround
    constructor
    · rw [List.map_cons, effects_cons, hrecord, hbits, lineSymbols_append, lineRecord_append, effect_encodeAt]
    · have hsplit : streamSymbols ((w, din) :: ws) (effects (((w, din) :: ws).map fun x => encodeAt code x.2 x.1) a).2 =
          symbols (unitsOf w) (effect (encodeAt code din w) a).2.dout ++
            streamSymbols ws (effects (ws.map fun x => encodeAt code x.2 x.1) (effect (encodeAt code din w) a).1).2 := rfl
      rw [hsplit, hfirst, hsymbols, hbits, lineSymbols_append, effect_encodeAt]

/-- Two streams of the same data bits give the same symbols and leave the same record. -/
theorem effects_encodeAt_congr (code : LineCode) {ws vs : List (Width × Word)} (a : Arch)
    (h : streamBits ws = streamBits vs) :
    (effects (ws.map fun x => encodeAt code x.2 x.1) a).1 = (effects (vs.map fun x => encodeAt code x.2 x.1) a).1 ∧
    streamSymbols ws (effects (ws.map fun x => encodeAt code x.2 x.1) a).2 =
      streamSymbols vs (effects (vs.map fun x => encodeAt code x.2 x.1) a).2 := by
  obtain ⟨hrecord, hsymbols⟩ := effects_encodeAt code ws a
  obtain ⟨hrecord', hsymbols'⟩ := effects_encodeAt code vs a
  exact ⟨by rw [hrecord, hrecord', h], by rw [hsymbols, hsymbols', h]⟩

/-! ## Codewords put together -/

theorem packBits_append (bs cs : List Bool) : packBits (bs ++ cs) = (packBits bs <<< cs.length) ||| packBits cs := by
  ext k hk
  rw [BitVec.getElem_or, BitVec.getElem_shiftLeft, getElem_packBits _ _ hk, getElem_packBits _ _ hk,
    List.reverse_append]
  by_cases h : k < cs.length
  · rw [List.getD_append _ _ _ _ (by simpa using h)]
    simp [h]
  · rw [List.getD_append_right _ _ _ _ (by simpa using h), getElem_packBits,
      List.getD_eq_default _ _ (show cs.reverse.length ≤ k by simpa using h)]
    simp [h]

theorem packSymbols_append (ss ts : List Symbol) :
    packSymbols (ss ++ ts) = (packSymbols ss <<< (2 * ts.length)) ||| packSymbols ts := by
  rw [packSymbols, symbolBits_append, packBits_append, length_symbolBits]
  rfl

/-- The codeword of an encode command is its symbols packed, and nothing else. -/
theorem packSymbols_dout_encodeAt (code : LineCode) (din : Word) (w : Width) (a : Arch) :
    packSymbols (symbols (unitsOf w) (effect (encodeAt code din w) a).2.dout) =
      (effect (encodeAt code din w) a).2.dout := by
  obtain ⟨-, hsymbols⟩ := effects_encodeAt code [(w, din)] a
  have hword : symbols (unitsOf w) (effect (encodeAt code din w) a).2.dout =
      lineSymbols code a (dataBits (unitsOf w) din) := by
    simpa [streamSymbols, streamBits] using hsymbols
  rw [hword, effect_encodeAt]
  rfl

theorem zeroFrom_dout_encodeAt (code : LineCode) (din : Word) (w : Width) (a : Arch) :
    ZeroFrom (2 * unitsOf w) (effect (encodeAt code din w) a).2.dout := by
  rw [← packSymbols_dout_encodeAt, packSymbols]
  have hlen : (symbolBits (symbols (unitsOf w) (effect (encodeAt code din w) a).2.dout)).length = 2 * unitsOf w := by
    simp
  rw [← hlen]
  exact zeroFrom_packBits _

/-- A byte command is two nibble commands, the high nibble first. -/
theorem effect_byte_eq_nibbles (code : LineCode) (d : Word) (a : Arch) :
    let h := effect (encodeAt code (d >>> 4) .nibble) a
    let l := effect (encodeAt code d .nibble) h.1
    (effect (encodeAt code d .byte) a).1 = l.1 ∧
      (effect (encodeAt code d .byte) a).2.dout = (h.2.dout <<< 8) ||| l.2.dout := by
  intro h l
  have hbits : streamBits [(.byte, d)] = streamBits [(.nibble, d >>> 4), (.nibble, d)] := by
    simp [streamBits, dataBits]
  obtain ⟨hrecord, hsymbols⟩ := effects_encodeAt_congr code a hbits
  refine ⟨hrecord, ?_⟩
  have hword : symbols 8 (effect (encodeAt code d .byte) a).2.dout = symbols 4 h.2.dout ++ symbols 4 l.2.dout := by
    simpa [streamSymbols, h, l] using hsymbols
  have hhigh : packSymbols (symbols 4 h.2.dout) = h.2.dout := packSymbols_dout_encodeAt code _ .nibble _
  have hlow : packSymbols (symbols 4 l.2.dout) = l.2.dout := packSymbols_dout_encodeAt code _ .nibble _
  rw [← packSymbols_dout_encodeAt, unitsOf_byte, hword, packSymbols_append, length_symbols, hhigh, hlow]

/-- A nibble command is four bit commands, bit 3 first. -/
theorem effect_nibble_eq_bits (code : LineCode) (d : Word) (a : Arch) :
    let r3 := effect (encodeAt code (d >>> 3) .bit) a
    let r2 := effect (encodeAt code (d >>> 2) .bit) r3.1
    let r1 := effect (encodeAt code (d >>> 1) .bit) r2.1
    let r0 := effect (encodeAt code d .bit) r1.1
    (effect (encodeAt code d .nibble) a).1 = r0.1 ∧
      (effect (encodeAt code d .nibble) a).2.dout =
        (r3.2.dout <<< 6) ||| (r2.2.dout <<< 4) ||| (r1.2.dout <<< 2) ||| r0.2.dout := by
  intro r3 r2 r1 r0
  have hbits : streamBits [(.nibble, d)] =
      streamBits [(.bit, d >>> 3), (.bit, d >>> 2), (.bit, d >>> 1), (.bit, d)] := by
    simp [streamBits, dataBits]
  obtain ⟨hrecord, hsymbols⟩ := effects_encodeAt_congr code a hbits
  refine ⟨hrecord, ?_⟩
  have hword : symbols 4 (effect (encodeAt code d .nibble) a).2.dout =
      symbols 1 r3.2.dout ++ (symbols 1 r2.2.dout ++ (symbols 1 r1.2.dout ++ symbols 1 r0.2.dout)) := by
    simpa [streamSymbols, r3, r2, r1, r0] using hsymbols
  have h3 : packSymbols (symbols 1 r3.2.dout) = r3.2.dout := packSymbols_dout_encodeAt code _ .bit _
  have h2 : packSymbols (symbols 1 r2.2.dout) = r2.2.dout := packSymbols_dout_encodeAt code _ .bit _
  have h1 : packSymbols (symbols 1 r1.2.dout) = r1.2.dout := packSymbols_dout_encodeAt code _ .bit _
  have h0 : packSymbols (symbols 1 r0.2.dout) = r0.2.dout := packSymbols_dout_encodeAt code _ .bit _
  rw [← packSymbols_dout_encodeAt, unitsOf_nibble, hword]
  simp only [packSymbols_append, List.length_append, length_symbols, h3, h2, h1, h0, BitVec.or_assoc]

theorem streamSymbols_bits (ws : List (Width × Word)) (rs : List Response) (hw : ∀ x ∈ ws, x.1 = .bit)
    (hlen : rs.length = ws.length) : streamSymbols ws rs = rs.flatMap fun r => symbols 1 r.dout := by
  induction ws generalizing rs with
  | nil => rw [List.length_eq_zero_iff.mp hlen]; rfl
  | cons x ws ih =>
    obtain _ | ⟨r, rs⟩ := rs
    · cases hlen
    · have hrest := ih rs (fun y hy => hw y (List.mem_cons_of_mem _ hy)) (by simpa using hlen)
      have hsplit : streamSymbols (x :: ws) (r :: rs) = symbols (unitsOf x.1) r.dout ++ streamSymbols ws rs := rfl
      rw [hsplit, hrest, hw x List.mem_cons_self]
      rfl

/-- The eight bit operands of a byte, bit 7 first. -/
def bitOperands (d : Word) : List (Width × Word) := (List.range 8).map fun k => (.bit, d >>> (7 - k))

theorem streamBits_bitOperands (d : Word) : streamBits (bitOperands d) = streamBits [(.byte, d)] := by
  simp [bitOperands, streamBits, dataBits, List.range_succ]

/-- A byte command gives the symbols of eight bit commands, bit 7 first. -/
theorem effect_byte_eq_bits (code : LineCode) (d : Word) (a : Arch) :
    let bs := effects ((List.range 8).map fun k => encodeAt code (d >>> (7 - k)) .bit) a
    (effect (encodeAt code d .byte) a).1 = bs.1 ∧
      symbols 8 (effect (encodeAt code d .byte) a).2.dout = bs.2.flatMap fun b => symbols 1 b.dout := by
  intro bs
  have hbs : effects ((bitOperands d).map fun x => encodeAt code x.2 x.1) a = bs := by
    rw [bitOperands, List.map_map]; rfl
  obtain ⟨hrecord, hsymbols⟩ := effects_encodeAt_congr code a (streamBits_bitOperands d)
  rw [hbs] at hrecord hsymbols
  refine ⟨hrecord.symm, ?_⟩
  rw [← streamSymbols_bits (bitOperands d) bs.2 (by simp [bitOperands]) (by simp [bs, bitOperands]), hsymbols]
  simp [streamSymbols]

/-- Settles O38: each width's command is the commands of the next smaller one in transmission order. -/
theorem granularitiesSplit : Obligations.GranularitiesSplit := by
  unfold Obligations.GranularitiesSplit
  intro s d enc henc
  obtain ⟨code, rfl⟩ : ∃ code, enc = encodeAt code := by
    simp only [List.mem_cons, List.not_mem_nil, or_false] at henc
    obtain rfl | rfl | rfl := henc
    · exact ⟨.man, rfl⟩
    · exact ⟨.stateful .dm, rfl⟩
    · exact ⟨.stateful .bmc, rfl⟩
  obtain ⟨t, ht, hbyte⟩ := perform_eq_effects [encodeAt code d .byte] s
  obtain ⟨n, hn, hnibble⟩ := perform_eq_effects [encodeAt code d .nibble] s
  refine ⟨?nibbles, ?nibbleBits, ?bits⟩
  case nibbles =>
    obtain ⟨u, hu, hlast⟩ := perform_eq_effects [encodeAt code (d >>> 4) .nibble, encodeAt code d .nibble] s
    obtain ⟨hrecord, hword⟩ := effect_byte_eq_nibbles code d s.arch
    exact ⟨t, _, u, _, _, ht, hu, hword, hbyte.trans (hrecord.trans hlast.symm)⟩
  case nibbleBits =>
    obtain ⟨u, hu, hlast⟩ := perform_eq_effects
      [encodeAt code (d >>> 3) .bit, encodeAt code (d >>> 2) .bit, encodeAt code (d >>> 1) .bit, encodeAt code d .bit] s
    obtain ⟨hrecord, hword⟩ := effect_nibble_eq_bits code d s.arch
    exact ⟨n, _, u, _, _, _, _, hn, hu, hword, hnibble.trans (hrecord.trans hlast.symm)⟩
  case bits =>
    obtain ⟨u, hu, hlast⟩ := perform_eq_effects ((List.range 8).map fun k => encodeAt code (d >>> (7 - k)) .bit) s
    obtain ⟨hrecord, hsymbols⟩ := effect_byte_eq_bits code d s.arch
    exact ⟨t, _, u, _, ht, hu, hsymbols, hbyte.trans (hrecord.trans hlast.symm)⟩

end Sys2Proof.Proofs
end

section
/-! PROOFS. The encodes of a buffer (R48 to R50). Encoding byte k leaves the effect of one byte command on the record and its
codeword in memory, whether it is done by a byte command or by two nibble commands; the two procedures are the same loop
over such a unit. The encode in place runs down, so that what it has written lies above every byte still to be read. -/

namespace Sys2Proof.Proofs

open Sys2Proof Sys2Proof.Machine Sys2Proof.Certificates

/-! ## The memory an encode leaves -/

/-- The memory with codewords written from an address on (R43). -/
def storeCodewords (m : Memory) (addr : Nat) : List Word → Memory
  | [] => m
  | cw :: rest => storeCodewords (storeCodeword m addr cw) (addr + 2) rest

theorem sameOutside_storeCodewords (m : Memory) (addr : Nat) (cws : List Word) :
    SameOutside addr (2 * cws.length) m (storeCodewords m addr cws) := by
  induction cws generalizing m addr with
  | nil => exact sameOutside_refl addr _ m
  | cons cw rest ih =>
    have hfirst := sameOutside_widen (addr' := addr) (n' := 2 * (cw :: rest).length)
      (sameOutside_storeCodeword m addr cw) (by omega) (by simp)
    exact sameOutside_trans hfirst (sameOutside_widen (ih _ _) (by omega) (by simp; omega))

theorem codewordsAt_storeCodewords (m : Memory) (addr : Nat) (cws : List Word) :
    CodewordsAt (storeCodewords m addr cws) addr cws := by
  induction cws generalizing m addr with
  | nil => exact codewordsAt_nil
  | cons cw rest ih =>
    have hfirst : CodewordsAt (storeCodewords m addr (cw :: rest)) addr [cw] :=
      codewordsAt_of_sameOutside (codewordsAt_storeCodeword m addr cw)
        (sameOutside_storeCodewords _ (addr + 2) rest) (.inl (by simp))
    exact codewordsAt_cons.mpr ⟨(codewordsAt_cons.mp hfirst).1, ih _ _⟩

/-! ## One byte -/

/-- The byte commands that encode a run of bytes. -/
def encodeCommands (code : LineCode) (ds : List Byte) : List Instr :=
  ds.map fun d => encodeByte code (d.setWidth 16)

/-- The codewords of a run of bytes that a code encodes from a record. -/
def codewordsOf (code : LineCode) (ds : List Byte) (a : Arch) : List Word :=
  (effects (encodeCommands code ds) a).2.map (·.dout)

@[simp] theorem length_codewordsOf (code : LineCode) (ds : List Byte) (a : Arch) :
    (codewordsOf code ds a).length = ds.length := by
  simp [codewordsOf, encodeCommands]

/-- A host action that encodes byte k of the input to codeword k of the output. -/
def EncodesUnit (code : LineCode) (inp out : Nat) (f : Nat → HostWorld → HostOutcome Unit) : Prop :=
  ∀ (k : Nat) (w : HostWorld) (d : Byte), w.mem.read (inp + k) = some d →
    Ends (f k w) fun w' _ =>
      w'.block.arch = (effect (encodeByte code (d.setWidth 16)) w.block.arch).1 ∧
      w'.mem = storeCodeword w.mem (out + 2 * k) (effect (encodeByte code (d.setWidth 16)) w.block.arch).2.dout

theorem encodesUnit_encodeOne (code : LineCode) (inp out : Nat) : EncodesUnit code inp out (encodeOne code inp out) := by
  intro k w d hread
  simp [encodeOne, memRead_of_some hread, writeCodeword_eq]

section Halves

variable {h l : Word}

theorem extract_high_of_halves (hl : ZeroFrom 8 l) : ((h <<< 8) ||| l).extractLsb' 8 8 = h.extractLsb' 0 8 := by
  refine BitVec.eq_of_getLsbD_eq fun k hk => ?_
  have hzero : l[8 + k] = false := hl (8 + k) (by omega)
  simp [hk, hzero, show k < 16 by omega, show 8 + k < 16 by omega]

theorem extract_low_of_halves : ((h <<< 8) ||| l).extractLsb' 0 8 = l.extractLsb' 0 8 := by
  ext k hk
  simp [BitVec.getElem_extractLsb', hk]

end Halves

theorem dataBits_high_nibble (d : Byte) :
    dataBits 4 ((d.extractLsb' 4 4).setWidth 16) = dataBits 4 (d.setWidth 16 >>> 4) :=
  dataBits_congr _ _ _ fun k hk => by
    simp [hk, show k < 16 by omega, show 4 + k < 16 by omega]

theorem dataBits_low_nibble (d : Byte) :
    dataBits 4 ((d.extractLsb' 0 4).setWidth 16) = dataBits 4 (d.setWidth 16) :=
  dataBits_congr _ _ _ fun k hk => by simp [hk]

theorem encodesUnit_encodeOneByNibbles (code : LineCode) (inp out : Nat) :
    EncodesUnit code inp out (encodeOneByNibbles code inp out) := by
  intro k w d hread
  obtain ⟨hrecord, hword⟩ := effect_byte_eq_nibbles code (d.setWidth 16) w.block.arch
  have hzero := zeroFrom_dout_encodeAt code (d.setWidth 16) .nibble
    (effect (encodeAt code (d.setWidth 16 >>> 4) .nibble) w.block.arch).1
  have hhigh (a : Arch) := effect_encodeAt_congr code .nibble a (dataBits_high_nibble d)
  have hlow (a : Arch) := effect_encodeAt_congr code .nibble a (dataBits_low_nibble d)
  simp only [encodeOneByNibbles, memRead_of_some hread, encodeNibble_eq, encodeByte_eq, issue_eq, andThen_next,
    memWrite_eq, performed_mem, performed_arch, ends_next, hhigh, hlow, hrecord, hword, storeCodeword,
    extract_high_of_halves hzero, extract_low_of_halves, true_and]

/-! ## A whole buffer -/

/-- The loop of an encode over a buffer apart from its input. -/
theorem ends_forUp_of_encodesUnit {code : LineCode} {inp out : Nat} {f : Nat → HostWorld → HostOutcome Unit}
    (hf : EncodesUnit code inp out f) (ds : List Byte) (k : Nat) (w : HostWorld) (hin : BytesAt w.mem (inp + k) ds)
    (hapart : inp + k + ds.length ≤ out + 2 * k ∨ out + 2 * k + 2 * ds.length ≤ inp + k) :
    Ends (forUp f ds.length k w) fun w' _ =>
      w'.block.arch = (effects (encodeCommands code ds) w.block.arch).1 ∧
      w'.mem = storeCodewords w.mem (out + 2 * k) (codewordsOf code ds w.block.arch) := by
  induction ds generalizing k w with
  | nil => exact (ends_done w () _).mpr ⟨rfl, rfl⟩
  | cons d ds ih =>
    obtain ⟨hd, hds⟩ := bytesAt_cons.mp hin
    refine (hf k w d hd).andThen fun w1 _ ⟨harch, hmem⟩ => ?_
    rw [List.length_cons] at hapart
    have hrest : BytesAt w1.mem (inp + (k + 1)) ds := by
      rw [hmem]
      exact bytesAt_of_sameOutside hds (sameOutside_storeCodeword _ _ _) (by omega)
    refine (ih (k + 1) w1 hrest (by omega)).imp fun w2 _ ⟨harch2, hmem2⟩ => ⟨?_, ?_⟩
    · rw [harch2, harch]; rfl
    · rw [hmem2, hmem, harch]; rfl

/-- The record a stream begins with: a stateful code takes the boundary bit in. -/
def openedRecord : LineCode → Bool → Arch → Arch
  | .man, _, a => a
  | .stateful _, p, a => writePrev (zextBit p) a

/-- The boundary bit a stream answers: a stateful code answers the level it ends at. -/
def boundaryBit : LineCode → Arch → Option Bool
  | .man, _ => none
  | .stateful _, a => some a.prev

theorem ends_openStream (code : LineCode) (p : Bool) (w : HostWorld) :
    Ends (openStream code p w) fun w' _ => w'.block.arch = openedRecord code p w.block.arch ∧ w'.mem = w.mem := by
  cases code <;> simp [openStream, openedRecord]

theorem ends_closeStream (code : LineCode) (w : HostWorld) :
    Ends (closeStream code w) fun w' b =>
      b = boundaryBit code w.block.arch ∧ w'.block.arch = w.block.arch ∧ w'.mem = w.mem := by
  cases code with
  | man => simp [closeStream, boundaryBit]
  | stateful _ => simp only [closeStream, issue_eq, andThen_next, ends_done, effect_csrrPrev, performed_arch, performed_mem,
      boundaryBit, okWith, csrRead, getLsbD_zextBit_zero, and_self]

/-- What an encode of a buffer leaves: the record, the boundary bit and the memory. -/
def EncodedBuffer (code : LineCode) (out : Nat) (p : Bool) (ds : List Byte) (w w' : HostWorld) (b : Option Bool) : Prop :=
  w'.block.arch = (effects (encodeCommands code ds) (openedRecord code p w.block.arch)).1 ∧
  w'.mem = storeCodewords w.mem out (codewordsOf code ds (openedRecord code p w.block.arch)) ∧
  b = boundaryBit code w'.block.arch

section Buffer

variable {inp out : Nat} {ds : List Byte} {w : HostWorld}

/-- An encode of a buffer that is apart from its input, by any unit. -/
theorem ends_encode_of_encodesUnit (code : LineCode) (p : Bool) {f : Nat → HostWorld → HostOutcome Unit}
    (hf : EncodesUnit code inp out f) (hin : BytesAt w.mem inp ds)
    (hapart : rangesOverlap inp ds.length out (2 * ds.length) = false) :
    Ends (andThen (distinctBuffers inp ds.length out (2 * ds.length) w) fun w _ =>
      andThen (openStream code p w) fun w _ =>
        andThen (forUp f ds.length 0 w) fun w _ => closeStream code w) (EncodedBuffer code out p ds w) := by
  rw [distinctBuffers_of_apart hapart, andThen_next]
  refine (ends_openStream code p w).andThen fun w1 _ ⟨harch1, hmem1⟩ => ?_
  have hloop := ends_forUp_of_encodesUnit hf ds 0 w1 (hmem1 ▸ hin) (by have := rangesOverlap_eq_false.mp hapart; omega)
  refine hloop.andThen fun w2 _ ⟨harch2, hmem2⟩ => ?_
  refine (ends_closeStream code w2).imp fun w3 b ⟨hb, harch3, hmem3⟩ => ⟨?_, ?_, ?_⟩
  · rw [harch3, harch2, harch1]
  · rw [hmem3, hmem2, hmem1, harch1]; rfl
  · rw [hb, harch3]

theorem ends_encodeBuffer (code : LineCode) (p : Bool) (hin : BytesAt w.mem inp ds)
    (hapart : rangesOverlap inp ds.length out (2 * ds.length) = false) :
    Ends (encodeBuffer code inp ds.length out p w) (EncodedBuffer code out p ds w) :=
  ends_encode_of_encodesUnit code p (encodesUnit_encodeOne code inp out) hin hapart

theorem ends_encodeBufferByNibbles (code : LineCode) (p : Bool) (hin : BytesAt w.mem inp ds)
    (hapart : rangesOverlap inp ds.length out (2 * ds.length) = false) :
    Ends (encodeBufferByNibbles code inp ds.length out p w) (EncodedBuffer code out p ds w) :=
  ends_encode_of_encodesUnit code p (encodesUnit_encodeOneByNibbles code inp out) hin hapart

end Buffer

/-- Settles O51: the unit of either loop has the same effect on the record and on memory. -/
theorem nibbleEncodeOfABufferIsTheSame : Obligations.NibbleEncodeOfABufferIsTheSame := by
  unfold Obligations.NibbleEncodeOfABufferIsTheSame
  intro code w inp out p ds hin hapart
  obtain ⟨w1, b1, hbytes, harch1, hmem1, rfl⟩ := ends_encodeBuffer code p hin hapart
  obtain ⟨w2, b2, hnibbles, harch2, hmem2, rfl⟩ := ends_encodeBufferByNibbles code p hin hapart
  have harch : w1.block.arch = w2.block.arch := harch1.trans harch2.symm
  exact ⟨w1, w2, _, hbytes, harch ▸ hnibbles, hmem1.trans hmem2.symm, harch⟩

/-! ## Manchester: the codewords, and the encode in place -/

theorem getElem?_reverse_dataBits {n j : Nat} (x : Word) (h : j < n) : (dataBits n x).reverse[j]? = some (x.getLsbD j) := by
  have hlen : j < (dataBits n x).reverse.length := by simpa using h
  rw [List.getElem?_eq_getElem hlen, ← getD_reverse_dataBits n j x h, List.getD_eq_getElem _ _ hlen]

theorem getElem?_reverse_symbols {n j : Nat} (x : Word) (h : j < n) :
    (symbols n x).reverse[j]? = some ⟨firstBit x j, secondBit x j⟩ := by
  induction n with
  | zero => omega
  | succ n ih =>
    rw [symbols, List.reverse_cons]
    by_cases hj : j < n
    · rw [List.getElem?_append_left (by simpa using hj), ih hj]
    · obtain rfl : j = n := by omega
      rw [List.getElem?_append_right (by simp)]
      simp [firstBit, secondBit]

/-- The Manchester codeword of a byte under a polarity (R80). -/
def manCode (pol : Bool) (d : Byte) : Word := manCodeword 8 pol (d.setWidth 16)

theorem effect_manEncB (d : Byte) (a : Arch) :
    effect (encodeByte .man (d.setWidth 16)) a = (a, okWith (manCode a.pol d)) := rfl

theorem symbols_manCode (pol : Bool) (d : Byte) :
    symbols 8 (manCode pol d) = (dataBits 8 (d.setWidth 16)).map (msym pol) := by
  have hround := symbols_packSymbols ((dataBits 8 (d.setWidth 16)).map (msym pol)) (by simp)
  rwa [List.length_map, length_dataBits] at hround

theorem isManCode_manCode (pol : Bool) (d : Byte) : IsManCode pol d (manCode pol d) := by
  intro j hj
  have hsymbol := getElem?_reverse_symbols (manCode pol d) hj
  rw [symbols_manCode, ← List.map_reverse, List.getElem?_map, getElem?_reverse_dataBits _ hj] at hsymbol
  simp only [Option.map_some, msym, Option.some.injEq, Symbol.mk.injEq, BitVec.getLsbD_setWidth,
    show j < 16 by omega, decide_true, Bool.true_and] at hsymbol
  exact ⟨hsymbol.2.symm, hsymbol.1.symm⟩

/-- The downward loop of the encode in place: what it writes for byte k lies above the bytes before k. -/
theorem ends_forDown_encodeOne (buf : Nat) (ds : List Byte) (w : HostWorld) (hin : BytesAt w.mem buf ds) :
    Ends (forDown (encodeOne .man buf buf) ds.length w) fun w' _ =>
      w'.block.arch = w.block.arch ∧ CodewordsAt w'.mem buf (ds.map (manCode w.block.arch.pol)) ∧
      SameOutside buf (2 * ds.length) w.mem w'.mem := by
  induction ds using List.reverseRecOn generalizing w with
  | nil => exact (ends_done w () _).mpr ⟨rfl, codewordsAt_nil, sameOutside_refl buf 0 w.mem⟩
  | append_singleton ds d ih =>
    obtain ⟨hds, hd⟩ := bytesAt_concat.mp hin
    rw [List.length_append, List.length_singleton, forDown]
    refine (encodesUnit_encodeOne .man buf buf ds.length w d hd).andThen fun w1 _ ⟨harch1, hmem1⟩ => ?_
    rw [effect_manEncB] at harch1 hmem1
    have hwrote : SameOutside (buf + 2 * ds.length) 2 w.mem w1.mem := hmem1 ▸ sameOutside_storeCodeword _ _ _
    have hrest : BytesAt w1.mem buf ds := bytesAt_of_sameOutside hds hwrote (by omega)
    refine (ih w1 hrest).imp fun w2 _ ⟨harch2, hcws, hsame⟩ => ⟨harch2.trans harch1, ?_, ?_⟩
    · rw [harch1] at hcws
      rw [List.map_append, List.map_singleton]
      refine codewordsAt_concat.mpr ⟨hcws, ?_⟩
      rw [List.length_map]
      have hlast : CodewordsAt w1.mem (buf + 2 * ds.length) [manCode w.block.arch.pol d] :=
        hmem1 ▸ codewordsAt_storeCodeword _ _ _
      exact codewordsAt_of_sameOutside hlast hsame (by omega)
    · exact sameOutside_trans (sameOutside_widen hwrote (by omega) (by omega)) (sameOutside_widen hsame (by omega) (by omega))

/-- Settles O50: the downward loop reads every byte before it is overwritten. -/
theorem encodeInPlaceLosesNoInput : Obligations.EncodeInPlaceLosesNoInput := by
  unfold Obligations.EncodeInPlaceLosesNoInput
  intro w buf ds hin
  refine ⟨?_, fun code => rfl⟩
  obtain ⟨w', _, hrun, harch, hcws, hsame⟩ := ends_forDown_encodeOne buf ds w hin
  refine ⟨w', _, hrun, harch, List.length_map _, hcws, fun k h h' => ?_, hsame⟩
  rw [List.getElem_map]
  exact isManCode_manCode _ _

end Sys2Proof.Proofs
end

section
/-! PROOFS. The decodes of a buffer (R52 to R54). Decoding codeword k reads it before byte k is written, and byte k lies below
every codeword still to be read, in place as well as apart; so one loop lemma serves the three procedures. What is
decoded is then what the commands answer to the codewords, and for encoded buffers that is the input. -/

namespace Sys2Proof.Proofs

open Sys2Proof Sys2Proof.Machine Sys2Proof.Certificates

/-! ## The memory a decode leaves -/

/-- The memory with bytes written from an address on. -/
def storeBytes (m : Memory) (addr : Nat) : List Byte → Memory
  | [] => m
  | d :: rest => storeBytes (m.write addr d) (addr + 1) rest

theorem sameOutside_storeBytes (m : Memory) (addr : Nat) (ds : List Byte) :
    SameOutside addr ds.length m (storeBytes m addr ds) := by
  induction ds generalizing m addr with
  | nil => exact sameOutside_refl addr _ m
  | cons d rest ih =>
    have hfirst := sameOutside_widen (addr' := addr) (n' := (d :: rest).length) (sameOutside_write m addr d)
      (by omega) (by simp)
    exact sameOutside_trans hfirst (sameOutside_widen (ih _ _) (by omega) (by simp; omega))

theorem bytesAt_storeBytes (m : Memory) (addr : Nat) (ds : List Byte) : BytesAt (storeBytes m addr ds) addr ds := by
  induction ds generalizing m addr with
  | nil => exact bytesAt_nil
  | cons d rest ih =>
    refine bytesAt_cons.mpr ⟨?_, ih _ _⟩
    rw [storeBytes, sameOutside_storeBytes _ (addr + 1) rest addr (.inl (by omega)), read_write_same]

/-! ## The loop of a decode -/

/-- The bytes a decode command answers to a run of codewords, from a record. -/
def decodedBytes (cmd : Word → Instr) (cws : List Word) (a : Arch) : List Byte :=
  (effects (cws.map cmd) a).2.map fun r => r.dout.extractLsb' 0 8

@[simp] theorem length_decodedBytes (cmd : Word → Instr) (cws : List Word) (a : Arch) :
    (decodedBytes cmd cws a).length = cws.length := by
  simp [decodedBytes]

/-- The world after a run of codewords has been decoded to an address. -/
def DecodedTo (cmd : Word → Instr) (out : Nat) (cws : List Word) (w w' : HostWorld) : Prop :=
  w'.block.arch = (effects (cws.map cmd) w.block.arch).1 ∧
  w'.mem = storeBytes w.mem out (decodedBytes cmd cws w.block.arch)

/-- The output of a decode of n codewords is the input buffer or shares no address with it (R53). -/
def RoomToDecode (inp n out : Nat) : Prop := out = inp ∨ inp + 2 * n ≤ out ∨ out + n ≤ inp

theorem roomToDecode_of_buffersOk {inp n out : Nat} (h : DecodeBuffersOk inp (2 * n) out) : RoomToDecode inp n out := by
  obtain h | h := h
  · exact .inl h
  · have := rangesOverlap_eq_false.mp h
    unfold RoomToDecode
    omega

section Loop

variable {inp out : Nat} {cws : List Word}

/-- One codeword is decoded, and those after it still stand. -/
theorem ends_decodeOne (cmd : Word → Instr) {k : Nat} {w : HostWorld} {cw : Word}
    (hin : CodewordsAt w.mem (inp + 2 * k) (cw :: cws)) (hroom : RoomToDecode inp (k + (cws.length + 1)) out) :
    Ends (decodeOne cmd inp out k w) fun w' _ =>
      w'.block.arch = (effect (cmd cw) w.block.arch).1 ∧
      w'.mem = w.mem.write (out + k) ((effect (cmd cw) w.block.arch).2.dout.extractLsb' 0 8) ∧
      CodewordsAt w'.mem (inp + 2 * (k + 1)) cws := by
  obtain ⟨-, hrest⟩ := codewordsAt_cons.mp hin
  have hkeep := codewordsAt_of_sameOutside hrest
    (sameOutside_write w.mem (out + k) ((effect (cmd cw) w.block.arch).2.dout.extractLsb' 0 8))
    (by unfold RoomToDecode at hroom; omega)
  simp only [decodeOne, readCodeword_of_codewordsAt hin, issue_eq, andThen_next, memWrite_eq, ends_next, performed_arch,
    performed_mem, true_and]
  exact hkeep

theorem ends_forUp_decodeOne (cmd : Word → Instr) {k : Nat} {w : HostWorld}
    (hin : CodewordsAt w.mem (inp + 2 * k) cws) (hroom : RoomToDecode inp (k + cws.length) out) :
    Ends (forUp (decodeOne cmd inp out) cws.length k w) fun w' _ => DecodedTo cmd (out + k) cws w w' := by
  induction cws generalizing k w with
  | nil => exact (ends_done w () _).mpr ⟨rfl, rfl⟩
  | cons cw cws ih =>
    rw [List.length_cons] at hroom
    refine (ends_decodeOne cmd hin hroom).andThen fun w1 _ ⟨harch, hmem, hrest⟩ => ?_
    rw [show k + (cws.length + 1) = k + 1 + cws.length by omega] at hroom
    refine (ih hrest hroom).imp fun w2 _ ⟨harch2, hmem2⟩ => ⟨?_, ?_⟩
    · rw [harch2, harch]; rfl
    · rw [hmem2, hmem, harch]; rfl

/-- Every symbol of a codeword is well formed (R79). -/
def manValid (cw : Word) : Bool := (symbols 8 cw).all manSymbolOk

theorem effect_manDeccB (cw : Word) (a : Arch) :
    effect (.manDeccB cw) a =
      (account (manValid cw) a,
        ⟨codeOfCheck (manValid cw), if manValid cw then packBits ((symbols 8 cw).map (manPlainBit a.pol)) else 0x0000#16⟩) :=
  rfl

theorem effect_manDeccB_of_valid {cw : Word} (a : Arch) (h : manValid cw = true) :
    effect (.manDeccB cw) a = (account true a, okWith (packBits ((symbols 8 cw).map (manPlainBit a.pol)))) := by
  rw [effect_manDeccB, h]; rfl

/-- Over a run of valid codewords the combined decode is the loop that checks nothing. -/
theorem combinedLoop_of_valid {k : Nat} {w : HostWorld} (m : Nat) (hvalid : ∀ cw ∈ cws, manValid cw = true)
    (hin : CodewordsAt w.mem (inp + 2 * k) cws) (hroom : RoomToDecode inp (k + cws.length) out) :
    combinedLoop inp out (cws.length + m) k w =
      andThen (forUp (decodeOne .manDeccB inp out) cws.length k w) fun w' _ =>
        combinedLoop inp out m (k + cws.length) w' := by
  induction cws generalizing k w with
  | nil => simp [forUp]
  | cons cw cws ih =>
    rw [List.length_cons] at hroom
    have hunit : combinedLoop inp out (cws.length + m + 1) k w =
        andThen (decodeOne .manDeccB inp out k w) fun w' _ => combinedLoop inp out (cws.length + m) (k + 1) w' := by
      simp only [combinedLoop, decodeOne, readCodeword_of_codewordsAt hin, issue_eq, andThen_next, memWrite_eq,
        effect_manDeccB_of_valid _ (hvalid cw List.mem_cons_self)]
      rfl
    obtain ⟨w1, _, hrun, -, -, hrest⟩ := ends_decodeOne .manDeccB hin hroom
    have hnext : k + (cws.length + 1) = k + 1 + cws.length := by omega
    rw [List.length_cons, show cws.length + 1 + m = cws.length + m + 1 by omega, hunit, hrun, andThen_next, forUp,
      andThen_assoc, hrun, andThen_next, hnext]
    exact ih (fun c hc => hvalid c (List.mem_cons_of_mem _ hc)) hrest (hnext ▸ hroom)

end Loop

theorem even_div_two (n : Nat) : 2 * n % 2 = 0 ∧ 2 * n / 2 = n := by omega

/-! ## The block check with MAN_CHK, and the two-phase decode (R51, R52) -/

theorem effect_manChkB (cw : Word) (a : Arch) :
    effect (.manChkB cw) a = (account (manValid cw) a, ⟨codeOfCheck (manValid cw), 0x0000#16⟩) := rfl

theorem manValid_iff (cw : Word) : manValid cw = true ↔ ManOk 8 cw := by
  have hread : manValid cw = true ↔ ∀ s ∈ (symbols 8 cw).reverse, manSymbolOk s = true := by
    simp [manValid]
  rw [hread]
  constructor
  · intro h j hj
    have hmem := List.mem_of_getElem? (getElem?_reverse_symbols cw hj)
    simpa [manSymbolOk] using h _ hmem
  · intro h s hs
    obtain ⟨j, hj, hget⟩ := List.getElem_of_mem hs
    have hlen : j < 8 := by simpa using hj
    have hsymbol := getElem?_reverse_symbols cw hlen
    rw [List.getElem?_eq_getElem hj, hget, Option.some.injEq] at hsymbol
    subst hsymbol
    simpa [manSymbolOk] using h j hlen

theorem ends_beginBlock (w : HostWorld) :
    Ends (beginBlock w) fun w' _ =>
      w'.block.arch = writeCount 0x0000#16 (writeStatus 0x0000#16 w.block.arch) ∧ w'.mem = w.mem := by
  simp [beginBlock]

/-- The loop of CHECK_BLOCK with MAN_CHK ends with ERR set iff it was or some codeword is malformed, with the optional break
or without it. -/
theorem ends_checkLoop_man (early : Bool) {inp : Nat} (cws : List Word) (k : Nat) (w : HostWorld)
    (hin : CodewordsAt w.mem (inp + 2 * k) cws) :
    Ends (checkLoop .man early inp cws.length k w) fun w' _ =>
      w'.block.arch.err = (w.block.arch.err || !cws.all manValid) ∧
      w'.block.arch.pol = w.block.arch.pol ∧ w'.mem = w.mem := by
  induction cws generalizing k w with
  | nil => simp [checkLoop]
  | cons cw cws ih =>
    obtain ⟨-, hrest⟩ := codewordsAt_cons.mp hin
    have hloop := (ih (k + 1) (performed (.manChkB cw) w) hrest).imp
      (Q := fun w' _ => w'.block.arch.err = (w.block.arch.err || !(cw :: cws).all manValid) ∧
        w'.block.arch.pol = w.block.arch.pol ∧ w'.mem = w.mem)
      fun w' _ ⟨herr, hpol, hmem⟩ => by
        refine ⟨?_, by rw [hpol, performed_arch, effect_manChkB, account_pol], hmem⟩
        rw [herr, performed_arch, effect_manChkB, account_err, List.all_cons, Bool.not_and, Bool.or_assoc]
    simp only [List.length_cons, checkLoop, checkByte, readCodeword_of_codewordsAt hin, issue_eq, andThen_next]
    split
    · next hbreak =>
      have hmalformed : manValid cw = false := by
        cases hv : manValid cw with
        | false => rfl
        | true => simp [effect_manChkB, hv] at hbreak
      simp [effect_manChkB, hmalformed]
    · exact hloop

theorem ends_checkBlock_man (early p : Bool) {inp : Nat} (cws : List Word) (w : HostWorld) (hlen : cws.length ≤ 65535)
    (hin : CodewordsAt w.mem inp cws) :
    Ends (checkBlock .man early inp (2 * cws.length) p w) fun w' ok =>
      ok = cws.all manValid ∧ w'.block.arch.pol = w.block.arch.pol ∧ w'.mem = w.mem := by
  obtain ⟨heven, hhalf⟩ := even_div_two cws.length
  simp only [checkBlock, wholeCodewords_of_even heven, hhalf, blockFits_of_le hlen, andThen_next]
  refine (ends_beginBlock w).andThen fun w1 _ ⟨harch1, hmem1⟩ => ?_
  rw [openCheck, andThen_done]
  refine (ends_checkLoop_man early cws 0 w1 (hmem1 ▸ hin)).andThen fun w2 _ ⟨herr, hpol, hmem⟩ => ?_
  rw [harch1] at herr hpol
  simp only [issue_eq, andThen_next, ends_done, performed_arch, performed_mem, effect_csrrStatus, okWith, csrRead_status_err,
    herr, hpol, hmem, hmem1, writeCount_err, writeStatus_err, writeCount_pol, writeStatus_pol]
  simp

theorem getLsbD_packBits_map_symbols {n j : Nat} (f : Symbol → Bool) (x : Word) (hj : j < n) (hn : n ≤ 16) :
    (packBits ((symbols n x).map f)).getLsbD j = f ⟨firstBit x j, secondBit x j⟩ := by
  rw [getLsbD_packBits, ← List.map_reverse, List.getD_eq_getElem?_getD, List.getElem?_map, getElem?_reverse_symbols x hj]
  simp [show j < 16 by omega]

theorem effects_manDecB (cws : List Word) (a : Arch) :
    effects (cws.map .manDecB) a = (a, cws.map fun cw => (manDec 8 cw a).2) := by
  induction cws with
  | nil => rfl
  | cons cw cws ih =>
    have hunit : effect (.manDecB cw) a = manDec 8 cw a := rfl
    have hrecord : (manDec 8 cw a).1 = a := rfl
    rw [List.map_cons, effects_cons, hunit, hrecord, ih]
    rfl

/-- The bits of the byte MAN_DEC answers to a well-formed codeword (R81). -/
theorem getLsbD_manDec_of_ok {cw : Word} (a : Arch) (hok : ManOk 8 cw) {b : Nat} (hb : b < 8) :
    ((manDec 8 cw a).2.dout.extractLsb' 0 8).getLsbD b = (secondBit cw b ^^ a.pol) := by
  have hbit := getLsbD_packBits_map_symbols (manDecodeBit a.pol) cw hb (by omega)
  rw [manDecodeBit_of_ok _ _ (by simpa [manSymbolOk] using hok b hb)] at hbit
  rw [BitVec.getLsbD_extractLsb', Nat.zero_add, decide_eq_true hb, Bool.true_and]
  exact hbit

/-- Settles O49: the check answers whether every codeword is valid, and only then the decode runs. -/
theorem twoPhaseDecodeIsAllOrNothing : Obligations.TwoPhaseDecodeIsAllOrNothing := by
  unfold Obligations.TwoPhaseDecodeIsAllOrNothing
  intro w early inp out cws hlen hin hbuffers
  obtain ⟨heven, hhalf⟩ := even_div_two cws.length
  obtain ⟨w1, _, hcheck, rfl, hpol, hmem⟩ := ends_checkBlock_man early false cws w hlen hin
  have hall : cws.all manValid = true ↔ ∀ cw ∈ cws, ManOk 8 cw := by simp only [List.all_eq_true, manValid_iff]
  simp only [twoPhaseDecode, blockToDecode_of_ok heven (hhalf.symm ▸ hlen) hbuffers, hcheck, hhalf, andThen_next]
  split
  · next hok =>
    obtain ⟨w2, _, hrun, -, hmem2⟩ := ends_forUp_decodeOne .manDecB (k := 0) (w := w1) (hmem ▸ hin)
      (by simpa using roomToDecode_of_buffersOk hbuffers)
    rw [hmem, Nat.add_zero] at hmem2
    refine ⟨w2, by rw [if_pos (hall.mpr hok), hrun]; rfl, fun k hk => ?_, ?_⟩
    · have hbyte := bytesAt_storeBytes w.mem out (decodedBytes .manDecB cws w1.block.arch) k (by simpa using hk)
      refine ⟨_, hmem2 ▸ hbyte, fun b hb => ?_⟩
      simp only [decodedBytes, effects_manDecB, List.getElem_map]
      rw [getLsbD_manDec_of_ok _ (hok _ (List.getElem_mem hk)) hb, hpol]
    · have hsame := sameOutside_storeBytes w.mem out (decodedBytes .manDecB cws w1.block.arch)
      rwa [← hmem2, length_decodedBytes] at hsame
  · next hbad => exact ⟨w1, by rw [if_neg (mt hall.mp hbad)]; rfl, hmem⟩

/-! ## Decoding what was encoded: Manchester with the partial-success count (R48, R53) -/

/-- The low byte of a byte's eight data bits packed again is the byte. -/
theorem extract_packBits_dataBits (d : Byte) : (packBits (dataBits 8 (d.setWidth 16))).extractLsb' 0 8 = d := by
  refine BitVec.eq_of_getLsbD_eq fun k hk => ?_
  rw [BitVec.getLsbD_extractLsb', Nat.zero_add, getLsbD_packBits_dataBits _ _ _ (by omega), BitVec.getLsbD_setWidth]
  simp [hk, show k < 16 by omega]

theorem effects_encodeCommands_man (ds : List Byte) (a : Arch) :
    effects (encodeCommands .man ds) a = (a, ds.map fun d => okWith (manCode a.pol d)) := by
  induction ds with
  | nil => rfl
  | cons d ds ih =>
    rw [encodeCommands, List.map_cons, effects_cons, effect_manEncB, ← encodeCommands, ih]
    rfl

theorem codewordsOf_man (ds : List Byte) (a : Arch) : codewordsOf .man ds a = ds.map (manCode a.pol) := by
  rw [codewordsOf, effects_encodeCommands_man, List.map_map]
  rfl

theorem manValid_manCode (pol : Bool) (d : Byte) : manValid (manCode pol d) = true := by
  simp [manValid, symbols_manCode]

theorem effect_manDeccB_manCode (d : Byte) (a : Arch) :
    effect (.manDeccB (manCode a.pol d)) a = (account true a, okWith (packBits (dataBits 8 (d.setWidth 16)))) := by
  have hbits : ((dataBits 8 (d.setWidth 16)).map (msym a.pol)).map (manPlainBit a.pol) = dataBits 8 (d.setWidth 16) := by
    simp [Function.comp_def, manPlainBit_msym]
  rw [effect_manDeccB_of_valid _ (manValid_manCode _ _), symbols_manCode, hbits]

/-- The combined decode of Manchester codewords keeps ERR as it was and gives the bytes back. -/
theorem effects_manDeccB_manCode (ds : List Byte) (pol : Bool) (a : Arch) (hpol : a.pol = pol) :
    (effects ((ds.map (manCode pol)).map .manDeccB) a).1.err = a.err ∧
      decodedBytes .manDeccB (ds.map (manCode pol)) a = ds := by
  subst hpol
  induction ds generalizing a with
  | nil => exact ⟨rfl, rfl⟩
  | cons d ds ih =>
    obtain ⟨herr, hbytes⟩ := ih (account true a)
    rw [account_pol] at herr hbytes
    simp only [decodedBytes, List.map_cons, effects_cons, effect_manDeccB_manCode, okWith,
      extract_packBits_dataBits] at hbytes ⊢
    exact ⟨by rw [herr, account_err]; simp, by rw [hbytes]⟩

/-- RESULT reads 0 while ERR is clear (R29). -/
theorem csrRead_result_of_ok {a : Arch} (h : a.err = false) : csrRead .result a = 0x0000#16 := by
  rw [csrRead, h]; rfl

/-- COMBINED_DECODE of a block of Manchester codewords reports full success and writes their bytes. -/
theorem ends_combinedDecode_manCode {inp out : Nat} (ds : List Byte) (w : HostWorld) (hlen : ds.length ≤ 65535)
    (hin : CodewordsAt w.mem inp (ds.map (manCode w.block.arch.pol)))
    (hbuffers : DecodeBuffersOk inp (2 * ds.length) out) :
    Ends (combinedDecode inp (2 * ds.length) out w) fun w' r =>
      r = (0x0000#16, false) ∧ w'.mem = storeBytes w.mem out ds := by
  obtain ⟨heven, hhalf⟩ := even_div_two ds.length
  simp only [combinedDecode, blockToDecode_of_ok heven (hhalf.symm ▸ hlen) hbuffers, hhalf, andThen_next]
  refine (ends_beginBlock w).andThen fun w1 _ ⟨harch1, hmem1⟩ => ?_
  have hcws : (ds.map (manCode w.block.arch.pol)).length = ds.length := List.length_map _
  have hroom : RoomToDecode inp (0 + (ds.map (manCode w.block.arch.pol)).length) out := by
    simpa using roomToDecode_of_buffersOk hbuffers
  have hvalid : ∀ cw ∈ ds.map (manCode w.block.arch.pol), manValid cw = true := by
    simp [manValid_manCode]
  have hloop := combinedLoop_of_valid (k := 0) (w := w1) 0 hvalid (hmem1 ▸ hin) hroom
  rw [hcws, Nat.add_zero] at hloop
  obtain ⟨w2, _, hrun, harch2, hmem2⟩ := ends_forUp_decodeOne .manDeccB (k := 0) (w := w1) (hmem1 ▸ hin) hroom
  rw [hcws] at hrun
  obtain ⟨herr, hbytes⟩ := effects_manDeccB_manCode ds w.block.arch.pol w1.block.arch (by rw [harch1]; rfl)
  rw [← harch2, harch1] at herr
  rw [hbytes, hmem1] at hmem2
  have herr2 : w2.block.arch.err = false := herr
  simp only [hloop, hrun, combinedLoop, andThen_next, andThen_done, issue_eq, ends_done, performed_arch, performed_mem,
    effect_csrrResult, effect_csrrStatus, okWith, csrRead_result_of_ok herr2, csrRead_status_err, herr2, hmem2,
    Nat.add_zero, and_self]

/-- Settles O48: the encode leaves the Manchester codewords of the input, all valid, and their decode is the input. -/
theorem encodeThenCombinedDecodeIsTheInput : Obligations.EncodeThenCombinedDecodeIsTheInput := by
  unfold Obligations.EncodeThenCombinedDecodeIsTheInput
  intro w inp out dec ds hlen hin hapart hbuffers
  obtain ⟨w1, _, hencode, harch1, hmem1, rfl⟩ := ends_encodeBuffer .man false hin hapart
  have hrecord : w1.block.arch = w.block.arch := by rw [harch1, effects_encodeCommands_man]; rfl
  have hcws := codewordsOf_man ds (openedRecord .man false w.block.arch)
  rw [hcws] at hmem1
  have hcodewords := codewordsAt_storeCodewords w.mem out (ds.map (manCode w.block.arch.pol))
  have hin1 : CodewordsAt w1.mem out (ds.map (manCode w1.block.arch.pol)) := by
    rw [hrecord, hmem1]; exact hcodewords
  obtain ⟨w2, _, hdecode, rfl, hmem2⟩ := ends_combinedDecode_manCode ds w1 hlen hin1 hbuffers
  refine ⟨w1, w2, hencode, hdecode, hmem2 ▸ bytesAt_storeBytes _ _ _, fun a hout hdec => ?_⟩
  calc w2.mem.read a = w1.mem.read a := by rw [hmem2]; exact sameOutside_storeBytes _ _ _ a hdec
    _ = w.mem.read a := by
      rw [hmem1]; exact sameOutside_storeCodewords _ _ _ a (by simpa using hout)

/-! ## Decoding what was encoded: the stateful codes (R48, R54) -/

theorem effect_dmDecB (cw : Word) (a : Arch) :
    effect (.dmDecB cw) a = (advancePrev (symbols 8 cw) a, okWith (packBits (dmBits a.prev (symbols 8 cw)))) := rfl

theorem effect_bmcDecB (cw : Word) (a : Arch) :
    effect (.bmcDecB cw) a = (advancePrev (symbols 8 cw) a, okWith (packBits ((symbols 8 cw).map bmcBit))) := rfl

/-- A byte command of a stateful code, and the decode of its codeword from the same record: the same record after it, and
the data bits. -/
theorem effect_decodeByte_codeword (code : StatefulCode) (din : Word) (a : Arch) :
    effect (decodeByte code (effect (encodeByte (.stateful code) din) a).2.dout) a =
      ((effect (encodeByte (.stateful code) din) a).1, okWith (packBits (dataBits 8 din))) := by
  have hround := symbols_packSymbols (lineSymbols (.stateful code) a (dataBits 8 din)) (by simp)
  rw [length_lineSymbols, length_dataBits] at hround
  rw [encodeByte_eq, effect_encodeAt, unitsOf_byte]
  cases code with
  | dm =>
    rw [decodeByte, effect_dmDecB, okWith, hround]
    simp only [lineSymbols, lineRecord, dmBits_dmSymbols]
  | bmc =>
    rw [decodeByte, effect_bmcDecB, okWith, hround]
    simp only [lineSymbols, lineRecord, bmcBit_bmcSymbols]

/-- A run of bytes encoded by a stateful code and decoded from the record the encode began with. -/
theorem effects_decodeByte_codewordsOf (code : StatefulCode) (ds : List Byte) (a : Arch) :
    (effects ((codewordsOf (.stateful code) ds a).map (decodeByte code)) a).1 =
        (effects (encodeCommands (.stateful code) ds) a).1 ∧
      decodedBytes (decodeByte code) (codewordsOf (.stateful code) ds a) a = ds := by
  induction ds generalizing a with
  | nil => exact ⟨rfl, rfl⟩
  | cons d ds ih =>
    obtain ⟨hrecord, hbytes⟩ := ih (effect (encodeByte (.stateful code) (d.setWidth 16)) a).1
    have hcws : codewordsOf (.stateful code) (d :: ds) a =
        (effect (encodeByte (.stateful code) (d.setWidth 16)) a).2.dout ::
          codewordsOf (.stateful code) ds (effect (encodeByte (.stateful code) (d.setWidth 16)) a).1 := rfl
    have hunit := effect_decodeByte_codeword code (d.setWidth 16) a
    rw [decodedBytes, hcws, List.map_cons, effects_cons, hunit]
    refine ⟨hrecord, ?_⟩
    rw [List.map_cons]
    exact congrArg₂ List.cons (extract_packBits_dataBits d) hbytes

/-- An encode of a stateful code changes PREV only, so that the same boundary bit opens the same record again. -/
theorem openedRecord_of_encoded (code : StatefulCode) (p : Bool) (ds : List Byte) (a : Arch) :
    openedRecord (.stateful code) p
        (effects (encodeCommands (.stateful code) ds) (openedRecord (.stateful code) p a)).1 =
      openedRecord (.stateful code) p a := by
  have hcommands : encodeCommands (.stateful code) ds =
      (ds.map fun d => (Width.byte, d.setWidth 16)).map fun x => encodeAt (.stateful code) x.2 x.1 := by
    rw [encodeCommands, List.map_map]
    exact List.map_congr_left fun d _ => encodeByte_eq _ _
  rw [hcommands, (effects_encodeAt _ _ _).1]
  rfl

/-- DECODE_BUFFER of a block that fits its buffers. -/
theorem ends_decodeBuffer (code : StatefulCode) {inp out : Nat} (p : Bool) (cws : List Word) (w : HostWorld)
    (hin : CodewordsAt w.mem inp cws) (hbuffers : DecodeBuffersOk inp (2 * cws.length) out) :
    Ends (decodeBuffer code inp (2 * cws.length) out p w) fun w' b =>
      w'.block.arch = (effects (cws.map (decodeByte code)) (openedRecord (.stateful code) p w.block.arch)).1 ∧
      w'.mem = storeBytes w.mem out
        (decodedBytes (decodeByte code) cws (openedRecord (.stateful code) p w.block.arch)) ∧
      b = boundaryBit (.stateful code) w'.block.arch := by
  obtain ⟨heven, hhalf⟩ := even_div_two cws.length
  simp only [decodeBuffer, wholeCodewords_of_even heven, decodeBuffers_of_ok hbuffers, hhalf, andThen_next]
  refine (ends_openStream (.stateful code) p w).andThen fun w1 _ ⟨harch1, hmem1⟩ => ?_
  refine (ends_forUp_decodeOne (decodeByte code) (k := 0) (w := w1) (hmem1 ▸ hin)
    (by simpa using roomToDecode_of_buffersOk hbuffers)).andThen fun w2 _ ⟨harch2, hmem2⟩ => ?_
  refine (ends_closeStream (.stateful code) w2).imp fun w3 b ⟨hb, harch3, hmem3⟩ => ⟨?_, ?_, ?_⟩
  · rw [harch3, harch2, harch1]
  · rw [hmem3, hmem2, hmem1, harch1]; rfl
  · rw [hb, harch3]

/-- Settles O52: the decode begins with the record the encode began with, and follows it codeword by codeword. -/
theorem statefulBufferRoundTrip : Obligations.StatefulBufferRoundTrip := by
  unfold Obligations.StatefulBufferRoundTrip
  intro code w inp out dec p ds hin hapart hbuffers
  obtain ⟨w1, _, hencode, harch1, hmem1, rfl⟩ := ends_encodeBuffer (.stateful code) p hin hapart
  have hin1 : CodewordsAt w1.mem out (codewordsOf (.stateful code) ds (openedRecord (.stateful code) p w.block.arch)) :=
    hmem1 ▸ codewordsAt_storeCodewords _ _ _
  obtain ⟨w2, _, hdecode, harch2, hmem2, rfl⟩ := ends_decodeBuffer code p _ w1 hin1 (by simpa using hbuffers)
  rw [length_codewordsOf] at hdecode
  obtain ⟨hrecord, hbytes⟩ := effects_decodeByte_codewordsOf code ds (openedRecord (.stateful code) p w.block.arch)
  rw [harch1, openedRecord_of_encoded] at harch2 hmem2
  rw [hbytes] at hmem2
  have hsame : w2.block.arch = w1.block.arch := harch2.trans (hrecord.trans harch1.symm)
  exact ⟨w1, w2, w1.block.arch.prev, hencode, hsame ▸ hdecode, hmem2 ▸ bytesAt_storeBytes _ _ _⟩

end Sys2Proof.Proofs
end

section
/-! PROOFS. Which words decode. The decoder reads the four fields of a word, and each of its errors names a field that R67 or
R68 forbids; no encoding is forbidden, so the words it refuses are exactly the illegal ones. -/

namespace Sys2Proof.Proofs

open Sys2Proof Sys2Proof.Machine Sys2Proof.Certificates

/-- Settles O17, by the decode of each row's word. -/
theorem decodeOfEncodeIsTheInstruction : Obligations.DecodeOfEncodeIsTheInstruction := by
  unfold Obligations.DecodeOfEncodeIsTheInstruction
  exact fun i => ⟨wellFormed_eq_true i, decode_encode i⟩

/-- Settles O18: the fields the decoder reads are the ones the encoder puts back. -/
theorem encodeOfDecodeIsTheCommand : Obligations.EncodeOfDecodeIsTheCommand := by
  unfold Obligations.EncodeOfDecodeIsTheCommand
  exact fun c i => encode_of_decode

/-! ## The fields of a word as numbers (R63) -/

section Fields

variable (cmd : CmdWord)

theorem opField_toNat : (opField cmd).toNat = cmd.toNat / 16 := by
  have hlt := cmd.isLt
  simp only [opField, BitVec.extractLsb'_toNat, Nat.shiftRight_eq_div_pow]
  omega

theorem wField_toNat : (wField cmd).toNat = cmd.toNat / 4 % 4 := by
  simp [wField, Nat.shiftRight_eq_div_pow]

theorem zField_toNat : (zField cmd).toNat = cmd.toNat % 4 := by
  simp [zField]

theorem kField_toNat : (kField cmd).toNat = cmd.toNat % 16 := by
  simp [kField]

end Fields

/-! ## What an error of the decoder says of the word -/

section Errors

variable {cmd : CmdWord} {din : Word} {e : IllegalWord}

theorem toNat_eq_three_of_widthOf {w : BitVec 2} (h : widthOf w = none) : w.toNat = 3 := by
  revert w; decide

theorem widthOf_byte {w : BitVec 2} (h : w.toNat = 2) : widthOf w = some .byte := by
  revert w; decide

theorem decodeAnyWidth_error {make : Width → Instr} (h : decodeAnyWidth cmd make = .error e) :
    cmd.toNat / 4 % 4 = 3 ∨ cmd.toNat % 4 ≠ 0 := by
  rw [← wField_toNat, ← zField_toNat]
  unfold decodeAnyWidth at h
  split at h
  · next hz => exact .inr fun h0 => by simp [BitVec.toNat_eq, h0] at hz
  · split at h
    · cases h
    · next hw => exact .inl (toNat_eq_three_of_widthOf hw)

theorem decodeByteOnly_error {i : Instr} (h : decodeByteOnly cmd i = .error e) :
    cmd.toNat / 4 % 4 ≠ 2 ∨ cmd.toNat % 4 ≠ 0 := by
  rw [← wField_toNat, ← zField_toNat]
  unfold decodeByteOnly at h
  split at h
  · next hz => exact .inr fun h0 => by simp [BitVec.toNat_eq, h0] at hz
  · refine .inl fun hw => ?_
    rw [widthOf_byte hw] at h
    cases h

theorem decodeCsrr_error {k : BitVec 4} (h : decodeCsrr k din = .error e) : 5 ≤ k.toNat := by
  unfold decodeCsrr at h
  split at h <;> cases h
  simp only [imp_false] at *
  omega

theorem decodeCsrw_error {k : BitVec 4} (h : decodeCsrw k din = .error e) : 4 ≤ k.toNat := by
  unfold decodeCsrw at h
  split at h <;> cases h
  simp only [imp_false] at *
  omega

/-- A word of an operation of any width that is refused is illegal by R67 (b) or (c). -/
theorem illegalByR67_of_decodeAnyWidth {op : Nat} {make : Width → Instr} (hop : (opField cmd).toNat = op)
    (hrange : 1 ≤ op ∧ op ≤ 0xA) (h : decodeAnyWidth cmd make = .error e) : IllegalByR67 cmd := by
  rw [opField_toNat] at hop
  have hfield := decodeAnyWidth_error h
  unfold IllegalByR67
  omega

/-- A word of an operation of byte width only that is refused is illegal by R67 (c) or (d). -/
theorem illegalByR67_of_decodeByteOnly {op : Nat} {i : Instr} (hop : (opField cmd).toNat = op)
    (hrange : op = 4 ∨ op = 0xA) (h : decodeByteOnly cmd i = .error e) : IllegalByR67 cmd := by
  rw [opField_toNat] at hop
  have hfield := decodeByteOnly_error h
  unfold IllegalByR67
  omega

/-- Every word the decoder refuses is one that R67 and R68 call illegal. -/
theorem illegalByR67_of_decodeWord (h : decodeWord cmd din = .error e) : IllegalByR67 cmd := by
  unfold decodeWord at h
  split at h
  · next hop =>
    split at h <;> cases h
    next hk =>
      have hnumber : (kField cmd).toNat ≠ 0 := fun h0 => hk (by simp [BitVec.toNat_eq, h0])
      rw [kField_toNat] at hnumber
      rw [opField_toNat] at hop
      exact .inr (.inr (.inr (.inl ⟨hop, hnumber⟩)))
  · next hop => exact illegalByR67_of_decodeAnyWidth hop (by omega) h
  · next hop => exact illegalByR67_of_decodeAnyWidth hop (by omega) h
  · next hop => exact illegalByR67_of_decodeAnyWidth hop (by omega) h
  · next hop => exact illegalByR67_of_decodeByteOnly hop (by omega) h
  · next hop => exact illegalByR67_of_decodeAnyWidth hop (by omega) h
  · next hop => exact illegalByR67_of_decodeAnyWidth hop (by omega) h
  · next hop => exact illegalByR67_of_decodeAnyWidth hop (by omega) h
  · next hop => exact illegalByR67_of_decodeAnyWidth hop (by omega) h
  · next hop => exact illegalByR67_of_decodeAnyWidth hop (by omega) h
  · next hop => exact illegalByR67_of_decodeByteOnly hop (by omega) h
  · next hop =>
    have hnumber := decodeCsrr_error h
    rw [kField_toNat] at hnumber
    rw [opField_toNat] at hop
    exact .inr (.inr (.inr (.inr (.inl ⟨hop, hnumber⟩))))
  · next hop =>
    have hnumber := decodeCsrw_error h
    rw [kField_toNat] at hnumber
    rw [opField_toNat] at hop
    exact .inr (.inr (.inr (.inr (.inr ⟨hop, hnumber⟩))))
  · have hreserved : 0xD ≤ (opField cmd).toNat := by
      simp only [imp_false] at *
      omega
    rw [opField_toNat] at hreserved
    exact .inl hreserved

end Errors

theorem decode_error_iff (c : Command) : (∃ e, decode c = .error e) ↔ IllegalByR67 c.cmd := by
  constructor
  · rintro ⟨e, he⟩
    exact illegalByR67_of_decodeWord he
  · intro hillegal
    cases hdec : decode c with
    | error e => exact ⟨e, rfl⟩
    | ok i =>
      rw [← encode_of_decode hdec] at hillegal
      exact absurd hillegal (not_illegalByR67_encode i)

/-- Settles O15: an error names a forbidden field, and what decodes is an encoding, which has none. -/
theorem decoderRefusesExactlyIllegalWords : Obligations.DecoderRefusesExactlyIllegalWords := by
  unfold Obligations.DecoderRefusesExactlyIllegalWords
  exact decode_error_iff

/-- Settles O16, by running the decoder over the 256 words. -/
theorem legalWordsAreTheThirtySix : Obligations.LegalWordsAreTheThirtySix := by
  unfold Obligations.LegalWordsAreTheThirtySix
  decide

end Sys2Proof.Proofs
end

section
/-! PROOFS. What an instruction answers (R62, R150): its response code is that of a check, which fails exactly where the input
holds a malformed symbol. So `ILLEGAL` is the answer to illegal words alone. -/

namespace Sys2Proof.Proofs

open Sys2Proof Sys2Proof.Machine Sys2Proof.Certificates

/-! ## The checks, symbol by symbol -/

theorem all_manSymbolOk_symbols_iff (n : Nat) (x : Word) :
    (symbols n x).all manSymbolOk = true ↔ ManOk n x := by
  induction n with
  | zero => exact iff_of_true rfl fun j hj => absurd hj j.not_lt_zero
  | succ n ih =>
    have hhead : manSymbolOk ⟨firstBit x n, secondBit x n⟩ = true ↔ firstBit x n ≠ secondBit x n := by
      simp [manSymbolOk]
    rw [symbols, List.all_cons, Bool.and_eq_true, ih, and_comm]
    exact (and_congr_right fun _ => hhead).trans Nat.forall_lt_succ_right.symm

theorem levelBefore_last (p : Bool) (n : Nat) (x : Word) : levelBefore p (n + 1) x n = p := by
  simp [levelBefore]

/-- Below its last symbol a word of n + 1 symbols has the levels of a word of n that began where that symbol ended. -/
theorem levelBefore_succ {p : Bool} {n j : Nat} {x : Word} (h : j < n) :
    levelBefore p (n + 1) x j = levelBefore (secondBit x n) n x j := by
  unfold levelBefore
  rw [if_neg (by omega)]
  split
  · next hlast => rw [hlast]
  · rfl

theorem bmcValid_symbols_iff (p : Bool) (n : Nat) (x : Word) : bmcValid p (symbols n x) = true ↔ BmcOk p n x := by
  induction n generalizing p with
  | zero => exact iff_of_true rfl fun j hj => absurd hj j.not_lt_zero
  | succ n ih =>
    have hhead : (firstBit x n != p) = true ↔ firstBit x n ≠ levelBefore p (n + 1) x n := by
      simp [levelBefore_last]
    have hrest : BmcOk (secondBit x n) n x ↔ ∀ j < n, firstBit x j ≠ levelBefore p (n + 1) x j :=
      forall₂_congr fun j hj => by rw [levelBefore_succ hj]
    rw [symbols, bmcValid, Bool.and_eq_true, and_comm]
    exact (and_congr ((ih _).trans hrest) hhead).trans Nat.forall_lt_succ_right.symm

/-! ## The response code of an instruction -/

/-- Every instruction answers the code of a check, which fails exactly on a malformed input. -/
theorem effect_rsp (i : Instr) (a : Arch) :
    ∃ valid, (effect i a).2.rsp = codeOfCheck valid ∧ (valid = true ↔ ¬ MalformedInput a i) := by
  have hman (n : Nat) (x : Word) : (symbols n x).all manSymbolOk = true ↔ ¬¬ ManOk n x := by
    rw [not_not, all_manSymbolOk_symbols_iff]
  have hbmc (n : Nat) (x : Word) : bmcValid a.prev (symbols n x) = true ↔ ¬¬ BmcOk a.prev n x := by
    rw [not_not, bmcValid_symbols_iff]
  cases i with
  | manDec1 din | manChk1 din => exact ⟨_, rfl, hman 1 din⟩
  | manDecN din | manChkN din => exact ⟨_, rfl, hman 4 din⟩
  | manDecB din | manDeccB din | manChkB din => exact ⟨_, rfl, hman 8 din⟩
  | bmcChk1 din => exact ⟨_, rfl, hbmc 1 din⟩
  | bmcChkN din => exact ⟨_, rfl, hbmc 4 din⟩
  | bmcChkB din => exact ⟨_, rfl, hbmc 8 din⟩
  | _ => exact ⟨true, rfl, iff_of_true rfl not_false⟩

theorem codeOfCheck_eq_malformed (valid : Bool) : codeOfCheck valid = .malformed ↔ valid ≠ true := by
  cases valid <;> decide

theorem codeOfCheck_eq_ok (valid : Bool) : codeOfCheck valid = .ok ↔ valid = true := by
  cases valid <;> decide

theorem codeOfCheck_ne_illegal (valid : Bool) : codeOfCheck valid ≠ .illegal := by
  cases valid <;> decide

theorem effect_rsp_eq_malformed (i : Instr) (a : Arch) : (effect i a).2.rsp = .malformed ↔ MalformedInput a i := by
  obtain ⟨valid, hrsp, hvalid⟩ := effect_rsp i a
  rw [hrsp, codeOfCheck_eq_malformed, ne_eq, hvalid, not_not]

theorem effect_rsp_eq_ok (i : Instr) (a : Arch) : (effect i a).2.rsp = .ok ↔ ¬ MalformedInput a i := by
  obtain ⟨valid, hrsp, hvalid⟩ := effect_rsp i a
  rw [hrsp, codeOfCheck_eq_ok, hvalid]

theorem effect_rsp_ne_illegal (i : Instr) (a : Arch) : (effect i a).2.rsp ≠ .illegal := by
  obtain ⟨valid, hrsp, -⟩ := effect_rsp i a
  rw [hrsp]
  exact codeOfCheck_ne_illegal valid

/-- Only an instruction that checks its input has an input it calls malformed. -/
theorem mayBeMalformed_of_malformedInput {a : Arch} {i : Instr} (h : MalformedInput a i) :
    Safety.mayBeMalformed i = true := by
  cases i with
  | manDec1 _ | manDecN _ | manDecB _ | manDeccB _ | manChk1 _ | manChkN _ | manChkB _ | bmcChk1 _ | bmcChkN _
  | bmcChkB _ => rfl
  | _ => exact False.elim h

theorem bits_ne_three (r : ResponseCode) : r.bits ≠ 0b11#2 := by
  cases r <;> decide

/-! ## The response to a command -/

/-- An accepted command is an instruction, which finishes with its effect, or an illegal word, which finishes with R151's. -/
theorem accept_finishes (c : Command) (s : State) :
    (∃ i, encode i = c ∧ accept c s = finish s (effect i s.arch)) ∨
    (IllegalByR67 c.cmd ∧ accept c s = finish s (illegalEffect s.arch)) := by
  obtain ⟨i, hdec, hacc⟩ | ⟨e, hdec, hacc⟩ := accept_cases c s
  · exact .inl ⟨i, encode_of_decode hdec, hacc.trans (exec_eq_finish_effect i s)⟩
  · exact .inr ⟨(decode_error_iff c).mp ⟨e, hdec⟩, hacc⟩

/-- An accepted command leaves a conforming response. -/
theorem conforms_of_accept {c : Command} {s t : State} (h : accept c s = .next t) : Safety.Conforms t := by
  intro r hr
  refine ⟨bits_ne_three _, fun hillegal => ?_⟩
  obtain ⟨i, -, hacc⟩ | ⟨-, hacc⟩ := accept_finishes c s
  · obtain ⟨-, hresponse, -, -⟩ := finish_next (hacc.symm.trans h)
    obtain rfl := Option.some.inj (hresponse.symm.trans hr)
    exact absurd hillegal (effect_rsp_ne_illegal i s.arch)
  · obtain ⟨harch, hresponse, -, -⟩ := finish_next (hacc.symm.trans h)
    obtain rfl := Option.some.inj (hresponse.symm.trans hr)
    exact ⟨rfl, by rw [harch, illegalEffect_ill]⟩

/-- Settles O24: only a command leaves a response, and an illegal one sets ILL in the same step. -/
theorem stepKeepsTheResponseConforming : Obligations.StepKeepsTheResponseConforming := by
  unfold Obligations.StepKeepsTheResponseConforming
  intro s t _ h
  obtain ⟨-, hstep⟩ | ⟨c, rest, -, hstep⟩ | ⟨rest, -, hstep⟩ | ⟨rest, -, hstep⟩ := step_cases s <;> rw [hstep] at h
  case inr.inl => exact conforms_of_accept h
  all_goals
    cases h
    exact conforms_of_no_response rfl

/-- Settles O23: a code of a check answers an instruction, and R151's effect answers exactly the illegal words. -/
theorem responseCodesAsListed : Obligations.ResponseCodesAsListed := by
  unfold Obligations.ResponseCodesAsListed
  refine ⟨⟨rfl, rfl, rfl⟩, bits_ne_three, ?instruction, ?command⟩
  case instruction =>
    intro i s
    exact ⟨_, _, exec_eq_finish_effect i s, effect_rsp_eq_malformed i s.arch, effect_rsp_eq_ok i s.arch,
      fun h => mayBeMalformed_of_malformedInput ((effect_rsp_eq_malformed i s.arch).mp h)⟩
  case command =>
    intro s c rest hin
    rw [step_of_command hin]
    obtain ⟨i, rfl, hacc⟩ | ⟨hillegal, hacc⟩ := accept_finishes c { s with input := rest }
    · have hcode := effect_rsp_ne_illegal i s.arch
      exact ⟨_, _, hacc, rfl, iff_of_false hcode (not_illegalByR67_encode i), fun h => absurd h hcode⟩
    · exact ⟨_, _, hacc, rfl, iff_of_true rfl hillegal, fun _ => rfl⟩

end Sys2Proof.Proofs
end

section
/-! PROOFS. What of its operand a command reads (R64): a meaning takes the operand's data bits or its symbols and nothing else
of `din`, so the bits above them change nothing. -/

namespace Sys2Proof.Proofs

open Sys2Proof Sys2Proof.Machine Sys2Proof.Certificates

section OperandRead

variable {n : Nat} {x y : Word}

theorem manEnc_congr (h : dataBits n x = dataBits n y) : manEnc n x = manEnc n y := by
  funext a; rw [manEnc, manEnc, manCodeword, manCodeword, h]

theorem dmEnc_congr (h : dataBits n x = dataBits n y) : dmEnc n x = dmEnc n y := by
  funext a; rw [dmEnc, dmEnc, h]

theorem bmcEnc_congr (h : dataBits n x = dataBits n y) : bmcEnc n x = bmcEnc n y := by
  funext a; rw [bmcEnc, bmcEnc, h]

theorem trans_congr (h : dataBits 8 x = dataBits 8 y) : Machine.trans x = Machine.trans y := by
  funext a; rw [Machine.trans, Machine.trans, h]

theorem manDec_congr (h : symbols n x = symbols n y) : manDec n x = manDec n y := by
  funext a; rw [manDec, manDec, h]

theorem manChk_congr (h : symbols n x = symbols n y) : manChk n x = manChk n y := by
  funext a; rw [manChk, manChk, h]

theorem dmDec_congr (h : symbols n x = symbols n y) : dmDec n x = dmDec n y := by
  funext a; rw [dmDec, dmDec, h]

theorem bmcDec_congr (h : symbols n x = symbols n y) : bmcDec n x = bmcDec n y := by
  funext a; rw [bmcDec, bmcDec, h]

theorem bmcChk_congr (h : symbols n x = symbols n y) : bmcChk n x = bmcChk n y := by
  funext a; rw [bmcChk, bmcChk, h]

/-- Commands with the same meaning on the record finish alike. -/
theorem finish_congr {f g : Arch → Arch × Response} (s : State) (h : f = g) : finish s (f s.arch) = finish s (g s.arch) := by
  rw [h]

end OperandRead

/-- Settles O30, operand width by operand width: the bits a command reads are those on which the operands agree. -/
theorem operandBitsAboveAreIgnored : Obligations.OperandBitsAboveAreIgnored := by
  unfold Obligations.OperandBitsAboveAreIgnored
  intro s x y g hg
  simp only [List.mem_cons, List.not_mem_nil, or_false] at hg
  obtain rfl | rfl | rfl | rfl | rfl := hg <;> intro hbits make hmake <;>
    simp only [List.mem_cons, List.not_mem_nil, or_false] at hmake
  case inl =>
    obtain rfl | rfl | rfl | rfl | rfl | rfl := hmake <;> rfl
  case inr.inl =>
    have hdata : dataBits 1 x = dataBits 1 y := dataBits_congr 1 x y hbits
    obtain rfl | rfl | rfl | rfl | rfl := hmake
    · exact finish_congr s (manEnc_congr hdata)
    · exact finish_congr s (dmEnc_congr hdata)
    · exact finish_congr s (bmcEnc_congr hdata)
    · rw [exec_csrwCtrl, exec_csrwCtrl, writeCtrl_congr (hbits 0 (by decide))]
    · rw [exec_csrwPrev, exec_csrwPrev, writePrev_congr (hbits 0 (by decide))]
  case inr.inr.inl =>
    have hsymbols : symbols 1 x = symbols 1 y := symbols_congr 1 x y hbits
    obtain rfl | rfl | rfl | rfl | rfl | rfl := hmake
    · exact finish_congr s (manDec_congr hsymbols)
    · exact finish_congr s (manChk_congr hsymbols)
    · exact finish_congr s (dmDec_congr hsymbols)
    · exact finish_congr s (bmcDec_congr hsymbols)
    · exact finish_congr s (bmcChk_congr hsymbols)
    · rw [exec_csrwStatus, exec_csrwStatus, writeStatus_congr (hbits 0 (by decide)) (hbits 1 (by decide))]
  case inr.inr.inr.inl =>
    have hdata : dataBits 4 x = dataBits 4 y := dataBits_congr 4 x y hbits
    obtain rfl | rfl | rfl := hmake
    · exact finish_congr s (manEnc_congr hdata)
    · exact finish_congr s (dmEnc_congr hdata)
    · exact finish_congr s (bmcEnc_congr hdata)
  case inr.inr.inr.inr =>
    have hdata : dataBits 8 x = dataBits 8 y := dataBits_congr 8 x y hbits
    have hsymbols : symbols 4 x = symbols 4 y := symbols_congr 4 x y hbits
    obtain rfl | rfl | rfl | rfl | rfl | rfl | rfl | rfl | rfl := hmake
    · exact finish_congr s (manEnc_congr hdata)
    · exact finish_congr s (dmEnc_congr hdata)
    · exact finish_congr s (bmcEnc_congr hdata)
    · exact finish_congr s (manDec_congr hsymbols)
    · exact finish_congr s (manChk_congr hsymbols)
    · exact finish_congr s (dmDec_congr hsymbols)
    · exact finish_congr s (bmcDec_congr hsymbols)
    · exact finish_congr s (bmcChk_congr hsymbols)
    · exact finish_congr s (trans_congr hdata)

end Sys2Proof.Proofs
end

section
/-! PROOFS. The clocked port (R61, R170). An edge without reset ages the responses due, delivers the one that falls due, and puts
the response of the command it accepts last; the due times stay strictly rising and within the latency, so that a response
stays due until its own edge and is delivered there. -/

namespace Sys2Proof.Proofs

open Sys2Proof Sys2Proof.Machine Sys2Proof.Certificates

/-! ## The list of responses due -/

section Due

variable {lo hi : Nat} {l : List InFlight} {f : InFlight}

/-- The due times rise strictly, and lie in a range. -/
def DueWithin (lo hi : Nat) (l : List InFlight) : Prop :=
  (l.map InFlight.due).Pairwise (· < ·) ∧ ∀ f ∈ l, lo ≤ f.due ∧ f.due ≤ hi

theorem portOrdered_iff (p : PortState) : PortOrdered p ↔ DueWithin 1 Config.latency p.inFlight := Iff.rfl

theorem dueWithin_nil (lo hi : Nat) : DueWithin lo hi [] := ⟨.nil, by simp⟩

theorem dueWithin_cons : DueWithin lo hi (f :: l) ↔ (lo ≤ f.due ∧ f.due ≤ hi) ∧ DueWithin lo hi l ∧ ∀ g ∈ l, f.due < g.due := by
  simp only [DueWithin, List.map_cons, List.pairwise_cons, List.forall_mem_cons, List.forall_mem_map]
  tauto

theorem dueWithin_of_le (h : DueWithin lo hi l) {hi' : Nat} (hle : hi ≤ hi') : DueWithin lo hi' l :=
  ⟨h.1, fun f hf => ⟨(h.2 f hf).1, (h.2 f hf).2.trans hle⟩⟩

/-- An edge brings every response one nearer, and two of them not together. -/
theorem dueWithin_ageAll (h : DueWithin 1 (hi + 1) l) : DueWithin 0 hi (ageAll l) := by
  induction l with
  | nil => exact dueWithin_nil 0 hi
  | cons f l ih =>
    obtain ⟨hf, hl, hrise⟩ := dueWithin_cons.mp h
    refine dueWithin_cons.mpr ⟨by simp only; omega, ih hl, fun g hg => ?_⟩
    obtain ⟨g', hg', rfl⟩ := List.mem_map.mp hg
    have := hrise g' hg'
    simp only
    omega

/-- The responses still due after an edge are due at least one edge later. -/
theorem dueWithin_stillDue (h : DueWithin 0 hi l) : DueWithin 1 hi (stillDue l) := by
  cases l with
  | nil => exact dueWithin_nil 1 hi
  | cons f l =>
    obtain ⟨⟨-, hf⟩, hl, hrise⟩ := dueWithin_cons.mp h
    have hrest : DueWithin 1 hi l := ⟨hl.1, fun g hg => ⟨by have := hrise g hg; omega, (hl.2 g hg).2⟩⟩
    by_cases hdue : f.due = 0
    · simpa [stillDue, hdue] using hrest
    · rw [(stillDue_of_positive f l hdue).1]
      exact dueWithin_cons.mpr ⟨⟨by omega, hf⟩, hrest, hrise⟩

/-- A response put last is due later than all the others. -/
theorem dueWithin_concat (h : DueWithin 1 hi l) (r : Response) : DueWithin 1 (hi + 1) (l ++ [⟨hi + 1, r⟩]) := by
  refine ⟨?_, ?_⟩
  · rw [List.map_append, List.pairwise_append]
    refine ⟨h.1, by simp, fun d hd e he => ?_⟩
    obtain ⟨f, hf, rfl⟩ := List.mem_map.mp hd
    obtain rfl : e = hi + 1 := by simpa using he
    exact Nat.lt_succ_of_le (h.2 f hf).2
  · intro f hf
    obtain hf | rfl : f ∈ l ∨ f = ⟨hi + 1, r⟩ := by simpa using hf
    · exact (dueWithin_of_le h (Nat.le_succ hi)).2 f hf
    · exact ⟨by simp, le_rfl⟩

theorem mem_stillDue (hf : f ∈ l) (hdue : f.due ≠ 0) : f ∈ stillDue l := by
  cases l with
  | nil => cases hf
  | cons g l =>
    by_cases hg : g.due = 0
    · obtain rfl | hmem := List.mem_cons.mp hf
      · exact absurd hg hdue
      · simpa [stillDue, hg] using hmem
    · rwa [(stillDue_of_positive g l hg).1]

/-- The one response that is due now is delivered: it is the first. -/
theorem fallsDue_of_mem (h : DueWithin 0 hi l) (hf : f ∈ l) (hdue : f.due = 0) : fallsDue l = some f.response := by
  cases l with
  | nil => cases hf
  | cons g l =>
    obtain ⟨-, -, hrise⟩ := dueWithin_cons.mp h
    obtain rfl | hmem := List.mem_cons.mp hf
    · simp [fallsDue, hdue]
    · have := hrise f hmem
      omega

end Due

/-! ## One edge -/

section Edge

variable {i : PortIn} {p : PortState}

theorem rst_of_accepts (h : accepts i = true) : i.rst = false := by
  simp only [accepts, Bool.and_eq_true, Bool.not_eq_true'] at h
  exact h.2

/-- A command on the block's record is a step that answers. -/
theorem blockStep_eq_some {c : Command} {a b : Arch} {r : Response} (h : blockStep c a = some (b, r)) :
    ∃ t, step (commandState c a) = .next t ∧ t.response = some r ∧ t.arch = b := by
  unfold blockStep at h
  split at h
  · next t ht =>
    obtain ⟨r', hr, heq⟩ := Option.map_eq_some_iff.mp h
    cases heq
    exact ⟨t, ht, hr, rfl⟩
  · cases h
  · cases h

theorem tick_of_rst (h : i.rst = true) : (tick i p).1 = PortState.reset := by
  simp [tick, h]

theorem tick_of_accepts {a : Arch} {r : Response} (h : accepts i = true)
    (hblock : blockStep ⟨i.cmd, i.din⟩ p.arch = some (a, r)) :
    (tick i p).1 = ⟨a, stillDue (ageAll p.inFlight) ++ [⟨Config.latency, r⟩]⟩ := by
  simp [tick, rst_of_accepts h, h, acceptAt, hblock]

theorem tick_of_not_accepts (h : accepts i = false) (hrst : i.rst = false) :
    (tick i p).1 = ⟨p.arch, stillDue (ageAll p.inFlight)⟩ := by
  simp [tick, hrst, h]

theorem tick_response (hrst : i.rst = false) : (tick i p).2.response = fallsDue (ageAll p.inFlight) := by
  simp [tick, hrst]

/-- What an edge can do: reset the port, put the accepted command's response last, or only let time pass. -/
theorem tick_cases (i : PortIn) (p : PortState) :
    (i.rst = true ∧ (tick i p).1 = PortState.reset) ∨
    (i.rst = false ∧ accepts i = true ∧ ∃ a r, blockStep ⟨i.cmd, i.din⟩ p.arch = some (a, r) ∧
      (tick i p).1 = ⟨a, stillDue (ageAll p.inFlight) ++ [⟨Config.latency, r⟩]⟩) ∨
    (i.rst = false ∧ accepts i = false ∧ (tick i p).1 = ⟨p.arch, stillDue (ageAll p.inFlight)⟩) := by
  cases hrst : i.rst with
  | true => exact .inl ⟨rfl, tick_of_rst hrst⟩
  | false =>
    cases hacc : accepts i with
    | true =>
      obtain ⟨⟨a, r⟩, hblock⟩ := blockStep_isSome ⟨i.cmd, i.din⟩ p.arch
      exact .inr (.inl ⟨rfl, rfl, a, r, hblock, tick_of_accepts hacc hblock⟩)
    | false => exact .inr (.inr ⟨rfl, rfl, tick_of_not_accepts hacc hrst⟩)

end Edge

theorem tick_portOrdered (i : PortIn) {p : PortState} (h : PortOrdered p) : PortOrdered (tick i p).1 := by
  have hwaiting : DueWithin 1 Config.latencyBeyondOne (stillDue (ageAll p.inFlight)) :=
    dueWithin_stillDue (dueWithin_ageAll ((portOrdered_iff p).mp h))
  rw [portOrdered_iff]
  obtain ⟨-, htick⟩ | ⟨-, -, a, r, -, htick⟩ | ⟨-, -, htick⟩ := tick_cases i p <;> rw [htick]
  · exact dueWithin_nil 1 _
  · exact dueWithin_concat hwaiting r
  · exact dueWithin_of_le hwaiting (Nat.le_succ _)

/-- Settles O55: ageing and delivery keep the order one short of the latency, and a new response takes the last place. -/
theorem everyEdgeKeepsResponsesInOrder : Obligations.EveryEdgeKeepsResponsesInOrder := by
  unfold Obligations.EveryEdgeKeepsResponsesInOrder
  exact fun i _ => tick_portOrdered i

/-- Settles O56: what an accepting edge puts at the port is what the step on its command answers. -/
theorem edgePerformsTheAcceptedCommand : Obligations.EdgePerformsTheAcceptedCommand := by
  unfold Obligations.EdgePerformsTheAcceptedCommand
  intro i p
  refine ⟨fun hacc => ?_, fun hacc hrst => ?_⟩
  · obtain ⟨⟨a, r⟩, hblock⟩ := blockStep_isSome ⟨i.cmd, i.din⟩ p.arch
    obtain ⟨t, hstep, hresponse, rfl⟩ := blockStep_eq_some hblock
    rw [tick_of_accepts hacc hblock]
    exact ⟨t, r, hstep, hresponse, rfl, rfl⟩
  · rw [tick_of_not_accepts hacc hrst]
    exact ⟨rfl, rfl⟩

/-! ## A run of edges -/

theorem mem_tick_of_not_due {i : PortIn} {p : PortState} {d : Nat} {r : Response} (hrst : i.rst = false)
    (h : ⟨d + 2, r⟩ ∈ p.inFlight) : ⟨d + 1, r⟩ ∈ (tick i p).1.inFlight := by
  have haged : ⟨d + 1, r⟩ ∈ ageAll p.inFlight := List.mem_map.mpr ⟨_, h, rfl⟩
  have hstill := mem_stillDue haged (Nat.succ_ne_zero d)
  obtain ⟨hreset, -⟩ | ⟨-, -, a, r', -, htick⟩ | ⟨-, -, htick⟩ := tick_cases i p
  · rw [hrst] at hreset
    cases hreset
  · rw [htick]
    exact List.mem_append_left _ hstill
  · rw [htick]
    exact hstill

theorem tick_response_of_due {i : PortIn} {p : PortState} {r : Response} (hp : PortOrdered p) (hrst : i.rst = false)
    (h : ⟨1, r⟩ ∈ p.inFlight) : (tick i p).2.response = some r := by
  rw [tick_response hrst]
  exact fallsDue_of_mem (dueWithin_ageAll ((portOrdered_iff p).mp hp)) (List.mem_map.mpr ⟨_, h, rfl⟩) rfl

/-- A response due after d + 1 edges is delivered at the last of them, whatever else happens at an edge but a reset. -/
theorem ticks_deliver {d : Nat} {r : Response} {later : List PortIn} {p : PortState} (hp : PortOrdered p)
    (h : ⟨d + 1, r⟩ ∈ p.inFlight) (hlen : d < later.length) (hrst : ∀ j ∈ later, j.rst = false) :
    ∃ o, (ticks later p).2[d]? = some o ∧ o.response = some r := by
  induction later generalizing d p with
  | nil => cases hlen
  | cons i later ih =>
    obtain ⟨hi, hlater⟩ := List.forall_mem_cons.mp hrst
    cases d with
    | zero => exact ⟨_, rfl, tick_response_of_due hp hi h⟩
    | succ d => exact ih (tick_portOrdered i hp) (mem_tick_of_not_due hi h) (Nat.lt_of_succ_lt_succ hlen) hlater

/-- Settles O57: the accepting edge puts the response last, due after the latency, and the edges that follow deliver it. -/
theorem responseComesAfterTheLatency : Obligations.ResponseComesAfterTheLatency := by
  unfold Obligations.ResponseComesAfterTheLatency
  intro p i later a r hp hacc hblock hlen hrst
  have hput : ⟨Config.latencyBeyondOne + 1, r⟩ ∈ (tick i p).1.inFlight := by
    rw [tick_of_accepts hacc hblock]
    exact List.mem_append_right _ (List.mem_singleton.mpr rfl)
  have hlast : Config.latencyBeyondOne < later.length := hlen ▸ Nat.lt_succ_self _
  exact ticks_deliver (later := later) (tick_portOrdered i hp) hput hlast hrst

end Sys2Proof.Proofs
end

section
/-! PROOFS. The assembler (R71). A line falls into its words, an operand written in hex reads as its number, and a name found in
one of the three tables makes the row's command; a name that is in no table is not read. -/

namespace Sys2Proof.Proofs

open Sys2Proof Sys2Proof.Machine Sys2Proof.Certificates

/-! ## Numbers written in hex -/

section Hex

/-- The values of the low `n` hex digits of a number, the most significant first. -/
def digitsOf (n v : Nat) : List Nat := (List.range n).reverse.map fun k => v / 16 ^ k % 16

theorem hexText_eq (n v : Nat) :
    hexText n v = "0x" ++ String.ofList ((digitsOf n v).map fun d => hexDigits.getD d '0') := by
  rw [digitsOf, List.map_map]; rfl

theorem digitsOf_lt {n v d : Nat} (h : d ∈ digitsOf n v) : d < 16 := by
  obtain ⟨k, -, rfl⟩ := List.mem_map.mp h
  exact Nat.mod_lt _ (by decide)

/-- The last digit is the number's remainder, and those before it are the digits of its quotient. -/
theorem digitsOf_succ (n v : Nat) : digitsOf (n + 1) v = digitsOf n (v / 16) ++ [v % 16] := by
  simp [digitsOf, List.range_succ_eq_map, ← List.map_reverse, Nat.div_div_eq_div_mul, Nat.pow_succ']

theorem hexValue_digitsOf (n v : Nat) : hexValue (digitsOf n v) = v % 16 ^ n := by
  induction n generalizing v with
  | zero => rw [Nat.pow_zero, Nat.mod_one]; rfl
  | succ n ih =>
    have hlast (ds : List Nat) (d : Nat) : hexValue (ds ++ [d]) = 16 * hexValue ds + d := by
      simp [hexValue]
    rw [digitsOf_succ, hlast, ih, Nat.pow_succ', Nat.mod_mul, Nat.add_comm]

/-- A number written out in one or more digits reads as itself, where they hold it. -/
theorem hexNumber_hexText {bits n v : Nat} (hv : v < 16 ^ (n + 1)) (hbits : v < 2 ^ bits) :
    hexNumber bits (hexText (n + 1) v) = some v := by
  have hvalue := hexValue_digitsOf (n + 1) v
  have hdigits := fun d => digitsOf_lt (n := n + 1) (v := v) (d := d)
  rw [Nat.mod_eq_of_lt hv] at hvalue
  rw [hexText_eq]
  obtain ⟨d, ds, hcons⟩ : ∃ d ds, digitsOf (n + 1) v = d :: ds :=
    List.exists_cons_of_length_eq_add_one (n := n) (by simp [digitsOf])
  rw [hcons] at hvalue hdigits ⊢
  rw [hexNumber_of_digits bits d ds hdigits, hvalue, fitsIn, if_pos hbits]

/-- An operand written out is read as the operand. -/
theorem operandOf_hexText (v : Word) : operandOf [hexText 4 v.toNat] = some v := by
  rw [operandOf, hexNumber_hexText (n := 3) v.isLt v.isLt, Option.map_some, BitVec.ofNat_toNat, BitVec.setWidth_eq]

end Hex

/-! ## Words and lines -/

section Lines

/-- A text that is one field of a line. -/
abbrev IsWord (w : String) : Prop := fieldsFrom [] w.toList = [w]

theorem isWord_hexText (n v : Nat) : IsWord (hexText n v) := by
  have hplain : ∀ c ∈ (hexText n v).toList, ¬ partsFields c := by
    rw [hexText_eq, String.toList_append]
    intro c hc
    obtain hc | hc := List.mem_append.mp hc
    · obtain rfl | rfl : c = '0' ∨ c = 'x' := by simpa using hc
      all_goals decide
    · rw [String.toList_ofList] at hc
      obtain ⟨d, hd, rfl⟩ := List.mem_map.mp hc
      exact (hexDigit_of_place d (digitsOf_lt hd)).2
  have hne : (hexText n v).toList ≠ [] := by simp [hexText]
  rw [IsWord, fieldsFrom_word _ _ hplain]
  simp [addField, hne]

variable {start first second operand : String}

theorem parseLine_one_word (h : IsWord first) : parseLine first = parseFields [first] := by
  rw [parseLine, h]

theorem parseLine_two_words (hs : start.toList = first.toList ++ [' ']) (hfirst : IsWord first) (ho : IsWord operand) :
    parseLine (start ++ operand) = parseFields [first, operand] := by
  rw [parseLine, String.toList_append, hs, List.append_assoc, List.singleton_append,
    fieldsFrom_append_separator _ _ _ _ (.inl rfl), hfirst, ho]
  rfl

theorem parseLine_three_words (hs : start.toList = first.toList ++ ' ' :: (second.toList ++ [',', ' ']))
    (hfirst : IsWord first) (hsecond : IsWord second) (ho : IsWord operand) :
    parseLine (start ++ operand) = parseFields [first, second, operand] := by
  have hline : (start ++ operand).toList =
      first.toList ++ ' ' :: (second.toList ++ ',' :: ([] ++ ' ' :: operand.toList)) := by
    rw [String.toList_append, hs]; simp
  rw [parseLine, hline, fieldsFrom_append_separator _ _ _ _ (.inl rfl), fieldsFrom_append_separator _ _ _ _ (.inr rfl),
    fieldsFrom_append_separator _ _ _ _ (.inl rfl), hfirst, hsecond, ho]
  rfl

theorem readsWithOperand_of_fields {cmd : CmdWord} (hs : start.toList = first.toList ++ [' ']) (hfirst : IsWord first)
    (h : ∀ text v, operandOf [text] = some v → (parseFields [first, text]).map AsmLine.commands = some [⟨cmd, v⟩]) :
    ReadsWithOperand start cmd := by
  intro v
  rw [Reads, parseLine_two_words hs hfirst (isWord_hexText 4 _)]
  exact h _ v (operandOf_hexText v)

end Lines

/-! ## The tables -/

section Tables

variable {table : List (String × (Word → Instr))} {name : String} {operand : List String}

/-- Every row's instruction is encoded as the row's word with the operand it is given. -/
def RowsEncode (table : List (String × (Word → Instr))) : Prop :=
  ∀ row ∈ table, ∀ v, encode (row.2 v) = ⟨(rowWord row).2, v⟩

/-- A table is checked row by row. -/
theorem rowsEncode_cons {row : String × (Word → Instr)} (hrow : ∀ v, encode (row.2 v) = ⟨(rowWord row).2, v⟩)
    (h : RowsEncode table) : RowsEncode (row :: table) :=
  List.forall_mem_cons.mpr ⟨hrow, h⟩

theorem rowsEncode_nil : RowsEncode [] := fun _ h => absurd h List.not_mem_nil

theorem rowsEncode_codec : RowsEncode codecMnemonics := by
  repeat' apply rowsEncode_cons fun _ => rfl
  exact rowsEncode_nil

theorem rowsEncode_readable : RowsEncode readableNames := by
  repeat' apply rowsEncode_cons fun _ => rfl
  exact rowsEncode_nil

theorem rowsEncode_writable : RowsEncode writableNames := by
  repeat' apply rowsEncode_cons fun _ => rfl
  exact rowsEncode_nil

theorem rowWords_codec : codecMnemonics.map rowWord = codecLines := rfl

theorem rowWords_readable : readableNames.map rowWord = csrrLines := rfl

theorem rowWords_writable : writableNames.map rowWord = csrwLines := rfl

/-- A name is looked up among the rows' words as among the rows. -/
theorem lookup_map_rowWord (table : List (String × (Word → Instr))) (name : String) :
    (table.map rowWord).lookup name = (table.lookup name).map fun make => (encode (make 0)).cmd := by
  induction table with
  | nil => rfl
  | cons row table ih =>
    rw [List.map_cons, rowWord, List.lookup_cons, List.lookup_cons, ih]
    split <;> rfl

/-- A row's name with an operand reads as the row's word with that operand. -/
theorem fromTable_reads {lines : List (String × CmdWord)} {cmd : CmdWord} {v : Word} (hlines : table.map rowWord = lines)
    (hrows : RowsEncode table) (hname : lines.lookup name = some cmd) (ho : operandOf operand = some v) :
    (fromTable table name operand).map AsmLine.commands = some [⟨cmd, v⟩] := by
  rw [← hlines, lookup_map_rowWord, Option.map_eq_some_iff] at hname
  obtain ⟨make, hmake, rfl⟩ := hname
  obtain ⟨_, _, htable, -⟩ := List.lookup_eq_some_iff.mp hmake
  have hencode : encode (make v) = ⟨(encode (make 0)).cmd, v⟩ := hrows (name, make) (by simp [htable]) v
  rw [fromTable, hmake, ho]
  exact congrArg (fun c => some [c]) hencode

theorem fromTable_of_absent (h : table.lookup name = none) : fromTable table name operand = none := by
  rw [fromTable, h]

/-- The first words of the lines that are no codec command (R71). -/
def keywords : List String :=
  ["NOP", "CSRR", "CSRW", ".word", "SETPOL", "SETPREV", "GETPREV", "CLRST", "CLRCNT", "BEGIN"]

theorem parseFields_of_not_keyword (h : name ∉ keywords) :
    parseFields (name :: operand) = fromTable codecMnemonics name operand := by
  unfold parseFields
  split <;> simp_all [keywords]

theorem codecLines_rows :
    ∀ x ∈ codecLines, IsWord x.1 ∧ x.1 ∉ keywords ∧ codecLines.lookup x.1 = some x.2 := by decide

theorem csrrLines_rows : ∀ x ∈ csrrLines, IsWord x.1 ∧ csrrLines.lookup x.1 = some x.2 := by decide

theorem csrwLines_rows : ∀ x ∈ csrwLines, IsWord x.1 ∧ csrwLines.lookup x.1 = some x.2 := by decide

end Tables

/-! ## The lines of each table -/

theorem codec_line_reads {x : String × CmdWord} (hx : x ∈ codecLines) :
    ReadsWithOperand (x.1 ++ " ") x.2 ∧ Reads x.1 [⟨x.2, 0⟩] := by
  obtain ⟨hword, hname, hlookup⟩ := codecLines_rows x hx
  constructor
  · refine readsWithOperand_of_fields String.toList_append hword fun text v ho => ?_
    rw [parseFields_of_not_keyword hname]
    exact fromTable_reads rowWords_codec rowsEncode_codec hlookup ho
  · rw [Reads, parseLine_one_word hword, parseFields_of_not_keyword hname]
    exact fromTable_reads rowWords_codec rowsEncode_codec hlookup rfl

theorem csrr_line_reads {x : String × CmdWord} (hx : x ∈ csrrLines) :
    Reads ("CSRR " ++ x.1) [⟨x.2, 0⟩] ∧ TakesNoOperand ("CSRR " ++ x.1 ++ ", ") := by
  obtain ⟨hword, hlookup⟩ := csrrLines_rows x hx
  have hfirst : IsWord "CSRR" := rfl
  constructor
  · rw [Reads, parseLine_two_words (first := "CSRR") rfl hfirst hword]
    exact fromTable_reads rowWords_readable rowsEncode_readable hlookup rfl
  · intro v
    have hs : ("CSRR " ++ x.1 ++ ", ").toList = "CSRR".toList ++ ' ' :: (x.1.toList ++ [',', ' ']) := by
      rw [String.toList_append, String.toList_append]; rfl
    rw [parseLine_three_words hs hfirst hword (isWord_hexText 4 _)]
    exact fromTable_of_absent (table := codecMnemonics) (name := "CSRR") (operand := [x.1, hexText 4 v.toNat]) rfl

theorem csrw_toList (name : String) :
    ("CSRW " ++ name ++ ", ").toList = "CSRW".toList ++ ' ' :: (name.toList ++ [',', ' ']) := by
  rw [String.toList_append, String.toList_append]; rfl

theorem csrw_line_reads {x : String × CmdWord} (hx : x ∈ csrwLines) :
    ReadsWithOperand ("CSRW " ++ x.1 ++ ", ") x.2 ∧ Reads ("CSRW " ++ x.1) [⟨x.2, 0⟩] := by
  obtain ⟨hword, hlookup⟩ := csrwLines_rows x hx
  have hfirst : IsWord "CSRW" := rfl
  constructor
  · intro v
    rw [Reads, parseLine_three_words (csrw_toList x.1) hfirst hword (isWord_hexText 4 _)]
    exact fromTable_reads rowWords_writable rowsEncode_writable hlookup (operandOf_hexText v)
  · rw [Reads, parseLine_two_words (first := "CSRW") rfl hfirst hword]
    exact fromTable_reads rowWords_writable rowsEncode_writable hlookup rfl

/-- RESULT is not among the registers CSRW may name. -/
theorem csrw_result_not_read : TakesNoOperand "CSRW RESULT, " ∧ parseLine "CSRW RESULT" = none := by
  have hfirst : IsWord "CSRW" := rfl
  have hsecond : IsWord "RESULT" := rfl
  have habsent (operand : List String) : fromTable writableNames "RESULT" operand = none := fromTable_of_absent rfl
  constructor
  · intro v
    rw [parseLine_three_words (first := "CSRW") (second := "RESULT") rfl hfirst hsecond (isWord_hexText 4 _)]
    exact habsent [hexText 4 v.toNat]
  · exact (parseLine_two_words (start := "CSRW ") (first := "CSRW") rfl hfirst hsecond).trans (habsent [])

/-! ## The lines of one keyword -/

/-- A first word whose line goes on to the codec table with an operand, and is not there, takes none. -/
theorem takesNoOperand_of_absent {start first : String} (hs : start.toList = first.toList ++ [' ']) (hfirst : IsWord first)
    (hfields : ∀ text, parseFields [first, text] = fromTable codecMnemonics first [text])
    (habsent : codecMnemonics.lookup first = none) : TakesNoOperand start := by
  intro v
  rw [parseLine_two_words hs hfirst (isWord_hexText 4 _), hfields, fromTable_of_absent habsent]

theorem nop_takesNoOperand : TakesNoOperand "NOP " :=
  takesNoOperand_of_absent (first := "NOP") rfl rfl (fun _ => rfl) rfl

theorem getPrev_takesNoOperand : TakesNoOperand "GETPREV " :=
  takesNoOperand_of_absent (first := "GETPREV") rfl rfl (fun _ => rfl) rfl

theorem clrSt_takesNoOperand : TakesNoOperand "CLRST " :=
  takesNoOperand_of_absent (first := "CLRST") rfl rfl (fun _ => rfl) rfl

theorem clrCnt_takesNoOperand : TakesNoOperand "CLRCNT " :=
  takesNoOperand_of_absent (first := "CLRCNT") rfl rfl (fun _ => rfl) rfl

theorem begin_takesNoOperand : TakesNoOperand "BEGIN " :=
  takesNoOperand_of_absent (first := "BEGIN") rfl rfl (fun _ => rfl) rfl

theorem word_line_reads (cmd : CmdWord) : Reads (".word " ++ hexText 2 cmd.toNat) [⟨cmd, 0⟩] := by
  rw [Reads, parseLine_two_words (first := ".word") rfl rfl (isWord_hexText 2 _)]
  have hfields (text : String) :
      parseFields [".word", text] = (hexNumber 8 text).map fun v => .word (BitVec.ofNat 8 v) := rfl
  rw [hfields, hexNumber_hexText (n := 1) cmd.isLt cmd.isLt, Option.map_some, BitVec.ofNat_toNat, BitVec.setWidth_eq]
  rfl

theorem setPol_line_reads : ReadsWithOperand "SETPOL " 0xC0#8 := by
  refine readsWithOperand_of_fields (first := "SETPOL") rfl rfl fun text v ho => ?_
  have hfields : parseFields ["SETPOL", text] = (operandOf [text]).map .setPol := rfl
  rw [hfields, ho]
  rfl

theorem setPrev_line_reads : ReadsWithOperand "SETPREV " 0xC1#8 := by
  refine readsWithOperand_of_fields (first := "SETPREV") rfl rfl fun text v ho => ?_
  have hfields : parseFields ["SETPREV", text] = (operandOf [text]).map .setPrev := rfl
  rw [hfields, ho]
  rfl

/-! ## Listings -/

theorem assemble_eq (lines : List String) :
    assemble lines = (lines.mapM parseLine).map fun ls => ls.flatMap AsmLine.commands := by
  induction lines with
  | nil => rfl
  | cons line lines ih =>
    rw [assemble, ih, List.mapM_cons]
    cases parseLine line with
    | none => rfl
    | some l => cases lines.mapM parseLine <;> rfl

/-- Settles O59: each table by the lookup of a row's name, each keyword by its own arm, a listing line by line. -/
theorem assemblerLinesExpand : Obligations.AssemblerLinesExpand := by
  unfold Obligations.AssemblerLinesExpand
  exact ⟨fun _ => codec_line_reads, fun _ => csrr_line_reads, fun _ => csrw_line_reads,
    ⟨rowWords_codec, rowWords_readable, rowWords_writable⟩, csrw_result_not_read, ⟨rfl, nop_takesNoOperand⟩,
    ⟨word_line_reads, rfl⟩, ⟨setPol_line_reads, rfl⟩, ⟨setPrev_line_reads, rfl⟩, ⟨rfl, getPrev_takesNoOperand⟩,
    ⟨rfl, clrSt_takesNoOperand⟩, ⟨rfl, clrCnt_takesNoOperand⟩, ⟨rfl, begin_takesNoOperand⟩, assemble_eq, rfl⟩

end Sys2Proof.Proofs
end

section
/-! PROOFS. The Manchester commands (R80 to R82). Each comes at three widths with one meaning, so a statement over the widths is
proved once for a width. A codeword is known by its symbols, a decoded word by its bits, and the status update of R27 by
whether every symbol is well formed. -/

namespace Sys2Proof.Proofs

open Sys2Proof Sys2Proof.Machine Sys2Proof.Certificates

/-! ## The words of an operation (R66, R67) -/

theorem decode_ok_iff (c : Command) : (∃ i, decode c = .ok i) ↔ ¬ IllegalByR67 c.cmd := by
  rw [← decode_error_iff]
  cases decode c <;> simp

/-- An operation of any width has three words, which differ in the width field. -/
theorem onlyWords_of_anyWidth {op : Nat} {bit nibble byte : CmdWord} (hop : 1 ≤ op ∧ op ≤ 0xA ∧ op ≠ 4 ∧ op ≠ 0xA)
    (hbit : bit.toNat = 16 * op) (hnibble : nibble.toNat = 16 * op + 4) (hbyte : byte.toNat = 16 * op + 8) :
    OnlyWords op [bit, nibble, byte] := by
  intro c hc
  rw [decode_ok_iff]
  simp only [IllegalByR67, List.mem_cons, List.not_mem_nil, or_false, BitVec.toNat_eq]
  omega

/-- An operation of byte width only has one word. -/
theorem onlyWords_of_byteOnly {op : Nat} {byte : CmdWord} (hop : op = 4 ∨ op = 0xA) (hbyte : byte.toNat = 16 * op + 8) :
    OnlyWords op [byte] := by
  intro c hc
  rw [decode_ok_iff]
  simp only [IllegalByR67, List.mem_cons, List.not_mem_nil, or_false, BitVec.toNat_eq]
  omega

/-- Every instruction decodes from its row's word of the opcode table (R66). -/
theorem decode_rowWord {i : Instr} {din : Word} (h : i.din = din) : decode ⟨Laws.OpcodeRow.rowWord i, din⟩ = .ok i := by
  rw [← h, ← encode_eq_rowWord, decode_encode]

/-- What holds at each width holds of the three rows of an operation. -/
theorem forall_mem_widths {α : Type} {P : α → Prop} (row : Width → α) (h : ∀ w, P (row w)) :
    ∀ x ∈ [row .bit, row .nibble, row .byte], P x := by
  simp only [List.forall_mem_cons, List.not_mem_nil, false_imp_iff, implies_true, and_true]
  exact ⟨h .bit, h .nibble, h .byte⟩

theorem unitsOf_le (w : Width) : unitsOf w ≤ 8 := by cases w <;> decide

@[simp] theorem din_manEncOf (din : Word) (w : Width) : (manEncOf din w).din = din := by cases w <;> rfl

@[simp] theorem din_manDecOf (din : Word) (w : Width) : (manDecOf din w).din = din := by cases w <;> rfl

/-! ## The meanings at a width -/

theorem exec_manEncOf (din : Word) (w : Width) (s : State) :
    exec (manEncOf din w) s = answers s s.arch .ok (manCodeword (unitsOf w) s.arch.pol din) := by
  cases w <;> rfl

theorem exec_manDecOf (din : Word) (w : Width) (s : State) :
    exec (manDecOf din w) s =
      answers s s.arch (manDec (unitsOf w) din s.arch).2.rsp (manDec (unitsOf w) din s.arch).2.dout := by
  cases w <;> rfl

theorem exec_manChkOf (din : Word) (w : Width) (s : State) :
    exec (manChkOf din w) s =
      answers s (account ((symbols (unitsOf w) din).all manSymbolOk) s.arch)
        (codeOfCheck ((symbols (unitsOf w) din).all manSymbolOk)) 0x0000#16 := by
  cases w <;> rfl

theorem account_true (a : Arch) : account true a = counted a := by
  obtain ⟨_, _, err, _, _⟩ := a
  cases err <;> simp [account, counted, countUp]

theorem account_false (a : Arch) : account false a = failed a := rfl

theorem all_manSymbolOk_eq_false {n : Nat} {x : Word} (h : ¬ ManOk n x) : (symbols n x).all manSymbolOk = false :=
  Bool.eq_false_iff.mpr (mt (all_manSymbolOk_symbols_iff n x).mp h)

/-- MAN_CHK of a well-formed word (R120). -/
theorem exec_manChkOf_of_ok {din : Word} {w : Width} (s : State) (h : ManOk (unitsOf w) din) :
    exec (manChkOf din w) s = answers s (counted s.arch) .ok 0x0000#16 := by
  rw [exec_manChkOf, (all_manSymbolOk_symbols_iff _ _).mpr h, account_true]
  rfl

/-- MAN_CHK of a malformed word (R120). -/
theorem exec_manChkOf_of_not_ok {din : Word} {w : Width} (s : State) (h : ¬ ManOk (unitsOf w) din) :
    exec (manChkOf din w) s = answers s (failed s.arch) .malformed 0x0000#16 := by
  rw [exec_manChkOf, all_manSymbolOk_eq_false h]
  rfl

/-- MAN_DECC of a well-formed codeword (R82). -/
theorem exec_manDeccB_of_ok {din : Word} (s : State) (h : ManOk 8 din) :
    exec (.manDeccB din) s =
      answers s (counted s.arch) .ok (packBits ((symbols 8 din).map (manPlainBit s.arch.pol))) := by
  rw [exec_eq_finish_effect, effect_manDeccB_of_valid _ ((manValid_iff din).mpr h), account_true]
  rfl

/-- MAN_DECC of a malformed codeword (R82). -/
theorem exec_manDeccB_of_not_ok {din : Word} (s : State) (h : ¬ ManOk 8 din) :
    exec (.manDeccB din) s = answers s (failed s.arch) .malformed 0x0000#16 := by
  have hvalid : manValid din = false := all_manSymbolOk_eq_false h
  rw [exec_eq_finish_effect, effect_manDeccB, hvalid]
  rfl

/-! ## Codewords symbol by symbol -/

section Codewords

variable {n : Nat} {pol : Bool} {x : Word}

theorem symbols_manCodeword (pol : Bool) (x : Word) (hn : n ≤ 8) :
    symbols n (manCodeword n pol x) = (dataBits n x).map (msym pol) := by
  have hround := symbols_packSymbols ((dataBits n x).map (msym pol)) (by simpa using hn)
  rwa [List.length_map, length_dataBits] at hround

theorem zeroFrom_manCodeword (n : Nat) (pol : Bool) (x : Word) : ZeroFrom (2 * n) (manCodeword n pol x) := by
  have hzero := zeroFrom_packBits (symbolBits ((dataBits n x).map (msym pol)))
  rwa [length_symbolBits, List.length_map, length_dataBits] at hzero

/-- Symbol j of a codeword is that of data bit j (R79, R80). -/
theorem symbol_manCodeword {j : Nat} (pol : Bool) (x : Word) (hn : n ≤ 8) (hj : j < n) :
    firstBit (manCodeword n pol x) j = !(x.getLsbD j ^^ pol) ∧
      secondBit (manCodeword n pol x) j = (x.getLsbD j ^^ pol) := by
  have hsymbol := getElem?_reverse_symbols (manCodeword n pol x) hj
  rw [symbols_manCodeword pol x hn, ← List.map_reverse, List.getElem?_map, getElem?_reverse_dataBits x hj,
    Option.map_some, Option.some.injEq, msym, Symbol.mk.injEq] at hsymbol
  exact ⟨hsymbol.1.symm, hsymbol.2.symm⟩

theorem manOk_manCodeword (pol : Bool) (x : Word) (hn : n ≤ 8) : ManOk n (manCodeword n pol x) := by
  rw [← all_manSymbolOk_symbols_iff, symbols_manCodeword pol x hn]
  simp

end Codewords

/-- Settles O1: the three words differ in the width field, and the codeword's symbols are those of the data bits. -/
theorem manEncEncodesEachBit : Obligations.ManEncEncodesEachBit := by
  unfold Obligations.ManEncEncodesEachBit
  refine ⟨onlyWords_of_anyWidth (by decide) rfl rfl rfl, fun s din => ?_⟩
  refine forall_mem_widths (fun w => (Laws.OpcodeRow.rowWord (manEncOf din w), manEncOf din w, unitsOf w)) fun w => ?_
  exact ⟨decode_rowWord (din_manEncOf din w), _, exec_manEncOf din w s, zeroFrom_manCodeword _ _ _,
    fun _ => symbol_manCodeword _ _ (unitsOf_le w)⟩

/-! ## Decoded words bit by bit -/

theorem manDecodeBit_eq (pol first second : Bool) :
    manDecodeBit pol ⟨first, second⟩ =
      if first ≠ second then second ^^ pol else Config.manDecInvalid first second pol := by
  simp [manDecodeBit, manSymbolOk]

theorem codeOfCheck_manSymbolOk (n : Nat) (x : Word) :
    codeOfCheck ((symbols n x).all manSymbolOk) = if ManOk n x then .ok else .malformed := by
  split
  · next h => rw [(all_manSymbolOk_symbols_iff n x).mpr h, codeOfCheck_true]
  · next h => rw [all_manSymbolOk_eq_false h, codeOfCheck_false]

/-- A word decoded symbol by symbol holds nothing above its data bits. -/
theorem zeroFrom_packBits_map_symbols (f : Symbol → Bool) (n : Nat) (x : Word) :
    ZeroFrom n (packBits ((symbols n x).map f)) := by
  have hzero := zeroFrom_packBits ((symbols n x).map f)
  rwa [List.length_map, length_symbols] at hzero

/-- Settles O2: each data bit is read from its own symbol, so a malformed one spoils no other. -/
theorem manDecDecodesAndReports : Obligations.ManDecDecodesAndReports := by
  unfold Obligations.ManDecDecodesAndReports
  refine ⟨onlyWords_of_anyWidth (by decide) rfl rfl rfl, fun s din => ?_⟩
  refine forall_mem_widths (fun w => (Laws.OpcodeRow.rowWord (manDecOf din w), manDecOf din w, unitsOf w)) fun w => ?_
  have hn := unitsOf_le w
  refine ⟨decode_rowWord (din_manDecOf din w), _, ?_, zeroFrom_packBits_map_symbols (manDecodeBit s.arch.pol) _ din,
    fun j hj => ?_⟩
  · rw [exec_manDecOf, ← codeOfCheck_manSymbolOk]
    rfl
  · rw [getLsbD_packBits_map_symbols _ din hj (hn.trans (by decide)), manDecodeBit_eq]

/-- Settles O3, by the two outcomes of the check. -/
theorem manDeccDecodesAndAccounts : Obligations.ManDeccDecodesAndAccounts := by
  unfold Obligations.ManDeccDecodesAndAccounts
  refine ⟨onlyWords_of_byteOnly (by decide) rfl, fun s din => ⟨decode_rowWord (i := .manDeccB din) rfl, ?_⟩⟩
  split
  · next hok =>
    exact ⟨_, exec_manDeccB_of_ok s hok, zeroFrom_packBits_map_symbols _ 8 din,
      fun j hj => getLsbD_packBits_map_symbols (manPlainBit s.arch.pol) din hj (by decide)⟩
  · next hbad => exact exec_manDeccB_of_not_ok s hbad

/-! ## What the Manchester commands depend on (R88) -/

/-- MAN_ENC and MAN_DEC keep the record and answer by the operand and POL alone. -/
theorem effect_eq_of_pol (din : Word) :
    ∀ i ∈ [Instr.manEnc1 din, .manEncN din, .manEncB din, .manDec1 din, .manDecN din, .manDecB din],
      ∃ answer : Bool → Response, ∀ a, effect i a = (a, answer a.pol) := by
  have henc (n : Nat) : ∃ answer : Bool → Response, ∀ a, manEnc n din a = (a, answer a.pol) :=
    ⟨fun pol => okWith (manCodeword n pol din), fun _ => rfl⟩
  have hdec (n : Nat) : ∃ answer : Bool → Response, ∀ a, manDec n din a = (a, answer a.pol) :=
    ⟨fun pol => ⟨_, packBits ((symbols n din).map (manDecodeBit pol))⟩, fun _ => rfl⟩
  simp only [List.forall_mem_cons, List.not_mem_nil, false_imp_iff, implies_true, and_true]
  exact ⟨henc 1, henc 4, henc 8, hdec 1, hdec 4, hdec 8⟩

/-- The status update reads ERR and CNT only. -/
theorem account_congr {a b : Arch} (valid : Bool) (herr : a.err = b.err) (hcnt : a.cnt = b.cnt) :
    (account valid a).err = (account valid b).err ∧ (account valid a).cnt = (account valid b).cnt := by
  refine ⟨by rw [account_err, account_err, herr], ?_⟩
  cases valid with
  | false => exact hcnt
  | true => simp [account_true, counted, herr, hcnt]

/-- What an instruction that answers a next state left there. -/
theorem exec_next_effect {i : Instr} {s t : State} (h : exec i s = .next t) :
    t.arch = (effect i s.arch).1 ∧ t.response = some (effect i s.arch).2 := by
  rw [exec_eq_finish_effect] at h
  obtain ⟨harch, hresponse, -, -⟩ := finish_next h
  exact ⟨harch, hresponse⟩

/-- Settles O29: the effect of each command names the fields it reads. -/
theorem manchesterDependsOnPolarityOnly : Obligations.ManchesterDependsOnPolarityOnly := by
  unfold Obligations.ManchesterDependsOnPolarityOnly
  intro s t s' t' din hpol
  refine ⟨fun i hi hs ht => ?plain, fun hs ht => ?checked, fun u v u' v' herr hcnt hu hv => ?status⟩
  case plain =>
    obtain ⟨answer, heffect⟩ := effect_eq_of_pol din i hi
    obtain ⟨harch, hresponse⟩ := exec_next_effect hs
    obtain ⟨-, hresponse'⟩ := exec_next_effect ht
    rw [hresponse, hresponse', harch, heffect, heffect, hpol]
    exact ⟨rfl, rfl⟩
  case checked =>
    obtain ⟨harch, hresponse⟩ := exec_next_effect hs
    obtain ⟨-, hresponse'⟩ := exec_next_effect ht
    rw [hresponse, hresponse', harch, effect_manDeccB, effect_manDeccB, hpol]
    exact ⟨rfl, account_prev _ _⟩
  case status =>
    obtain ⟨hu, -⟩ := exec_next_effect hu
    obtain ⟨hv, -⟩ := exec_next_effect hv
    rw [hu, hv]
    exact account_congr _ herr hcnt

end Sys2Proof.Proofs
end

section
/-! PROOFS. Laws of the Manchester code over a whole word (R83, R84, R86). The low bits of a word are its data bits packed, and also
its symbols packed, so a law of one symbol carries over to the word. -/

namespace Sys2Proof.Proofs

open Sys2Proof Sys2Proof.Machine Sys2Proof.Certificates

section Words

variable {n : Nat}

theorem getLsbD_lowBits (n : Nat) (x : Word) (k : Nat) : (lowBits n x).getLsbD k = (decide (k < n) && x.getLsbD k) := by
  rw [lowBits, BitVec.getLsbD_ofNat, Nat.testBit_mod_two_pow, BitVec.testBit_toNat]
  by_cases hk : k < 16
  · simp [hk]
  · simp [hk, BitVec.getLsbD_of_ge x k (by omega)]

theorem packBits_dataBits (x : Word) (hn : n ≤ 16) : packBits (dataBits n x) = lowBits n x :=
  BitVec.eq_of_getLsbD_eq fun k _ => by rw [getLsbD_packBits_dataBits n k x hn, getLsbD_lowBits]

theorem packSymbols_symbols (x : Word) (hn : n ≤ 8) : packSymbols (symbols n x) = lowBits (2 * n) x := by
  rw [packSymbols, symbolBits_symbols, packBits_dataBits x (by omega)]

/-! ## The round trip (R83) -/

/-- Decoding the symbols of a codeword, by any rule that inverts the encoding of one bit, gives the data back. -/
theorem packBits_map_manCodeword {pol : Bool} {decodeBit : Symbol → Bool} (x : Word) (hn : n ≤ 8)
    (h : ∀ b, decodeBit (msym pol b) = b) :
    packBits ((symbols n (manCodeword n pol x)).map decodeBit) = lowBits n x := by
  have hbits : ((dataBits n x).map (msym pol)).map decodeBit = dataBits n x := by
    simp [Function.comp_def, h]
  rw [symbols_manCodeword pol x hn, hbits, packBits_dataBits x (by omega)]

theorem manDecodeBit_msym (pol b : Bool) : manDecodeBit pol (msym pol b) = b := by
  rw [manDecodeBit_of_ok _ _ (manSymbolOk_msym pol b), manPlainBit_msym]

theorem manDec_manCodeword (x : Word) (a : Arch) (hn : n ≤ 8) :
    (manDec n (manCodeword n a.pol x) a).2 = okWith (lowBits n x) := by
  rw [manDec, codeOfCheck_manSymbolOk, if_pos (manOk_manCodeword a.pol x hn),
    packBits_map_manCodeword x hn (manDecodeBit_msym a.pol)]
  rfl

end Words

/-- Settles O33: a codeword is well formed, and each decode inverts the encoding symbol by symbol. -/
theorem manchesterRoundTrip : Obligations.ManchesterRoundTrip := by
  unfold Obligations.ManchesterRoundTrip
  intro s din
  refine forall_mem_widths (fun w => (manEncOf din w, fun x => manDecOf x w, unitsOf w)) fun w => ?_
  have hn := unitsOf_le w
  refine ⟨_, _, exec_manEncOf din w s, rfl, ?_, fun hbyte => ?_⟩
  · rw [exec_manDecOf, manDec_manCodeword din _ hn]
    rfl
  · dsimp only at hbyte ⊢
    rw [hbyte, exec_manDeccB_of_ok _ (manOk_manCodeword _ _ (by decide)),
      packBits_map_manCodeword din (by decide) (manPlainBit_msym s.arch.pol)]

/-! ## A flipped bit (R84) -/

section Flips

variable {n : Nat}

theorem firstBit_flip {b j : Nat} (x : Word) (hb : b < 16) :
    firstBit (x ^^^ BitVec.twoPow 16 b) j = (firstBit x j ^^ decide (b = 2 * j + 1)) := by
  rw [firstBit, BitVec.getLsbD_xor, BitVec.getLsbD_twoPow, decide_eq_true hb, Bool.true_and, ← firstBit]

theorem secondBit_flip {b j : Nat} (x : Word) (hb : b < 16) :
    secondBit (x ^^^ BitVec.twoPow 16 b) j = (secondBit x j ^^ decide (b = 2 * j)) := by
  rw [secondBit, BitVec.getLsbD_xor, BitVec.getLsbD_twoPow, decide_eq_true hb, Bool.true_and, ← secondBit]

/-- Flipping one bit of a well-formed word spoils the symbol that holds it. -/
theorem not_manOk_flip {x : Word} {b : Nat} (hn : n ≤ 8) (hb : b < 2 * n) (hok : ManOk n x) :
    ¬ ManOk n (x ^^^ BitVec.twoPow 16 b) := by
  intro hflip
  obtain ⟨j, hj, hbit⟩ : ∃ j < n, b = 2 * j ∨ b = 2 * j + 1 := ⟨b / 2, by omega, by omega⟩
  have hdiffer := Bool.eq_not_of_ne (hok j hj)
  have hstill := hflip j hj
  rw [firstBit_flip x (by omega), secondBit_flip x (by omega), hdiffer] at hstill
  obtain rfl | rfl := hbit <;> simp at hstill

end Flips

/-- Settles O34: a codeword is well formed, and a word one bit away from it is not. -/
theorem manChkFindsEverySingleFlip : Obligations.ManChkFindsEverySingleFlip := by
  unfold Obligations.ManChkFindsEverySingleFlip
  intro s din
  refine forall_mem_widths (fun w => (manEncOf din w, fun x => manChkOf x w, unitsOf w)) fun w => ?_
  have hn := unitsOf_le w
  have hok := manOk_manCodeword s.arch.pol din hn
  exact ⟨_, exec_manEncOf din w s, exec_manChkOf_of_ok s hok,
    fun b hb => exec_manChkOf_of_not_ok s (not_manOk_flip hn hb hok)⟩

/-! ## The other polarity (R86) -/

/-- A symbol with both bits complemented. -/
def complementSymbol (s : Symbol) : Symbol := ⟨!s.first, !s.second⟩

theorem complementSymbol_msym (b : Bool) : complementSymbol (msym false b) = msym true b := by
  cases b <;> rfl

theorem manSymbolOk_complementSymbol (s : Symbol) : manSymbolOk (complementSymbol s) = manSymbolOk s := by
  simp [manSymbolOk, complementSymbol]

theorem manPlainBit_complementSymbol (s : Symbol) : manPlainBit false (complementSymbol s) = manPlainBit true s := by
  simp [manPlainBit, complementSymbol]

/-- The two polarities decode a well-formed symbol and its complement alike. -/
theorem manDecodeBit_complementSymbol {s : Symbol} (h : manSymbolOk s = true) :
    manDecodeBit false (complementSymbol s) = manDecodeBit true s := by
  rw [manDecodeBit_of_ok _ _ h, manDecodeBit_of_ok _ _ ((manSymbolOk_complementSymbol s).trans h),
    manPlainBit_complementSymbol]

section Complements

variable {n : Nat}

theorem symbols_not (x : Word) (hn : n ≤ 8) : symbols n (~~~x) = (symbols n x).map complementSymbol := by
  induction n with
  | zero => rfl
  | succ n ih =>
    have hfirst : 2 * n + 1 < 16 := by omega
    have hsecond : 2 * n < 16 := by omega
    rw [symbols, symbols, List.map_cons, ih (by omega)]
    simp [complementSymbol, hfirst, hsecond]

theorem manCodeword_true (x : Word) (hn : n ≤ 8) :
    manCodeword n true x = lowBits (2 * n) (~~~manCodeword n false x) := by
  have hsymbols : ((dataBits n x).map (msym false)).map complementSymbol = (dataBits n x).map (msym true) := by
    simp [Function.comp_def, complementSymbol_msym]
  rw [← packSymbols_symbols _ hn, symbols_not _ hn, symbols_manCodeword false x hn, hsymbols, manCodeword]

/-- A word and its complement have the same malformed symbols. -/
theorem all_manSymbolOk_not (x : Word) (hn : n ≤ 8) :
    (symbols n (~~~x)).all manSymbolOk = (symbols n x).all manSymbolOk := by
  rw [symbols_not x hn, List.all_map]
  exact congrArg (symbols n x).all (funext manSymbolOk_complementSymbol)

theorem getLsbD_manDec_not {j : Nat} (x : Word) (hn : n ≤ 8) (hj : j < n) (hok : firstBit x j ≠ secondBit x j) :
    (packBits ((symbols n x).map (manDecodeBit true))).getLsbD j =
      (packBits ((symbols n (~~~x)).map (manDecodeBit false))).getLsbD j := by
  have hsymbol : manSymbolOk ⟨firstBit x j, secondBit x j⟩ = true := by simpa [manSymbolOk] using hok
  rw [symbols_not x hn, List.map_map, getLsbD_packBits_map_symbols _ x hj (by omega),
    getLsbD_packBits_map_symbols _ x hj (by omega), Function.comp_apply, manDecodeBit_complementSymbol hsymbol]

end Complements

/-- Settles O35: complementing a word complements each of its symbols, which is what the other polarity does. -/
theorem polarityComplements : Obligations.PolarityComplements := by
  unfold Obligations.PolarityComplements
  intro s din
  constructor
  · refine forall_mem_widths (fun w => (manEncOf din w, unitsOf w)) fun w => ?_
    exact ⟨_, exec_manEncOf din w _, (exec_manEncOf din w _).trans
      (congrArg (answers _ _ .ok) (manCodeword_true din (unitsOf_le w)))⟩
  · refine forall_mem_widths (fun w => (fun x => manDecOf x w, unitsOf w)) fun w => ?_
    have hn := unitsOf_le w
    refine ⟨_, _, _, exec_manDecOf din w _, ?_, fun j hj hok => getLsbD_manDec_not din hn hj hok, fun hok => ⟨?_, ?_⟩⟩
    · rw [exec_manDecOf, manDec, manDec, all_manSymbolOk_not din hn]
      rfl
    · rw [manDec, codeOfCheck_manSymbolOk, if_pos hok]
    · refine BitVec.eq_of_getLsbD_eq fun j _ => ?_
      by_cases hj : j < unitsOf w
      · exact getLsbD_manDec_not din hn hj (hok j hj)
      · exact (zeroFrom_packBits_map_symbols _ _ din j (by omega)).trans
          (zeroFrom_packBits_map_symbols _ _ (~~~din) j (by omega)).symm

end Sys2Proof.Proofs
end

section
/-! PROOFS. The nibble and byte tables (R87). The sixteen printed entries are checked against the rule one by one; a byte's entry is
the entries of its two nibbles, in the rule as in the table. -/

namespace Sys2Proof.Proofs

open Sys2Proof Sys2Proof.Machine Sys2Proof.Certificates

/-- The entry R87 prints for a nibble under a polarity. -/
def printedEntry (pol : Bool) (k : Nat) : Nat := (if pol then printedTableInverse else printedTable).getD k 0

theorem printedEntry_lt (pol : Bool) : ∀ k < 16, printedEntry pol k < 256 := by
  cases pol <;> decide

theorem toNat_tableEntry (pol : Bool) : ∀ k < 16, (tableEntry pol (BitVec.ofNat 4 k)).toNat = printedEntry pol k := by
  cases pol <;> decide

theorem manCodeword_nibble (pol : Bool) :
    ∀ k < 16, manCodeword 4 pol (BitVec.ofNat 16 k) = BitVec.ofNat 16 (printedEntry pol k) := by
  cases pol <;> decide

/-! ## A byte is its two nibbles -/

section Byte

variable {d : Nat}

theorem extract_low_nibble (d : Nat) : (BitVec.ofNat 16 d).extractLsb' 0 4 = BitVec.ofNat 4 (d % 16) := by
  apply BitVec.eq_of_toNat_eq
  simp only [BitVec.extractLsb'_toNat, BitVec.toNat_ofNat, Nat.shiftRight_zero]
  omega

theorem extract_high_nibble (hd : d < 256) : (BitVec.ofNat 16 d).extractLsb' 4 4 = BitVec.ofNat 4 (d / 16) := by
  apply BitVec.eq_of_toNat_eq
  simp only [BitVec.extractLsb'_toNat, BitVec.toNat_ofNat, Nat.shiftRight_eq_div_pow]
  omega

theorem toNat_lutEncode_byte (pol : Bool) (hd : d < 256) :
    (lutEncode .byte pol (BitVec.ofNat 16 d)).toNat = 256 * printedEntry pol (d / 16) + printedEntry pol (d % 16) := by
  have hlow := printedEntry_lt pol (d % 16) (by omega)
  rw [lutEncode, extract_low_nibble, extract_high_nibble hd, BitVec.toNat_append, toNat_tableEntry pol _ (by omega),
    toNat_tableEntry pol _ (by omega), ← Nat.shiftLeft_add_eq_or_of_lt hlow, Nat.shiftLeft_eq, Nat.mul_comm]

theorem ushiftRight_four (hd : d < 256) : BitVec.ofNat 16 d >>> 4 = BitVec.ofNat 16 (d / 16) := by
  apply BitVec.eq_of_toNat_eq
  simp only [BitVec.toNat_ushiftRight, BitVec.toNat_ofNat, Nat.shiftRight_eq_div_pow]
  omega

theorem dataBits_low_of_byte (d : Nat) :
    dataBits 4 (BitVec.ofNat 16 d) = dataBits 4 (BitVec.ofNat 16 (d % 16)) :=
  dataBits_congr _ _ _ fun k hk => by
    rw [BitVec.getLsbD_ofNat, BitVec.getLsbD_ofNat, Nat.testBit_mod_two_pow d 4 k, decide_eq_true hk, Bool.true_and]

/-- A byte's codeword is its nibbles' codewords, the high nibble's first (R42). -/
theorem manCodeword_byte (pol : Bool) (x : Word) :
    manCodeword 8 pol x = (manCodeword 4 pol (x >>> 4) <<< 8) ||| manCodeword 4 pol x := by
  have hbits : dataBits 8 x = dataBits 4 (x >>> 4) ++ dataBits 4 x := by simp [dataBits]
  rw [manCodeword, hbits, List.map_append, packSymbols_append]
  simp [manCodeword]

theorem ofNat_of_halves {high low : Nat} (hhigh : high < 256) (hlow : low < 256) :
    (BitVec.ofNat 16 high <<< 8) ||| BitVec.ofNat 16 low = BitVec.ofNat 16 (256 * high + low) := by
  apply BitVec.eq_of_toNat_eq
  have hshift : high <<< 8 = 256 * high := by rw [Nat.shiftLeft_eq, Nat.mul_comm]
  rw [BitVec.toNat_or, BitVec.toNat_shiftLeft, BitVec.toNat_ofNat, BitVec.toNat_ofNat, BitVec.toNat_ofNat,
    Nat.mod_eq_of_lt (show high < 2 ^ 16 by omega), Nat.mod_eq_of_lt (show low < 2 ^ 16 by omega),
    Nat.mod_eq_of_lt (show high <<< 8 < 2 ^ 16 by omega), ← Nat.shiftLeft_add_eq_or_of_lt hlow, hshift,
    Nat.mod_eq_of_lt (by omega)]

theorem manCodeword_byte_eq (pol : Bool) (hd : d < 256) :
    manCodeword 8 pol (BitVec.ofNat 16 d) =
      BitVec.ofNat 16 (256 * printedEntry pol (d / 16) + printedEntry pol (d % 16)) := by
  have hhigh : manCodeword 4 pol (BitVec.ofNat 16 d >>> 4) = BitVec.ofNat 16 (printedEntry pol (d / 16)) := by
    rw [ushiftRight_four hd, manCodeword_nibble pol _ (by omega)]
  have hlow : manCodeword 4 pol (BitVec.ofNat 16 d) = BitVec.ofNat 16 (printedEntry pol (d % 16)) := by
    rw [← manCodeword_nibble pol _ (by omega), manCodeword, manCodeword, dataBits_low_of_byte]
  have hlt := printedEntry_lt pol (d % 16) (by omega)
  rw [manCodeword_byte, hhigh, hlow, ofNat_of_halves (printedEntry_lt pol (d / 16) (by omega)) hlt]

end Byte

/-- Settles O36: entry by entry for a nibble, and by the two halves for a byte. -/
theorem nibbleTableIsManEnc : Obligations.NibbleTableIsManEnc := by
  unfold Obligations.NibbleTableIsManEnc
  intro s
  refine ⟨fun k hk => ⟨toNat_tableEntry s.arch.pol k hk, ?_⟩, fun d hd => ⟨toNat_lutEncode_byte s.arch.pol hd, ?_⟩⟩
  · exact (exec_manEncOf _ .nibble s).trans (congrArg (answers s s.arch .ok) (manCodeword_nibble s.arch.pol k hk))
  · exact (exec_manEncOf _ .byte s).trans (congrArg (answers s s.arch .ok) (manCodeword_byte_eq s.arch.pol hd))

end Sys2Proof.Proofs
end

section
/-! PROOFS. COMBINED_DECODE of a block with a malformed codeword (R85). The codewords before the first malformed one are decoded
and counted as a valid block is; the malformed one is still in memory when its turn comes, sets ERR and ends the loop, and
RESULT is then the count. -/

namespace Sys2Proof.Proofs

open Sys2Proof Sys2Proof.Machine Sys2Proof.Certificates

/-! ## A block cut in two -/

theorem codewordsAt_append {m : Memory} {addr : Nat} {cws rest : List Word} :
    CodewordsAt m addr (cws ++ rest) ↔ CodewordsAt m addr cws ∧ CodewordsAt m (addr + 2 * cws.length) rest := by
  induction cws generalizing addr with
  | nil => simp [codewordsAt_nil]
  | cons cw cws ih =>
    rw [List.cons_append, codewordsAt_cons, ih, codewordsAt_cons, List.length_cons,
      show addr + 2 + 2 * cws.length = addr + 2 * (cws.length + 1) by omega]
    simp only [and_assoc]

/-- Where a whole block may be decoded, so may its first codewords. -/
theorem roomToDecode_mono {inp n k out : Nat} (h : RoomToDecode inp n out) (hk : k ≤ n) : RoomToDecode inp k out := by
  unfold RoomToDecode at *
  omega

/-! ## The valid codewords before the malformed one -/

/-- The byte a valid codeword decodes to (R82). -/
def plainByte (pol : Bool) (cw : Word) : Byte := (packBits ((symbols 8 cw).map (manPlainBit pol))).extractLsb' 0 8

theorem getLsbD_plainByte {b : Nat} (pol : Bool) (cw : Word) (hb : b < 8) :
    (plainByte pol cw).getLsbD b = (secondBit cw b ^^ pol) := by
  rw [plainByte, BitVec.getLsbD_extractLsb', Nat.zero_add, decide_eq_true hb, Bool.true_and,
    getLsbD_packBits_map_symbols _ cw hb (by decide), manPlainBit]

/-- A run of valid codewords keeps ERR clear and is counted, as far as CNT reaches. -/
theorem effects_manDeccB_of_valid (cws : List Word) (a : Arch) (hvalid : ∀ cw ∈ cws, manValid cw = true)
    (herr : a.err = false) (hfits : a.cnt.toNat + cws.length ≤ 65535) :
    (effects (cws.map .manDeccB) a).1.err = false ∧
      (effects (cws.map .manDeccB) a).1.cnt.toNat = a.cnt.toNat + cws.length ∧
      decodedBytes .manDeccB cws a = cws.map (plainByte a.pol) := by
  induction cws generalizing a with
  | nil => exact ⟨herr, rfl, rfl⟩
  | cons cw cws ih =>
    obtain ⟨hcw, hcws⟩ := List.forall_mem_cons.mp hvalid
    rw [List.length_cons] at hfits
    have hcount : (account true a).cnt.toNat = a.cnt.toNat + 1 := by
      rw [account_counts a herr, countUp_toNat]
      omega
    obtain ⟨herr', hcnt', hbytes⟩ := ih (account true a) hcws (by rw [account_err, herr]; rfl) (by omega)
    have hunit := effect_manDeccB_of_valid a hcw
    rw [decodedBytes, List.map_cons, effects_cons, hunit]
    refine ⟨herr', ?_, ?_⟩
    · rw [hcnt', hcount, List.length_cons]
      omega
    · rw [account_pol] at hbytes
      rw [List.map_cons, List.map_cons]
      exact congrArg (plainByte a.pol cw :: ·) hbytes

/-! ## The loop -/

theorem effect_manDeccB_of_malformed {cw : Word} (a : Arch) (h : manValid cw = false) :
    effect (.manDeccB cw) a = (failed a, ⟨.malformed, 0x0000#16⟩) := by
  rw [effect_manDeccB, h]; rfl

/-- The loop ends at a malformed codeword, having set ERR. -/
theorem combinedLoop_of_malformed {inp out k m : Nat} {w : HostWorld} {cw : Word} {rest : List Word}
    (hin : CodewordsAt w.mem (inp + 2 * k) (cw :: rest)) (hbad : manValid cw = false) :
    combinedLoop inp out (m + 1) k w = .next (performed (.manDeccB cw) w, ()) := by
  simp only [combinedLoop, readCodeword_of_codewordsAt hin, issue_eq, andThen_next, effect_manDeccB_of_malformed _ hbad]
  rfl

theorem csrRead_result_of_err {a : Arch} (h : a.err = true) : csrRead .result a = a.cnt := by
  rw [csrRead, h]; rfl

/-- What COMBINED_DECODE leaves of a block whose first malformed codeword comes after the valid ones given. -/
def StoppedAfter (out : Nat) (good : List Word) (w w' : HostWorld) : Prop :=
  w'.block.arch.err = true ∧ w'.block.arch.cnt.toNat = good.length ∧
    w'.mem = storeBytes w.mem out (good.map (plainByte w.block.arch.pol))

theorem ends_combinedLoop_of_malformed {inp out : Nat} {good rest : List Word} {bad : Word} {w : HostWorld}
    (hgood : ∀ cw ∈ good, manValid cw = true) (hbad : manValid bad = false)
    (hin : CodewordsAt w.mem inp (good ++ bad :: rest)) (hroom : RoomToDecode inp (good ++ bad :: rest).length out)
    (herr : w.block.arch.err = false) (hcnt : w.block.arch.cnt = 0x0000#16) (hfits : good.length ≤ 65535) :
    Ends (combinedLoop inp out (good ++ bad :: rest).length 0 w) fun w' _ => StoppedAfter out good w w' := by
  rw [List.length_append, List.length_cons] at hroom ⊢
  obtain ⟨hfirst, hlast⟩ := codewordsAt_append.mp hin
  have hroomGood : RoomToDecode inp (0 + good.length) out := roomToDecode_mono hroom (by omega)
  obtain ⟨w1, _, hrun, harch, hmem⟩ := ends_forUp_decodeOne .manDeccB (k := 0) (w := w) hfirst hroomGood
  obtain ⟨-, hcount, hbytes⟩ := effects_manDeccB_of_valid good w.block.arch hgood herr (by simpa [hcnt] using hfits)
  rw [hbytes, Nat.add_zero] at hmem
  have hwritten : SameOutside out good.length w.mem w1.mem := by
    have hsame := sameOutside_storeBytes w.mem out (good.map (plainByte w.block.arch.pol))
    rwa [← hmem, List.length_map] at hsame
  have hstill : CodewordsAt w1.mem (inp + 2 * (0 + good.length)) (bad :: rest) := by
    rw [Nat.zero_add]
    refine codewordsAt_of_sameOutside hlast hwritten ?_
    unfold RoomToDecode at hroom
    rw [List.length_cons]
    omega
  rw [combinedLoop_of_valid _ hgood hfirst hroomGood, hrun, andThen_next, combinedLoop_of_malformed hstill hbad, ends_next]
  refine ⟨?_, ?_, hmem⟩
  · rw [performed_arch, effect_manDeccB_of_malformed _ hbad]
    rfl
  · rw [performed_arch, effect_manDeccB_of_malformed _ hbad, failed, harch, hcount, hcnt]
    exact Nat.zero_add _

theorem ends_combinedDecode_of_malformed {inp out : Nat} {good rest : List Word} {bad : Word} {w : HostWorld}
    (hgood : ∀ cw ∈ good, manValid cw = true) (hbad : manValid bad = false)
    (hlen : (good ++ bad :: rest).length ≤ 65535) (hin : CodewordsAt w.mem inp (good ++ bad :: rest))
    (hbuffers : DecodeBuffersOk inp (2 * (good ++ bad :: rest).length) out) :
    Ends (combinedDecode inp (2 * (good ++ bad :: rest).length) out w) fun w' r =>
      r = (BitVec.ofNat 16 good.length, true) ∧ StoppedAfter out good w w' := by
  obtain ⟨heven, hhalf⟩ := even_div_two (good ++ bad :: rest).length
  simp only [combinedDecode, blockToDecode_of_ok heven (hhalf.symm ▸ hlen) hbuffers, hhalf, andThen_next]
  refine (ends_beginBlock w).andThen fun w1 _ ⟨harch1, hmem1⟩ => ?_
  have hfits : good.length ≤ 65535 := by
    rw [List.length_append] at hlen
    omega
  have hloop := ends_combinedLoop_of_malformed (w := w1) hgood hbad (hmem1 ▸ hin) (roomToDecode_of_buffersOk hbuffers)
    (by rw [harch1]; rfl) (by rw [harch1]; rfl) hfits
  refine hloop.andThen fun w2 _ ⟨herr, hcnt, hmem2⟩ => ?_
  have hresult : csrRead .result w2.block.arch = BitVec.ofNat 16 good.length := by
    rw [csrRead_result_of_err herr, ← hcnt, BitVec.ofNat_toNat, BitVec.setWidth_eq]
  have hpol : w1.block.arch.pol = w.block.arch.pol := by rw [harch1]; rfl
  simp only [issue_eq, andThen_next, ends_done, performed_arch, effect_csrrResult, effect_csrrStatus, okWith, hresult,
    csrRead_status_err, herr, true_and]
  rw [hmem1, hpol] at hmem2
  exact ⟨herr, hcnt, hmem2⟩

/-- Settles O47: the block is its first k codewords, which are valid, the malformed one, and those after it. -/
theorem combinedDecodeStopsAtTheFirstFailure : Obligations.CombinedDecodeStopsAtTheFirstFailure := by
  unfold Obligations.CombinedDecodeStopsAtTheFirstFailure
  intro w inp out k cws hk hlen hin hbuffers hgood hbad
  have hsplit : cws.take k ++ cws[k] :: cws.drop (k + 1) = cws := by
    rw [← List.drop_eq_getElem_cons hk, List.take_append_drop]
  have htake : (cws.take k).length = k := by simp; omega
  have hvalid : ∀ cw ∈ cws.take k, manValid cw = true := by
    intro cw hcw
    obtain ⟨j, hj, rfl⟩ := List.getElem_of_mem hcw
    rw [List.getElem_take, manValid_iff]
    exact hgood j (htake ▸ hj)
  have hmalformed : manValid cws[k] = false := Bool.eq_false_iff.mpr (mt (manValid_iff _).mp hbad)
  have hrun := ends_combinedDecode_of_malformed (rest := cws.drop (k + 1)) (w := w) (inp := inp) (out := out)
    hvalid hmalformed
  rw [hsplit] at hrun
  obtain ⟨w', _, hdecode, rfl, herr, hcnt, hmem⟩ := hrun hlen hin hbuffers
  rw [htake] at hdecode hcnt
  refine ⟨w', hdecode, herr, hcnt, fun j hj => ?_, ?_⟩
  · have hbyte := bytesAt_storeBytes w.mem out ((cws.take k).map (plainByte w.block.arch.pol)) j (by simp; omega)
    rw [← hmem, List.getElem_map, List.getElem_take] at hbyte
    exact ⟨_, hbyte, fun b => getLsbD_plainByte _ _⟩
  · have hsame := sameOutside_storeBytes w.mem out ((cws.take k).map (plainByte w.block.arch.pol))
    rwa [← hmem, List.length_map, htake] at hsame

end Sys2Proof.Proofs
end

section
/-! PROOFS. The commands of the stateful codes at every width (R24, R42). A codeword is known by its symbols, the level it leaves is
its last bit, and its decode from the record the encode began with gives the data and the encoder's record; so a stream of
codewords decodes command by command. -/

namespace Sys2Proof.Proofs

open Sys2Proof Sys2Proof.Machine Sys2Proof.Certificates

/-! ## A packed word bit by bit -/

/-- A packed word holds the head of its list in the highest place, and its tail below. -/
theorem getLsbD_packBits_cons {bits : List Bool} (b : Bool) (h : bits.length < 16) (k : Nat) :
    (packBits (b :: bits)).getLsbD k = if k = bits.length then b else (packBits bits).getLsbD k := by
  have hone : packBits [b] = zextBit b := rfl
  rw [← List.singleton_append, packBits_append, hone, BitVec.getLsbD_or, BitVec.getLsbD_shiftLeft]
  obtain hlow | rfl | hhigh := Nat.lt_trichotomy k bits.length
  · simp [hlow, hlow.ne]
  · rw [getLsbD_packBits_above bits _ le_rfl, Nat.sub_self, getLsbD_zextBit_zero]
    simp [h]
  · have habove : (zextBit b).getLsbD (k - bits.length) = false :=
      getLsbD_packBits_above [b] _ (Nat.sub_pos_of_lt hhigh)
    simp [habove, hhigh.ne']

/-! ## One encode command -/

/-- The codeword of an encode command holds the symbols of its data bits. -/
theorem symbols_dout_encodeAt (code : LineCode) (din : Word) (w : Width) (a : Arch) :
    symbols (unitsOf w) (effect (encodeAt code din w) a).2.dout = lineSymbols code a (dataBits (unitsOf w) din) := by
  obtain ⟨-, hsymbols⟩ := effects_encodeAt code [(w, din)] a
  simpa [streamSymbols, streamBits] using hsymbols

/-- The level after a word of any width is that of its last bit (R24). -/
theorem advancePrev_symbols (w : Width) (x : Word) (a : Arch) :
    advancePrev (symbols (unitsOf w) x) a = { a with prev := secondBit x 0 } := by
  have hlevel : lineEnd a.prev (symbols (unitsOf w) x) = secondBit x 0 := by
    cases w <;> exact lineEnd_symbols a.prev _ x
  rw [advancePrev, hlevel]

/-- An encode command of a stateful code answers OK and leaves PREV at the last bit of its codeword. -/
theorem exec_encodeAt_stateful (code : StatefulCode) (din : Word) (w : Width) (s : State) :
    exec (encodeAt (.stateful code) din w) s =
      answers s { s.arch with prev := secondBit (effect (encodeAt (.stateful code) din w) s.arch).2.dout 0 } .ok
        (effect (encodeAt (.stateful code) din w) s.arch).2.dout := by
  rw [exec_eq_finish_effect, ← advancePrev_symbols w, symbols_dout_encodeAt, effect_encodeAt]
  rfl

/-! ## One decode command -/

/-- The decode command of a stateful code at each width (R65). -/
def decodeAt : StatefulCode → Word → Width → Instr
  | .dm => dmDecOf
  | .bmc => bmcDecOf

/-- The data bits of a run of symbols from the level `p` (R101, R111). -/
def lineBits : StatefulCode → Bool → List Symbol → List Bool
  | .dm => dmBits
  | .bmc => fun _ => List.map bmcBit

/-- A decode command packs the data bits of its symbols, and carries the line level on. -/
theorem effect_decodeAt (code : StatefulCode) (x : Word) (w : Width) (a : Arch) :
    effect (decodeAt code x w) a =
      (advancePrev (symbols (unitsOf w) x) a, okWith (packBits (lineBits code a.prev (symbols (unitsOf w) x)))) := by
  cases code <;> cases w <;> rfl

theorem exec_decodeAt (code : StatefulCode) (x : Word) (w : Width) (s : State) :
    exec (decodeAt code x w) s =
      answers s { s.arch with prev := secondBit x 0 } .ok
        (packBits (lineBits code s.arch.prev (symbols (unitsOf w) x))) := by
  rw [exec_eq_finish_effect, effect_decodeAt, advancePrev_symbols]
  rfl

@[simp] theorem length_lineBits (code : StatefulCode) (p : Bool) (ss : List Symbol) :
    (lineBits code p ss).length = ss.length := by
  cases code <;> simp [lineBits]

theorem zeroFrom_lineBits (code : StatefulCode) (p : Bool) (n : Nat) (x : Word) :
    ZeroFrom n (packBits (lineBits code p (symbols n x))) := by
  have hzero := zeroFrom_packBits (lineBits code p (symbols n x))
  rwa [length_lineBits, length_symbols] at hzero

/-! ## Decoding what was encoded -/

theorem lineBits_lineSymbols (code : StatefulCode) (a : Arch) (bits : List Bool) :
    lineBits code a.prev (lineSymbols (.stateful code) a bits) = bits := by
  cases code with
  | dm => exact dmBits_dmSymbols a.prev bits
  | bmc => exact bmcBit_bmcSymbols a.prev bits

/-- The decode of a codeword from the record its encode began with gives the data and the record its encode left. -/
theorem effect_decodeAt_codeword (code : StatefulCode) (din : Word) (w : Width) (a : Arch) :
    effect (decodeAt code (effect (encodeAt (.stateful code) din w) a).2.dout w) a =
      ((effect (encodeAt (.stateful code) din w) a).1, okWith (lowBits (unitsOf w) din)) := by
  have hn := unitsOf_le w
  rw [effect_decodeAt, symbols_dout_encodeAt, lineBits_lineSymbols, packBits_dataBits din (by omega), effect_encodeAt]
  rfl

/-- The decode of a stream of codewords follows its encode command by command (R103, R113). -/
theorem effects_decodeAt_stream (code : StatefulCode) (ws : List (Width × Word)) (a : Arch) :
    let encoded := effects (ws.map fun x => encodeAt (.stateful code) x.2 x.1) a
    effects ((ws.zip encoded.2).map fun x => decodeAt code x.2.dout x.1.1) a =
      (encoded.1, ws.map fun x => okWith (lowBits (unitsOf x.1) x.2)) := by
  induction ws generalizing a with
  | nil => rfl
  | cons x ws ih =>
    obtain ⟨w, din⟩ := x
    simp only [List.map_cons, effects_cons, List.zip_cons_cons, effect_decodeAt_codeword, ih]

end Sys2Proof.Proofs
end

section
/-! PROOFS. Differential Manchester (R100 to R104). The level before a symbol is the second bit of the one before it, so a statement
about every symbol of a word follows the recursion of the code over the word's symbols, the first transmitted at the head. -/

namespace Sys2Proof.Proofs

open Sys2Proof Sys2Proof.Machine Sys2Proof.Certificates

/-! ## The encode (R100) -/

@[simp] theorem din_dmEncOf (din : Word) (w : Width) : (dmEncOf din w).din = din := by cases w <;> rfl

/-- A word that holds the symbols of n data bits threads the level through them. -/
theorem threads_of_symbols_eq {n : Nat} {p : Bool} {c x : Word} (h : symbols n c = dmSymbols p (dataBits n x)) :
    ∀ j < n, firstBit c j = (if x.getLsbD j then levelBefore p n c j else !levelBefore p n c j) ∧
      secondBit c j = !firstBit c j := by
  induction n generalizing p with
  | zero => exact fun j hj => absurd hj j.not_lt_zero
  | succ n ih =>
    simp only [symbols, dataBits, dmSymbols, List.cons.injEq, Symbol.mk.injEq] at h
    obtain ⟨⟨hfirst, hsecond⟩, hrest⟩ := h
    rw [← hsecond] at hrest
    refine Nat.forall_lt_succ_right.mpr ⟨fun j hj => ?_, ?_⟩
    · rw [levelBefore_succ hj]
      exact ih hrest j hj
    · rw [levelBefore_last]
      exact ⟨hfirst, hsecond.trans (congrArg _ hfirst.symm)⟩

/-- Settles O5: the codeword's symbols are those the code gives its data bits from PREV. -/
theorem dmEncThreadsTheLevel : Obligations.DmEncThreadsTheLevel := by
  unfold Obligations.DmEncThreadsTheLevel
  refine ⟨onlyWords_of_anyWidth (by decide) rfl rfl rfl, fun s din => ?_⟩
  refine forall_mem_widths (fun w => (Laws.OpcodeRow.rowWord (dmEncOf din w), dmEncOf din w, unitsOf w)) fun w => ?_
  exact ⟨decode_rowWord (din_dmEncOf din w), _, exec_encodeAt_stateful .dm din w s,
    zeroFrom_dout_encodeAt (.stateful .dm) din w s.arch,
    threads_of_symbols_eq (symbols_dout_encodeAt (.stateful .dm) din w s.arch)⟩

/-! ## The decode (R101) -/

@[simp] theorem din_dmDecOf (din : Word) (w : Width) : (dmDecOf din w).din = din := by cases w <;> rfl

/-- Each decoded bit compares the level before its symbol with the symbol's first bit. -/
theorem getLsbD_packBits_dmBits {n : Nat} (p : Bool) (x : Word) (hn : n ≤ 16) :
    ∀ j < n, (packBits (dmBits p (symbols n x))).getLsbD j = (levelBefore p n x j == firstBit x j) := by
  induction n generalizing p with
  | zero => exact fun j hj => absurd hj j.not_lt_zero
  | succ n ih =>
    intro j hj
    rw [symbols, dmBits, getLsbD_packBits_cons _ (by simp; omega), length_dmBits, length_symbols]
    split
    · next hlast => rw [hlast, levelBefore_last]; rfl
    · next hbelow =>
      have hj' : j < n := by omega
      rw [levelBefore_succ hj']
      exact ih _ (by omega) j hj'

/-- Settles O6: a decode compares and carries on the second bit, whatever the symbols. -/
theorem dmDecComparesWithTheLevel : Obligations.DmDecComparesWithTheLevel := by
  unfold Obligations.DmDecComparesWithTheLevel
  refine ⟨onlyWords_of_anyWidth (by decide) rfl rfl rfl, fun s din => ?_⟩
  refine forall_mem_widths (fun w => (Laws.OpcodeRow.rowWord (dmDecOf din w), dmDecOf din w, unitsOf w)) fun w => ?_
  have hn := unitsOf_le w
  exact ⟨decode_rowWord (din_dmDecOf din w), _, exec_decodeAt .dm din w s, zeroFrom_lineBits .dm s.arch.prev _ din,
    getLsbD_packBits_dmBits s.arch.prev din (hn.trans (by decide))⟩

/-! ## Streams (R102, R103) -/

theorem dmLine_dmSymbols (p : Bool) (bits : List Bool) : DmLine p bits (dmSymbols p bits) := by
  induction bits generalizing p with
  | nil => trivial
  | cons d rest ih =>
    refine ⟨by simp, ?_, ih _⟩
    cases d <;> simp

/-- Settles O39: a stream's symbols are those of all its data bits, however it is cut into commands. -/
theorem dmStreamsHaveTheirTransitions : Obligations.DmStreamsHaveTheirTransitions := by
  unfold Obligations.DmStreamsHaveTheirTransitions
  intro s ws
  obtain ⟨t, hencode, -⟩ := perform_eq_effects (ws.map fun x => encodeAt (.stateful .dm) x.2 x.1) s
  obtain ⟨-, hsymbols⟩ := effects_encodeAt (.stateful .dm) ws s.arch
  exact ⟨t, _, hencode, hsymbols ▸ dmLine_dmSymbols s.arch.prev (streamBits ws)⟩

/-- Settles O41: each codeword is decoded from the record its encode began with. -/
theorem dmStreamRoundTrip : Obligations.DmStreamRoundTrip := by
  unfold Obligations.DmStreamRoundTrip
  intro s ws
  obtain ⟨t, hencode, ht⟩ := perform_eq_effects (ws.map fun x => encodeAt (.stateful .dm) x.2 x.1) s
  obtain ⟨u, hdecode, hu⟩ := perform_eq_effects
    ((ws.zip (effects (ws.map fun x => encodeAt (.stateful .dm) x.2 x.1) s.arch).2).map
      fun x => decodeAt .dm x.2.dout x.1.1) { t with arch := s.arch }
  rw [effects_decodeAt_stream] at hdecode hu
  exact ⟨t, _, u, _, hencode, hdecode, rfl, hu.trans ht.symm⟩

/-! ## The transition mask (R104) -/

/-- The transitions of a run of levels are those of its parts, the second from the level the first ends at. -/
theorem transitions_append (p : Bool) (vs ws : List Bool) :
    transitions p (vs ++ ws) = transitions p vs ++ transitions (vs.getLastD p) ws := by
  induction vs generalizing p with
  | nil => rfl
  | cons v vs ih => rw [List.cons_append, transitions, ih, transitions, List.cons_append, List.getLastD_cons]

/-- Each bit of a mask compares a level with the one before it (R122). -/
theorem getLsbD_packBits_transitions {n : Nat} (p : Bool) (x : Word) (hn : n ≤ 16) :
    ∀ k < n, (packBits (transitions p (dataBits n x))).getLsbD k =
      (x.getLsbD k ^^ if k + 1 = n then p else x.getLsbD (k + 1)) := by
  induction n generalizing p with
  | zero => exact fun k hk => absurd hk k.not_lt_zero
  | succ n ih =>
    intro k hk
    rw [dataBits, transitions, getLsbD_packBits_cons _ (by simp; omega), length_transitions, length_dataBits]
    split
    · next hlast => rw [hlast, if_pos rfl]
    · next hbelow =>
      rw [ih _ (by omega) k (by omega), if_neg (show k + 1 ≠ n + 1 by omega)]
      split
      · next hlast => rw [hlast]
      · rfl

theorem exec_transB (x : Word) (s : State) :
    exec (.transB x) s = answers s s.arch .ok (packBits (transitions s.arch.prev (dataBits 8 x))) := rfl

/-- The masks of a word's two bytes, the second from the level the first ends at, are the mask of the word. -/
theorem masks_joined (p : Bool) (x : Word) :
    (packBits (transitions p (dataBits 8 (x >>> 8))) <<< 8) |||
        packBits (transitions (x.getLsbD 8) (dataBits 8 (x &&& 0x00FF#16))) =
      packBits (transitions p (dataBits 16 x)) := by
  have hlow : dataBits 8 (x &&& 0x00FF#16) = dataBits 8 x := by simp [dataBits]
  have hsplit : dataBits 16 x = dataBits 8 (x >>> 8) ++ dataBits 8 x := by simp [dataBits]
  have hlevel : (dataBits 8 (x >>> 8)).getLastD p = x.getLsbD 8 := by simp [dataBits]
  rw [hlow, hsplit, transitions_append, hlevel, packBits_append, length_transitions, length_dataBits]

/-- Settles O43: the level before a symbol is the line level before the symbol's first bit. -/
theorem dmDecIsTheTransitionMask : Obligations.DmDecIsTheTransitionMask := by
  unfold Obligations.DmDecIsTheTransitionMask
  intro s x
  refine ⟨_, _, _, exec_transB _ s, exec_transB _ _, exec_decodeAt .dm x .byte s, fun j hj => ?_⟩
  have hlevel : levelBefore s.arch.prev 8 x j = if 2 * j + 1 + 1 = 16 then s.arch.prev else x.getLsbD (2 * j + 1 + 1) := by
    simp only [levelBefore, secondBit, show 2 * j + 1 + 1 = 2 * (j + 1) by omega, show 2 * (j + 1) = 16 ↔ j + 1 = 8 by omega]
  calc (packBits (dmBits s.arch.prev (symbols 8 x))).getLsbD j
      = (levelBefore s.arch.prev 8 x j == firstBit x j) :=
        getLsbD_packBits_dmBits s.arch.prev x (by decide) j hj
    _ = !(firstBit x j ^^ levelBefore s.arch.prev 8 x j) := by
        cases firstBit x j <;> simp
    _ = !(packBits (transitions s.arch.prev (dataBits 16 x))).getLsbD (2 * j + 1) := by
        rw [getLsbD_packBits_transitions _ x (by decide) _ (by omega), hlevel, firstBit]
    _ = _ := by rw [← masks_joined]; rfl

end Sys2Proof.Proofs
end

section
/-! PROOFS. Biphase Mark Code (R110 to R114). A codeword is known by two facts: every symbol begins with a boundary transition, and
has a mid-bit transition iff its data bit is 1. The first makes the check pass, and a flipped bit is found where it takes a
boundary transition away. -/

namespace Sys2Proof.Proofs

open Sys2Proof Sys2Proof.Machine Sys2Proof.Certificates

@[simp] theorem din_bmcEncOf (din : Word) (w : Width) : (bmcEncOf din w).din = din := by cases w <;> rfl

@[simp] theorem din_bmcDecOf (din : Word) (w : Width) : (bmcDecOf din w).din = din := by cases w <;> rfl

/-! ## The decode (R111) -/

/-- Each decoded bit is the mid-bit transition of its symbol. -/
theorem getLsbD_packBits_map_bmcBit {n j : Nat} (x : Word) (hn : n ≤ 16) (hj : j < n) :
    (packBits ((symbols n x).map bmcBit)).getLsbD j = (firstBit x j ^^ secondBit x j) :=
  getLsbD_packBits_map_symbols bmcBit x hj hn

/-- Settles O8: a decode reads each data bit from its own symbol, so PREV plays no part in it. -/
theorem bmcDecFindsMidTransitions : Obligations.BmcDecFindsMidTransitions := by
  unfold Obligations.BmcDecFindsMidTransitions
  refine ⟨onlyWords_of_anyWidth (by decide) rfl rfl rfl, fun s din => ?_⟩
  refine forall_mem_widths (fun w => (Laws.OpcodeRow.rowWord (bmcDecOf din w), bmcDecOf din w, unitsOf w)) fun w => ?_
  have hn := unitsOf_le w
  exact ⟨decode_rowWord (din_bmcDecOf din w), _, exec_decodeAt .bmc din w s, zeroFrom_lineBits .bmc s.arch.prev _ din,
    fun j => getLsbD_packBits_map_bmcBit din (hn.trans (by decide))⟩

/-! ## The encode (R110) -/

/-- The codeword BMC_ENC answers. -/
def bmcCodeword (din : Word) (w : Width) (a : Arch) : Word := (effect (bmcEncOf din w) a).2.dout

theorem exec_bmcEncOf (din : Word) (w : Width) (s : State) :
    exec (bmcEncOf din w) s =
      answers s { s.arch with prev := secondBit (bmcCodeword din w s.arch) 0 } .ok (bmcCodeword din w s.arch) :=
  exec_encodeAt_stateful .bmc din w s

theorem symbols_bmcCodeword (din : Word) (w : Width) (a : Arch) :
    symbols (unitsOf w) (bmcCodeword din w a) = bmcSymbols a.prev (dataBits (unitsOf w) din) :=
  symbols_dout_encodeAt (.stateful .bmc) din w a

/-- A codeword's encode leaves PREV at its last bit. -/
theorem effect_bmcEncOf_prev (din : Word) (w : Width) (a : Arch) :
    (effect (bmcEncOf din w) a).1.prev = secondBit (bmcCodeword din w a) 0 := by
  have hprev : (effect (bmcEncOf din w) a).1 = advancePrev (symbols (unitsOf w) (bmcCodeword din w a)) a := by
    rw [symbols_bmcCodeword]
    exact congrArg Prod.fst (effect_encodeAt (.stateful .bmc) din w a)
  rw [hprev, advancePrev_symbols]

theorem bmcValid_bmcCodeword (din : Word) (w : Width) (a : Arch) :
    bmcValid a.prev (symbols (unitsOf w) (bmcCodeword din w a)) = true := by
  rw [symbols_bmcCodeword, bmcValid_bmcSymbols]

/-- Every symbol of a codeword begins with a boundary transition. -/
theorem bmcOk_bmcCodeword (din : Word) (w : Width) (a : Arch) : BmcOk a.prev (unitsOf w) (bmcCodeword din w a) :=
  (bmcValid_symbols_iff _ _ _).mp (bmcValid_bmcCodeword din w a)

/-- Every symbol of a codeword has a mid-bit transition iff its data bit is 1. -/
theorem midTransition_bmcCodeword {w : Width} {j : Nat} (din : Word) (a : Arch) (hj : j < unitsOf w) :
    (firstBit (bmcCodeword din w a) j ^^ secondBit (bmcCodeword din w a) j) = din.getLsbD j := by
  have hn : unitsOf w ≤ 16 := (unitsOf_le w).trans (by decide)
  rw [← getLsbD_packBits_map_bmcBit _ hn hj, symbols_bmcCodeword, bmcBit_bmcSymbols,
    getLsbD_packBits_dataBits _ j din hn, decide_eq_true hj, Bool.true_and]

/-- Settles O7: the boundary transition gives a symbol's first bit, and the data bit then its second. -/
theorem bmcEncThreadsTheLevel : Obligations.BmcEncThreadsTheLevel := by
  unfold Obligations.BmcEncThreadsTheLevel
  refine ⟨onlyWords_of_anyWidth (by decide) rfl rfl rfl, fun s din => ?_⟩
  refine forall_mem_widths (fun w => (Laws.OpcodeRow.rowWord (bmcEncOf din w), bmcEncOf din w, unitsOf w)) fun w => ?_
  refine ⟨decode_rowWord (din_bmcEncOf din w), _, exec_bmcEncOf din w s,
    zeroFrom_dout_encodeAt (.stateful .bmc) din w s.arch,
    fun j hj => ⟨Bool.eq_not_of_ne (bmcOk_bmcCodeword din w s.arch j hj), ?_⟩⟩
  rw [← midTransition_bmcCodeword din s.arch hj]
  cases firstBit (bmcCodeword din w s.arch) j <;> simp

/-! ## Streams (R112) -/

theorem bmcLine_bmcSymbols (p : Bool) (bits : List Bool) : BmcLine p bits (bmcSymbols p bits) := by
  induction bits generalizing p with
  | nil => trivial
  | cons d rest ih =>
    refine ⟨by simp, ?_, ih _⟩
    cases d <;> simp

/-- Settles O40: a stream's symbols are those of all its data bits, however it is cut into commands. -/
theorem bmcStreamsHaveTheirTransitions : Obligations.BmcStreamsHaveTheirTransitions := by
  unfold Obligations.BmcStreamsHaveTheirTransitions
  intro s ws
  obtain ⟨t, hencode, -⟩ := perform_eq_effects (ws.map fun x => encodeAt (.stateful .bmc) x.2 x.1) s
  obtain ⟨-, hsymbols⟩ := effects_encodeAt (.stateful .bmc) ws s.arch
  exact ⟨t, _, hencode, hsymbols ▸ bmcLine_bmcSymbols s.arch.prev (streamBits ws)⟩

/-! ## The check (R121) -/

theorem effect_bmcChkOf (x : Word) (w : Width) (a : Arch) :
    effect (bmcChkOf x w) a =
      (account (bmcValid a.prev (symbols (unitsOf w) x)) (advancePrev (symbols (unitsOf w) x) a),
        ⟨codeOfCheck (bmcValid a.prev (symbols (unitsOf w) x)), 0x0000#16⟩) := by
  cases w <;> rfl

/-- A check leaves PREV at the last bit of its word, whether it passes or not. -/
theorem effect_bmcChkOf_prev (x : Word) (w : Width) (a : Arch) :
    (effect (bmcChkOf x w) a).1.prev = secondBit x 0 := by
  rw [effect_bmcChkOf, account_prev, advancePrev_symbols]

theorem effect_bmcChkOf_of_ok {x : Word} {w : Width} {a : Arch} (h : BmcOk a.prev (unitsOf w) x) :
    (effect (bmcChkOf x w) a).2 = ⟨.ok, 0x0000#16⟩ := by
  rw [effect_bmcChkOf, (bmcValid_symbols_iff _ _ _).mpr h, codeOfCheck_true]

theorem effect_bmcChkOf_of_not_ok {x : Word} {w : Width} {a : Arch} (h : ¬ BmcOk a.prev (unitsOf w) x) :
    (effect (bmcChkOf x w) a).2 = ⟨.malformed, 0x0000#16⟩ := by
  rw [effect_bmcChkOf, Bool.eq_false_iff.mpr (mt (bmcValid_symbols_iff _ _ _).mp h), codeOfCheck_false]

/-- A check of a malformed word answers `MALFORMED`. -/
theorem exec_bmcChkOf_of_not_ok {x : Word} {w : Width} {s : State} (h : ¬ BmcOk s.arch.prev (unitsOf w) x) :
    ∃ t, exec (bmcChkOf x w) s = .next t ∧ t.response = some ⟨.malformed, 0x0000#16⟩ :=
  ⟨_, exec_eq_finish_effect _ s, congrArg some (effect_bmcChkOf_of_not_ok h)⟩

/-! ## The round trip (R113) -/

/-- The operands of a stream of BMC_ENC commands, each beside the response it gets. -/
def bmcEncoded (ws : List (Width × Word)) (a : Arch) : List ((Width × Word) × Response) :=
  ws.zip (effects (ws.map fun x => bmcEncOf x.2 x.1) a).2

theorem effects_bmcDecOf_stream (ws : List (Width × Word)) (a : Arch) :
    effects ((bmcEncoded ws a).map fun x => bmcDecOf x.2.dout x.1.1) a =
      ((effects (ws.map fun x => bmcEncOf x.2 x.1) a).1, ws.map fun x => okWith (lowBits (unitsOf x.1) x.2)) :=
  effects_decodeAt_stream .bmc ws a

/-- The checks of a stream's codewords, from the level its encode began at, pass and end at the encode's level. -/
theorem effects_bmcChkOf_stream (ws : List (Width × Word)) {a b : Arch} (h : b.prev = a.prev) :
    (∀ r ∈ (effects ((bmcEncoded ws a).map fun x => bmcChkOf x.2.dout x.1.1) b).2, r.rsp = .ok) ∧
    (effects ((bmcEncoded ws a).map fun x => bmcChkOf x.2.dout x.1.1) b).1.prev =
      (effects (ws.map fun x => bmcEncOf x.2 x.1) a).1.prev := by
  induction ws generalizing a b with
  | nil => exact ⟨fun r hr => absurd hr List.not_mem_nil, h⟩
  | cons x ws ih =>
    obtain ⟨w, din⟩ := x
    have hok : (effect (bmcChkOf (bmcCodeword din w a) w) b).2 = ⟨.ok, 0x0000#16⟩ :=
      effect_bmcChkOf_of_ok (h ▸ bmcOk_bmcCodeword din w a)
    have hlevel : (effect (bmcChkOf (bmcCodeword din w a) w) b).1.prev = (effect (bmcEncOf din w) a).1.prev := by
      rw [effect_bmcChkOf_prev, effect_bmcEncOf_prev]
    obtain ⟨hrest, hend⟩ := ih hlevel
    exact ⟨List.forall_mem_cons.mpr ⟨congrArg Response.rsp hok, hrest⟩, hend⟩

/-- Settles O42: each codeword is decoded, and checked, from the level its encode began at. -/
theorem bmcStreamRoundTrip : Obligations.BmcStreamRoundTrip := by
  unfold Obligations.BmcStreamRoundTrip
  intro s ws
  obtain ⟨t, hencode, ht⟩ := perform_eq_effects (ws.map fun x => bmcEncOf x.2 x.1) s
  obtain ⟨u, hdecode, hu⟩ := perform_eq_effects ((bmcEncoded ws s.arch).map fun x => bmcDecOf x.2.dout x.1.1)
    { t with arch := s.arch }
  obtain ⟨v, hcheck, hv⟩ := perform_eq_effects ((bmcEncoded ws s.arch).map fun x => bmcChkOf x.2.dout x.1.1)
    { t with arch := s.arch }
  obtain ⟨hok, hlevel⟩ := effects_bmcChkOf_stream ws (Eq.refl s.arch.prev)
  rw [effects_bmcDecOf_stream] at hdecode hu
  refine ⟨t, _, u, _, v, _, hencode, hdecode, rfl, hu.trans ht.symm, hcheck, hok, ?_⟩
  rw [hv, hlevel, ht]

/-! ## A flipped bit (R114) -/

section Flips

variable {p : Bool} {n j : Nat} {x : Word}

theorem levelBefore_flip {b : Nat} (p : Bool) (n j : Nat) (x : Word) (hb : b < 16) :
    levelBefore p n (x ^^^ BitVec.twoPow 16 b) j =
      (levelBefore p n x j ^^ decide (j + 1 ≠ n ∧ b = 2 * (j + 1))) := by
  unfold levelBefore
  split
  · next hlast => simp [hlast]
  · next hbelow => simp [secondBit_flip x hb, hbelow]

/-- A symbol whose first bit is flipped begins at the level before it. -/
theorem firstBit_flip_first (hj : j < n) (hn : n ≤ 8) (hok : BmcOk p n x) :
    firstBit (x ^^^ BitVec.twoPow 16 (2 * j + 1)) j = levelBefore p n (x ^^^ BitVec.twoPow 16 (2 * j + 1)) j := by
  have hlevel : ¬ (j + 1 ≠ n ∧ 2 * j + 1 = 2 * (j + 1)) := by omega
  rw [firstBit_flip x (by omega), levelBefore_flip p n j x (by omega), Bool.eq_not_of_ne (hok j hj),
    decide_eq_false hlevel]
  simp

/-- Where a second bit is flipped, the symbol after it in transmission begins at the level before it. -/
theorem firstBit_flip_second (hj : j + 1 < n) (hn : n ≤ 8) (hok : BmcOk p n x) :
    firstBit (x ^^^ BitVec.twoPow 16 (2 * (j + 1))) j =
      levelBefore p n (x ^^^ BitVec.twoPow 16 (2 * (j + 1))) j := by
  have hfirst : ¬ 2 * (j + 1) = 2 * j + 1 := by omega
  rw [firstBit_flip x (by omega), levelBefore_flip p n j x (by omega), Bool.eq_not_of_ne (hok j (by omega)),
    decide_eq_false hfirst, decide_eq_true ⟨hj.ne, rfl⟩]
  simp

/-- No symbol of the word depends on the second bit of its last symbol. -/
theorem bmcOk_flip_zero (hok : BmcOk p n x) : BmcOk p n (x ^^^ BitVec.twoPow 16 0) := by
  intro j hj
  rw [firstBit_flip x (by decide), levelBefore_flip p n j x (by decide)]
  simpa using hok j hj

/-- A word that begins with a boundary transition from one level does not begin with one from the other. -/
theorem not_bmcOk_not (hn : 0 < n) (hok : BmcOk p n x) : ¬ BmcOk (!p) n x := by
  obtain ⟨m, rfl⟩ := Nat.exists_eq_succ_of_ne_zero hn.ne'
  intro hother
  have hfirst := hok m m.lt_succ_self
  have hfirst' := hother m m.lt_succ_self
  rw [levelBefore_last] at hfirst hfirst'
  exact hfirst' (Bool.eq_not_of_ne hfirst)

end Flips

theorem unitsOf_pos (w : Width) : 0 < unitsOf w := by cases w <;> decide

/-- After an undetected flip of a word's last bit, the check of the stream's next word finds its first boundary wrong. -/
theorem bmcChk_next_finds_flip {p : Bool} {t : State} (next : Word) (w : Width) (s : State) (ht : t.arch.prev = !p) :
    ∃ c q u, exec (bmcEncOf next w) (withPrev p s) = answers (withPrev p s) { s.arch with prev := q } .ok c ∧
      exec (bmcChkOf c w) t = .next u ∧ u.response = some ⟨.malformed, 0x0000#16⟩ := by
  have hok : BmcOk p (unitsOf w) (bmcCodeword next w (withPrev p s).arch) := bmcOk_bmcCodeword next w _
  obtain ⟨u, hcheck, hresponse⟩ := exec_bmcChkOf_of_not_ok (s := t) (ht ▸ not_bmcOk_not (unitsOf_pos w) hok)
  exact ⟨_, _, u, exec_bmcEncOf next w (withPrev p s), hcheck, hresponse⟩

/-- Settles O44, by which symbol's boundary transition the flip takes away: its own, the next one's, or that of the next
word's first symbol. -/
theorem bmcChkFindsFlips : Obligations.BmcChkFindsFlips := by
  unfold Obligations.BmcChkFindsFlips
  intro s din next
  refine forall_mem_widths (fun w => (bmcEncOf din w, fun x => bmcChkOf x w, unitsOf w)) fun w => ?_
  have hn := unitsOf_le w
  have hok := bmcOk_bmcCodeword din w s.arch
  refine ⟨_, _, exec_bmcEncOf din w s, fun j hj => ?first, fun j hj hpos => ?second, ?last⟩
  case first =>
    exact exec_bmcChkOf_of_not_ok fun hflip => hflip j hj (firstBit_flip_first hj hn hok)
  case second =>
    obtain ⟨i, rfl⟩ := Nat.exists_eq_succ_of_ne_zero (Nat.one_le_iff_ne_zero.mp hpos)
    have hsame := firstBit_flip_second hj hn hok
    exact ⟨hsame, exec_bmcChkOf_of_not_ok fun hflip => hflip i (Nat.lt_of_succ_lt hj) hsame⟩
  case last =>
    have hpasses := effect_bmcChkOf_of_ok (bmcOk_flip_zero hok)
    refine ⟨_, exec_eq_finish_effect _ s, congrArg some hpasses, ?_⟩
    refine forall_mem_widths (fun v => (bmcEncOf next v, fun x => bmcChkOf x v)) fun v => ?_
    refine bmcChk_next_finds_flip next v s ?_
    exact (effect_bmcChkOf_prev _ w s.arch).trans ((secondBit_flip _ (by decide)).trans (Bool.xor_true _))

end Sys2Proof.Proofs
end

section
/-! PROOFS. The checks and the transition detector (R120 to R122). A word whose symbols are well formed is the DM code of what
DM_DEC reads from it, from any level, so MAN_CHK cannot tell that a stream is Differential Manchester. -/

namespace Sys2Proof.Proofs

open Sys2Proof Sys2Proof.Machine Sys2Proof.Certificates

/-! ## MAN_CHK (R120) -/

@[simp] theorem din_manChkOf (din : Word) (w : Width) : (manChkOf din w).din = din := by cases w <;> rfl

/-- From any level, well-formed symbols are the DM code of the data DM_DEC reads from them. -/
theorem dmSymbols_dmBits (p : Bool) {ss : List Symbol} (h : ss.all manSymbolOk = true) :
    dmSymbols p (dmBits p ss) = ss := by
  induction ss generalizing p with
  | nil => rfl
  | cons s rest ih =>
    obtain ⟨first, second⟩ := s
    obtain ⟨hhead, hrest⟩ := List.forall_mem_cons.mp (List.all_eq_true.mp h)
    have hfirst : (if (p == first) = true then p else !p) = first := by cases p <;> cases first <;> rfl
    have hsecond : (!first) = second := (Bool.eq_not_of_ne (bne_iff_ne.mp hhead).symm).symm
    rw [dmBits, dmSymbols, hfirst, hsecond, ih second (List.all_eq_true.mpr hrest)]

/-- A word that passes MAN_CHK is what DM_ENC answers to some data, whatever PREV is. -/
theorem exec_dmEncOf_of_manOk {x : Word} {w : Width} (s : State) (h : ManOk (unitsOf w) x) :
    ∃ d t, exec (dmEncOf d w) s = .next t ∧ t.response = some ⟨.ok, lowBits (2 * unitsOf w) x⟩ := by
  have hn := unitsOf_le w
  have hdata : dataBits (unitsOf w) (packBits (dmBits s.arch.prev (symbols (unitsOf w) x))) =
      dmBits s.arch.prev (symbols (unitsOf w) x) := by
    have hround := dataBits_packBits (dmBits s.arch.prev (symbols (unitsOf w) x)) (by simp; omega)
    rwa [length_dmBits, length_symbols] at hround
  have hanswer : (effect (encodeAt (.stateful .dm) (packBits (dmBits s.arch.prev (symbols (unitsOf w) x))) w) s.arch).2 =
      okWith (lowBits (2 * unitsOf w) x) := by
    rw [effect_encodeAt, hdata, lineSymbols, dmSymbols_dmBits _ ((all_manSymbolOk_symbols_iff _ x).mpr h),
      packSymbols_symbols x hn]
  exact ⟨_, _, exec_eq_finish_effect _ s, congrArg some hanswer⟩

/-- Settles O4: every symbol is checked by itself, and a word that passes is a DM codeword from any level. -/
theorem manChkChecksEachSymbol : Obligations.ManChkChecksEachSymbol := by
  unfold Obligations.ManChkChecksEachSymbol
  refine ⟨onlyWords_of_anyWidth (by decide) rfl rfl rfl, fun s x => ?dm, fun s din => ?check⟩
  case dm =>
    exact forall_mem_widths (fun w => (fun d => dmEncOf d w, unitsOf w)) fun w => exec_dmEncOf_of_manOk s
  case check =>
    refine forall_mem_widths (fun w => (Laws.OpcodeRow.rowWord (manChkOf din w), manChkOf din w, unitsOf w)) fun w => ?_
    refine ⟨decode_rowWord (din_manChkOf din w), ?_⟩
    split
    · next hok => exact exec_manChkOf_of_ok s hok
    · next hbad => exact exec_manChkOf_of_not_ok s hbad

/-! ## BMC_CHK (R121) -/

@[simp] theorem din_bmcChkOf (din : Word) (w : Width) : (bmcChkOf din w).din = din := by cases w <;> rfl

/-- BMC_CHK carries PREV to the word's last bit, and accounts for the unit. -/
theorem exec_bmcChkOf (din : Word) (w : Width) (s : State) :
    exec (bmcChkOf din w) s =
      answers s (account (bmcValid s.arch.prev (symbols (unitsOf w) din)) { s.arch with prev := secondBit din 0 })
        (codeOfCheck (bmcValid s.arch.prev (symbols (unitsOf w) din))) 0x0000#16 := by
  rw [exec_eq_finish_effect, effect_bmcChkOf, advancePrev_symbols]
  rfl

/-- Settles O9: the check passes iff each boundary has its transition, and PREV moves before the unit is accounted for. -/
theorem bmcChkChecksEachBoundary : Obligations.BmcChkChecksEachBoundary := by
  unfold Obligations.BmcChkChecksEachBoundary
  refine ⟨onlyWords_of_anyWidth (by decide) rfl rfl rfl, fun s din => ?_⟩
  refine forall_mem_widths (fun w => (Laws.OpcodeRow.rowWord (bmcChkOf din w), bmcChkOf din w, unitsOf w)) fun w => ?_
  refine ⟨decode_rowWord (din_bmcChkOf din w), ?_⟩
  rw [exec_bmcChkOf]
  split
  · next hok => rw [(bmcValid_symbols_iff _ _ din).mpr hok, account_true, codeOfCheck_true]
  · next hbad =>
    rw [Bool.eq_false_iff.mpr (mt (bmcValid_symbols_iff _ _ din).mp hbad), account_false, codeOfCheck_false]

/-! ## TRANS (R122) -/

/-- The closed form of a word's transition mask. -/
theorem extract_packBits_transitions (p : Bool) (x : Word) :
    (packBits (transitions p (dataBits 8 x))).extractLsb' 0 8 =
      (x.extractLsb' 0 8) ^^^ (BitVec.ofBool p ++ x.extractLsb' 1 7) := by
  refine BitVec.eq_of_getLsbD_eq fun i hi => ?_
  rw [BitVec.getLsbD_extractLsb', Nat.zero_add, decide_eq_true hi, Bool.true_and,
    getLsbD_packBits_transitions p x (by decide) i hi, BitVec.getLsbD_xor, BitVec.getLsbD_append]
  obtain hlast | hbelow := eq_or_ne i 7
  · simp [hlast]
  · simp [hi, hbelow, show i < 7 by omega, Nat.add_comm]

/-- Settles O10: each bit of the mask compares a level with the one before it, PREV standing before bit 7. -/
theorem transMarksLevelChanges : Obligations.TransMarksLevelChanges := by
  unfold Obligations.TransMarksLevelChanges
  refine ⟨onlyWords_of_byteOnly (.inr rfl) rfl, fun s din => ?_⟩
  refine ⟨decode_rowWord (i := .transB din) rfl, _, exec_transB din s, ?_, fun i hi => ?_,
    extract_packBits_transitions s.arch.prev din⟩
  · simpa using zeroFrom_packBits (transitions s.arch.prev (dataBits 8 din))
  · rw [getLsbD_packBits_transitions s.arch.prev din (by decide) i hi]
    simp only [Nat.reduceEqDiff]

end Sys2Proof.Proofs
end

section
/-! PROOFS. CHECK_BLOCK (R123, R124), for both checkers at once. The loop has the effect of the check commands it issues: one for
each codeword of the block, or with the optional break for each up to the first malformed one. CNT counts the codewords
before the first malformed one, ERR says whether there is one, and PREV is where the last examined codeword ends. -/

namespace Sys2Proof.Proofs

open Sys2Proof Sys2Proof.Machine Sys2Proof.Certificates

/-! ## One codeword -/

/-- Whether a codeword met at the level `p` passes its check (R120, R121). -/
def unitValid : Checker → Bool → Word → Bool
  | .man, _, cw => manValid cw
  | .bmc, p, cw => bmcValid p (symbols 8 cw)

/-- The level at which the check of a codeword leaves PREV; MAN_CHK does not move it. -/
def levelAfter : Checker → Bool → Word → Bool
  | .man, p, _ => p
  | .bmc, _, cw => cw.getLsbD 0

theorem effect_checkByte (chk : Checker) (cw : Word) (a : Arch) :
    effect (checkByte chk cw) a =
      (account (unitValid chk a.prev cw) { a with prev := levelAfter chk a.prev cw },
        ⟨codeOfCheck (unitValid chk a.prev cw), 0x0000#16⟩) := by
  cases chk with
  | man => rfl
  | bmc => exact (effect_bmcChkOf cw .byte a).trans (by rw [advancePrev_symbols]; rfl)

theorem unitValid_man_iff (p : Bool) (cw : Word) : unitValid .man p cw = true ↔ ManOk 8 cw := manValid_iff cw

theorem unitValid_bmc_iff (p : Bool) (cw : Word) : unitValid .bmc p cw = true ↔ BmcOk p 8 cw :=
  bmcValid_symbols_iff p 8 cw

/-! ## A block of codewords -/

/-- The level after a run of codewords. -/
def levelAfterBlock (chk : Checker) (p : Bool) (cws : List Word) : Bool := cws.foldl (levelAfter chk) p

theorem levelAfterBlock_bmc (p : Bool) (cws : List Word) :
    levelAfterBlock .bmc p cws = (cws.getLast?.map (·.getLsbD 0)).getD p := by
  obtain rfl | ⟨init, last, rfl⟩ := cws.eq_nil_or_concat
  · rfl
  · simp [levelAfterBlock, levelAfter]

/-- How many codewords pass before the first malformed one, the block beginning at the level `p`. -/
def passing (chk : Checker) (p : Bool) : List Word → Nat
  | [] => 0
  | cw :: rest => if unitValid chk p cw then passing chk (levelAfter chk p cw) rest + 1 else 0

theorem passing_le_length (chk : Checker) (p : Bool) (cws : List Word) : passing chk p cws ≤ cws.length := by
  induction cws generalizing p with
  | nil => exact le_rfl
  | cons cw cws ih =>
    rw [passing]
    split
    · exact Nat.succ_le_succ (ih _)
    · exact Nat.zero_le _

/-- Leaving out what stands after the first malformed codeword does not move it. -/
theorem passing_take (chk : Checker) (p : Bool) (cws : List Word) :
    passing chk p (cws.take (passing chk p cws + 1)) = passing chk p cws := by
  induction cws generalizing p with
  | nil => rfl
  | cons cw cws ih =>
    rw [List.take_succ_cons, passing, passing]
    split
    · rw [ih]
    · rfl

theorem passing_man (p : Bool) (cws : List Word) :
    passing .man p cws = cws.findIdx fun cw => !decide (ManOk 8 cw) := by
  induction cws generalizing p with
  | nil => rfl
  | cons cw cws ih =>
    rw [passing, List.findIdx_cons, ih]
    simp only [unitValid_man_iff]
    split
    · next hok => rw [decide_eq_true hok]; rfl
    · next hbad => rw [decide_eq_false hbad]; rfl

theorem not_passing_lt_bmc_iff (p : Bool) (cws : List Word) :
    ¬ passing .bmc p cws < cws.length ↔ BmcBlockOk p cws := by
  induction cws generalizing p with
  | nil => simp [BmcBlockOk]
  | cons cw cws ih =>
    rw [passing, BmcBlockOk, List.length_cons, ← unitValid_bmc_iff, ← ih]
    split
    · next hok => simp [hok, levelAfter]
    · next hbad => simp [hbad]

/-! ## The checks of a block -/

/-- The check commands of a run of codewords. -/
def checkCommands (chk : Checker) (cws : List Word) : List Instr := cws.map (checkByte chk)

theorem effects_checkCommands_cons (chk : Checker) (cw : Word) (cws : List Word) (a : Arch) :
    (effects (checkCommands chk (cw :: cws)) a).1 =
      (effects (checkCommands chk cws)
        (account (unitValid chk a.prev cw) { a with prev := levelAfter chk a.prev cw })).1 := by
  rw [checkCommands, List.map_cons, effects_cons, effect_checkByte]
  rfl

theorem effects_checkCommands_prev (chk : Checker) (cws : List Word) (a : Arch) :
    (effects (checkCommands chk cws) a).1.prev = levelAfterBlock chk a.prev cws := by
  induction cws generalizing a with
  | nil => rfl
  | cons cw cws ih => rw [effects_checkCommands_cons, ih, account_prev]; rfl

theorem effects_checkCommands_err (chk : Checker) (cws : List Word) (a : Arch) :
    (effects (checkCommands chk cws) a).1.err = (a.err || decide (passing chk a.prev cws < cws.length)) := by
  induction cws generalizing a with
  | nil => simp [checkCommands]
  | cons cw cws ih =>
    rw [effects_checkCommands_cons, ih, account_err, account_prev, passing]
    cases unitValid chk a.prev cw <;> simp

/-- Once ERR is set, further checks count nothing (R27). -/
theorem effects_checkCommands_cnt_of_err (chk : Checker) (cws : List Word) {a : Arch} (h : a.err = true) :
    (effects (checkCommands chk cws) a).1.cnt = a.cnt := by
  induction cws generalizing a with
  | nil => rfl
  | cons cw cws ih =>
    rw [effects_checkCommands_cons, ih (by rw [account_err]; simp [h]), account_cnt_of_err _ (by exact h)]

/-- From ERR clear, CNT counts the codewords before the first malformed one, where it has room for the block (R27). -/
theorem effects_checkCommands_cnt (chk : Checker) (cws : List Word) {a : Arch} (herr : a.err = false)
    (hroom : a.cnt.toNat + cws.length ≤ 65535) :
    (effects (checkCommands chk cws) a).1.cnt.toNat = a.cnt.toNat + passing chk a.prev cws := by
  induction cws generalizing a with
  | nil => rfl
  | cons cw cws ih =>
    rw [List.length_cons] at hroom
    rw [effects_checkCommands_cons, passing]
    cases hvalid : unitValid chk a.prev cw with
    | false => exact congrArg BitVec.toNat (effects_checkCommands_cnt_of_err chk cws rfl)
    | true =>
      have hcount : (countUp a.cnt).toNat = a.cnt.toNat + 1 := by rw [countUp_toNat]; omega
      rw [account_counts _ (by exact herr), ih (by exact herr) (by simp only [hcount]; omega)]
      simp only [hcount, if_true]
      omega

/-! ## The loop -/

/-- The codewords CHECK_BLOCK examines: with the optional break, none after the first malformed one (R51). -/
def examined (chk : Checker) (early p : Bool) (cws : List Word) : List Word :=
  if early then cws.take (passing chk p cws + 1) else cws

theorem examined_nil (chk : Checker) (early p : Bool) : examined chk early p [] = [] := by
  cases early <;> rfl

theorem examined_cons (chk : Checker) (early p : Bool) (cw : Word) (cws : List Word) :
    examined chk early p (cw :: cws) =
      cw :: if early && !unitValid chk p cw then [] else examined chk early (levelAfter chk p cw) cws := by
  cases early with
  | false => rfl
  | true => cases hvalid : unitValid chk p cw <;> simp [examined, passing, hvalid]

theorem length_examined_le (chk : Checker) (early p : Bool) (cws : List Word) :
    (examined chk early p cws).length ≤ cws.length := by
  cases early with
  | false => exact le_rfl
  | true => exact List.length_take_le' _ _

/-- The whole block is examined without the break or without a malformed codeword. -/
theorem examined_eq_self {chk : Checker} {early p : Bool} {cws : List Word}
    (h : early = false ∨ ¬ passing chk p cws < cws.length) : examined chk early p cws = cws := by
  obtain rfl | hwhole := h
  · rfl
  · cases early with
    | false => rfl
    | true => exact List.take_of_length_le (by omega)

/-- With the break, the first malformed codeword is the last one examined. -/
theorem getLast?_examined_of_break {chk : Checker} {p : Bool} {cws : List Word} (h : passing chk p cws < cws.length) :
    (examined chk true p cws).getLast? = some cws[passing chk p cws] := by
  rw [examined, if_pos rfl, List.take_succ_eq_append_getElem h, List.getLast?_concat]

theorem passing_examined (chk : Checker) (early p : Bool) (cws : List Word) :
    passing chk p (examined chk early p cws) = passing chk p cws := by
  cases early with
  | false => rfl
  | true => exact passing_take chk p cws

/-- A malformed codeword of a block is among those examined. -/
theorem passing_lt_length_examined_iff (chk : Checker) (early p : Bool) (cws : List Word) :
    passing chk p cws < (examined chk early p cws).length ↔ passing chk p cws < cws.length := by
  cases early with
  | false => rfl
  | true => simp [examined]

/-- The loop of CHECK_BLOCK has the effect of the checks of the codewords it examines. -/
theorem ends_checkLoop (chk : Checker) (early : Bool) {inp : Nat} (cws : List Word) (k : Nat) (w : HostWorld)
    (hin : CodewordsAt w.mem (inp + 2 * k) cws) :
    Ends (checkLoop chk early inp cws.length k w) fun w' _ =>
      w'.block.arch =
        (effects (checkCommands chk (examined chk early w.block.arch.prev cws)) w.block.arch).1 ∧ w'.mem = w.mem := by
  induction cws generalizing k w with
  | nil => simp [checkLoop, examined_nil, checkCommands]
  | cons cw cws ih =>
    obtain ⟨-, hrest⟩ := codewordsAt_cons.mp hin
    have hbreak : ((codeOfCheck (unitValid chk w.block.arch.prev cw)) == .malformed) =
        !unitValid chk w.block.arch.prev cw := by
      cases unitValid chk w.block.arch.prev cw <;> rfl
    simp only [List.length_cons, checkLoop, readCodeword_of_codewordsAt hin, issue_eq, andThen_next, effect_checkByte,
      hbreak, examined_cons, effects_checkCommands_cons]
    split
    · simp [effect_checkByte, checkCommands]
    · have hloop := ih (k + 1) (performed (checkByte chk cw) w) hrest
      simpa only [performed_arch, performed_mem, effect_checkByte, account_prev] using hloop

/-! ## The whole procedure -/

/-- The level a check begins at: MAN_CHK takes PREV as it stands (R51). -/
def openedLevel : Checker → Bool → Arch → Bool
  | .man, _, a => a.prev
  | .bmc, p, _ => p

theorem ends_openCheck (chk : Checker) (p : Bool) (w : HostWorld) :
    Ends (openCheck chk p w) fun w' _ =>
      w'.block.arch = { w.block.arch with prev := openedLevel chk p w.block.arch } ∧ w'.mem = w.mem := by
  cases chk with
  | man => simp [openCheck, openedLevel]
  | bmc => simp [openCheck, openedLevel, writePrev, -BitVec.getLsbD_eq_getElem]

/-- What CHECK_BLOCK leaves of a block that begins at the level `p`, and its answer. -/
structure CheckedBlock (chk : Checker) (early p : Bool) (cws : List Word) (w w' : HostWorld) (ok : Bool) : Prop where
  answer : ok = !w'.block.arch.err
  err : w'.block.arch.err = decide (passing chk p cws < cws.length)
  cnt : w'.block.arch.cnt.toNat = passing chk p cws
  prev : w'.block.arch.prev = levelAfterBlock chk p (examined chk early p cws)
  mem : w'.mem = w.mem

theorem ends_checkBlock (chk : Checker) (early p : Bool) {inp : Nat} (cws : List Word) (w : HostWorld)
    (hlen : cws.length ≤ 65535) (hin : CodewordsAt w.mem inp cws) :
    Ends (checkBlock chk early inp (2 * cws.length) p w)
      (CheckedBlock chk early (openedLevel chk p w.block.arch) cws w) := by
  obtain ⟨heven, hhalf⟩ := even_div_two cws.length
  simp only [checkBlock, wholeCodewords_of_even heven, hhalf, blockFits_of_le hlen, andThen_next]
  refine (ends_beginBlock w).andThen fun w1 _ ⟨harch1, hmem1⟩ => ?_
  refine (ends_openCheck chk p w1).andThen fun w2 _ ⟨harch2, hmem2⟩ => ?_
  have hmem : w2.mem = w.mem := hmem2.trans hmem1
  refine (ends_checkLoop chk early cws 0 w2 (hmem ▸ hin)).andThen fun w3 _ ⟨harch3, hmem3⟩ => ?_
  have hlevel : w2.block.arch.prev = openedLevel chk p w.block.arch := by
    rw [harch2, harch1]; cases chk <;> rfl
  have herr : w2.block.arch.err = false := by rw [harch2, harch1]; rfl
  have hcnt : w2.block.arch.cnt.toNat = 0 := by rw [harch2, harch1]; rfl
  have hroom : (examined chk early w2.block.arch.prev cws).length ≤ 65535 :=
    (length_examined_le chk early _ cws).trans hlen
  simp only [issue_eq, andThen_next, ends_done, effect_csrrStatus, okWith, csrRead_status_err]
  refine ⟨rfl, ?err, ?cnt, ?prev, hmem3.trans hmem⟩ <;> rw [performed_arch, effect_csrrStatus, harch3]
  case err =>
    simp only [effects_checkCommands_err, passing_examined, passing_lt_length_examined_iff, herr, hlevel, Bool.false_or]
  case cnt =>
    rw [effects_checkCommands_cnt chk _ herr (by omega), hcnt, passing_examined, hlevel, Nat.zero_add]
  case prev => rw [effects_checkCommands_prev, hlevel]

/-- Settles O45: the loop ends with ERR set iff it met a malformed codeword, and CNT at the number of those before it. -/
theorem manCheckBlockFindsTheFirstFailure : Obligations.ManCheckBlockFindsTheFirstFailure := by
  unfold Obligations.ManCheckBlockFindsTheFirstFailure
  intro w early p inp cws hlen hin
  obtain ⟨w', ok, hrun, hchecked⟩ := ends_checkBlock .man early p cws w hlen hin
  refine ⟨w', ok, hrun, hchecked.answer, ?_, hchecked.cnt.trans (passing_man _ cws), hchecked.mem⟩
  rw [hchecked.err, passing_man, decide_eq_false_iff_not, List.findIdx_lt_length]
  simp

/-- Settles O46: without a failure, or without the break, the whole block is examined; with both, the last codeword examined
is the first malformed one. -/
theorem bmcCheckBlockThreadsTheLevel : Obligations.BmcCheckBlockThreadsTheLevel := by
  unfold Obligations.BmcCheckBlockThreadsTheLevel
  intro w early p inp cws hlen hin
  obtain ⟨w', ok, hrun, hchecked⟩ := ends_checkBlock .bmc early p cws w hlen hin
  have hprev : w'.block.arch.prev = ((examined .bmc early p cws).getLast?.map (·.getLsbD 0)).getD p :=
    hchecked.prev.trans (levelAfterBlock_bmc p _)
  have herr : w'.block.arch.err = decide (passing .bmc p cws < cws.length) := hchecked.err
  refine ⟨w', ok, hrun, hchecked.answer, ?errIff, fun hwhole => ?whole, fun hearly hfailed => ?broken, hchecked.mem⟩
  case errIff => rw [herr, decide_eq_false_iff_not, not_passing_lt_bmc_iff]
  case whole =>
    rw [herr, decide_eq_false_iff_not] at hwhole
    rw [hprev, examined_eq_self hwhole]
  case broken =>
    rw [herr, decide_eq_true_iff] at hfailed
    subst hearly
    refine ⟨cws[passing .bmc p cws], ?_, ?_⟩
    · rw [hchecked.cnt]
      exact List.getElem?_eq_getElem hfailed
    · rw [hprev, getLast?_examined_of_break hfailed]
      rfl

end Sys2Proof.Proofs
end

section
/-! PROOFS. The control commands (R135 to R137), and that no command but NOP is without effect and result. Each other
instruction shows on some record: an encoder answers a codeword, which is never 0; what carries the line level on moves a
PREV other than its last bit; a check counts the unit or sets ERR; a decode or a transition mask answers a 1 under one of
two records; and the rest read a register or write one. -/

namespace Sys2Proof.Proofs

open Sys2Proof Sys2Proof.Machine Sys2Proof.Certificates

/-! ## The words of format R, and an answer read off an effect -/

/-- The words of an operation of format R are numbered from 0, as many as R67 and R68 leave legal. -/
theorem onlyWords_of_numbered {op count : Nat}
    (h : op = 0 ∧ count = 1 ∨ op = 0xB ∧ count = 5 ∨ op = 0xC ∧ count = 4) :
    OnlyWords op ((List.range count).map fun k => BitVec.ofNat 8 (16 * op + k)) := by
  intro c hc
  have hmem : c.cmd ∈ (List.range count).map (fun k => BitVec.ofNat 8 (16 * op + k)) ↔ c.cmd.toNat % 16 < count := by
    simp only [List.mem_map, List.mem_range, BitVec.toNat_eq, BitVec.toNat_ofNat]
    exact ⟨fun ⟨k, hk, hword⟩ => by omega, fun hk => ⟨_, hk, by omega⟩⟩
  rw [decode_ok_iff, hmem]
  simp only [IllegalByR67]
  omega

/-- An instruction answers its effect. -/
theorem exec_of_effect {i : Instr} {s : State} {a : Arch} {r : Response} (h : effect i s.arch = (a, r)) :
    exec i s = answers s a r.rsp r.dout := by
  rw [exec_eq_finish_effect, h]
  rfl

/-! ## CSRR (R136) -/

theorem zextBit_eq_ite (b : Bool) : zextBit b = if b then 0x0001#16 else 0x0000#16 := by
  cases b <;> rfl

/-- STATUS holds ILL above ERR (R28). -/
theorem csrRead_status_eq (a : Arch) :
    csrRead .status a =
      (if a.ill then 0x0002#16 else 0x0000#16) + (if a.err then 0x0001#16 else 0x0000#16) := by
  rw [csrRead]
  cases a.ill <;> cases a.err <;> rfl

/-- Settles O12: each register's value is the packed bits of its fields. -/
theorem csrrReadsTheRegister : Obligations.CsrrReadsTheRegister := by
  unfold Obligations.CsrrReadsTheRegister
  refine ⟨onlyWords_of_numbered (count := 5) (by decide), fun s din => ?_⟩
  simp only [List.forall_mem_cons, List.not_mem_nil, false_imp_iff, implies_true, and_true]
  refine ⟨⟨decode_rowWord (i := .csrrCtrl din) rfl, ?ctrl⟩, ⟨decode_rowWord (i := .csrrPrev din) rfl, ?prev⟩,
    ⟨decode_rowWord (i := .csrrStatus din) rfl, ?status⟩, ⟨decode_rowWord (i := .csrrCount din) rfl, ?count⟩,
    ⟨decode_rowWord (i := .csrrResult din) rfl, ?result⟩⟩
  case ctrl => rw [exec_of_effect (effect_csrrCtrl din s.arch), ← zextBit_eq_ite]; rfl
  case prev => rw [exec_of_effect (effect_csrrPrev din s.arch), ← zextBit_eq_ite]; rfl
  case status => rw [exec_of_effect (effect_csrrStatus din s.arch), ← csrRead_status_eq]; rfl
  case count => exact exec_of_effect (effect_csrrCount din s.arch)
  case result => exact exec_of_effect (effect_csrrResult din s.arch)

/-! ## CSRW (R137) -/

/-- Settles O13: a write answers 0 and leaves the record its register's update gives. -/
theorem csrwWritesTheRegister : Obligations.CsrwWritesTheRegister := by
  unfold Obligations.CsrwWritesTheRegister
  refine ⟨onlyWords_of_numbered (count := 4) (by decide), fun s din => ?_⟩
  simp only [List.forall_mem_cons, List.not_mem_nil, false_imp_iff, implies_true, and_true]
  exact ⟨⟨decode_rowWord (i := .csrwCtrl din) rfl, exec_of_effect (effect_csrwCtrl din s.arch)⟩,
    ⟨decode_rowWord (i := .csrwPrev din) rfl, exec_of_effect (effect_csrwPrev din s.arch)⟩,
    ⟨decode_rowWord (i := .csrwStatus din) rfl, exec_of_effect (effect_csrwStatus din s.arch)⟩,
    ⟨decode_rowWord (i := .csrwCount din) rfl, exec_of_effect (effect_csrwCount din s.arch)⟩⟩

/-! ## Instructions without effect and result (R135) -/

/-- An instruction that in every record has no effect, and answers OK with the result 0. -/
def Silent (i : Instr) : Prop := ∀ a, effect i a = (a, okWith 0x0000#16)

theorem effect_nop (din : Word) (a : Arch) : effect (.nop din) a = (a, okWith 0x0000#16) := rfl

/-- `Silent` is what the statement on NOP asks of every state. -/
theorem silent_of_exec {i : Instr} (h : ∀ s, exec i s = answers s s.arch .ok 0x0000#16) : Silent i := fun a => by
  obtain ⟨harch, hresponse⟩ := exec_next_effect (h { State.reset with arch := a })
  exact Prod.ext harch.symm (Option.some.inj hresponse).symm

section Silent

variable {i : Instr} (h : Silent i) (a : Arch)

include h

theorem Silent.record : (effect i a).1 = a := congrArg Prod.fst (h a)

theorem Silent.rsp : (effect i a).2.rsp = .ok := congrArg (fun r => r.2.rsp) (h a)

theorem Silent.dout : (effect i a).2.dout = 0x0000#16 := congrArg (fun r => r.2.dout) (h a)

end Silent

/-- The first symbol any code transmits from the record after reset has a bit that is 1. -/
theorem lineSymbols_reset_cons_ne (code : LineCode) (d : Bool) (bits : List Bool) (ss : List Symbol) :
    lineSymbols code Arch.reset (d :: bits) ≠ ⟨false, false⟩ :: ss := by
  obtain _ | _ | _ := code <;> cases d <;> simp [lineSymbols, msym, dmSymbols, bmcSymbols]

/-- The codeword an encoder answers after reset is not 0. -/
theorem not_silent_encodeAt (code : LineCode) (din : Word) (w : Width) : ¬ Silent (encodeAt code din w) := by
  intro h
  have hsymbols := symbols_dout_encodeAt code din w Arch.reset
  obtain ⟨n, hn⟩ := Nat.exists_eq_succ_of_ne_zero (unitsOf_pos w).ne'
  rw [h.dout, hn, symbols, dataBits, BitVec.getLsbD_zero, BitVec.getLsbD_zero] at hsymbols
  exact lineSymbols_reset_cons_ne code _ _ _ hsymbols.symm

/-- An instruction after which a field always has one and the same value changes a record that holds another there. -/
theorem not_silent_of_field {α : Type} {i : Instr} {v : α} (field : Arch → α) (hleft : ∀ a, field (effect i a).1 = v)
    (hother : ∃ a, field a ≠ v) : ¬ Silent i := by
  intro h
  obtain ⟨a, ha⟩ := hother
  exact ha (by rw [← hleft a, h.record])

theorem not_silent_of_prev {i : Instr} {level : Bool} (hprev : ∀ a, (effect i a).1.prev = level) : ¬ Silent i :=
  not_silent_of_field Arch.prev hprev ⟨{ Arch.reset with prev := !level }, Bool.not_ne_self level⟩

theorem not_silent_decodeAt (code : StatefulCode) (x : Word) (w : Width) : ¬ Silent (decodeAt code x w) :=
  not_silent_of_prev fun a => by rw [effect_decodeAt, advancePrev_symbols]

theorem not_silent_bmcChkOf (x : Word) (w : Width) : ¬ Silent (bmcChkOf x w) :=
  not_silent_of_prev (effect_bmcChkOf_prev x w)

theorem effect_manDecOf (x : Word) (w : Width) (a : Arch) : effect (manDecOf x w) a = manDec (unitsOf w) x a := by
  cases w <;> rfl

/-- A decode of a malformed word reports it, and the last bit of a well-formed one is 1 under one of the polarities. -/
theorem not_silent_manDecOf (x : Word) (w : Width) : ¬ Silent (manDecOf x w) := by
  intro h
  have hpos := unitsOf_pos w
  have hrsp := h.rsp { Arch.reset with pol := !secondBit x 0 }
  have hdout := h.dout { Arch.reset with pol := !secondBit x 0 }
  rw [effect_manDecOf] at hrsp hdout
  have hok : ManOk (unitsOf w) x := (all_manSymbolOk_symbols_iff _ _).mp ((codeOfCheck_eq_ok _).mp hrsp)
  have hbit : (secondBit x 0 ^^ !secondBit x 0) = false := by
    rw [← BitVec.getLsbD_zero (w := 16) (i := 0), ← hdout, manDec,
      getLsbD_packBits_map_symbols _ x hpos ((unitsOf_le w).trans (by decide)), manDecodeBit_eq, if_pos (hok 0 hpos)]
  simp at hbit

/-- After reset the status update counts the unit or sets ERR. -/
theorem account_reset_ne (valid : Bool) : account valid Arch.reset ≠ Arch.reset := by
  cases valid <;> decide

theorem effect_manChkOf (x : Word) (w : Width) (a : Arch) : effect (manChkOf x w) a = manChk (unitsOf w) x a := by
  cases w <;> rfl

theorem not_silent_manChkOf (x : Word) (w : Width) : ¬ Silent (manChkOf x w) := by
  intro h
  have hrecord := h.record Arch.reset
  rw [effect_manChkOf] at hrecord
  exact account_reset_ne _ hrecord

theorem not_silent_manDeccB (x : Word) : ¬ Silent (.manDeccB x) := by
  intro h
  have hrecord := h.record Arch.reset
  rw [effect_manDeccB] at hrecord
  exact account_reset_ne _ hrecord

theorem effect_transB (x : Word) (a : Arch) :
    effect (.transB x) a = (a, okWith (packBits (transitions a.prev (dataBits 8 x)))) := rfl

/-- The first level of a byte is a transition from one of the two levels before it. -/
theorem not_silent_transB (x : Word) : ¬ Silent (.transB x) := by
  intro h
  have hdout := h.dout { Arch.reset with prev := !x.getLsbD 7 }
  have hbit := getLsbD_packBits_transitions (!x.getLsbD 7) x (by decide) 7 (n := 8) (by decide)
  rw [effect_transB] at hdout
  rw [show packBits (transitions (!x.getLsbD 7) (dataBits 8 x)) = 0x0000#16 from hdout] at hbit
  simp at hbit

/-- A record in which every register reads as 1 or more. -/
def nowhereZero : Arch := ⟨true, true, true, true, 0x0001#16⟩

theorem csrRead_nowhereZero_ne (k : Csr) : csrRead k nowhereZero ≠ 0x0000#16 := by
  cases k <;> decide

/-- A read answers what stands in its register. -/
theorem not_silent_of_csrRead {i : Instr} {k : Csr} (hread : ∀ a, effect i a = (a, okWith (csrRead k a))) : ¬ Silent i := by
  intro h
  have hdout := h.dout nowhereZero
  rw [hread] at hdout
  exact csrRead_nowhereZero_ne k hdout

theorem not_silent_csrwCtrl (x : Word) : ¬ Silent (.csrwCtrl x) :=
  not_silent_of_field Arch.pol (writeCtrl_pol x) ⟨{ Arch.reset with pol := !x.getLsbD 0 }, Bool.not_ne_self _⟩

theorem not_silent_csrwPrev (x : Word) : ¬ Silent (.csrwPrev x) :=
  not_silent_of_prev (writePrev_prev x)

theorem not_silent_csrwStatus (x : Word) : ¬ Silent (.csrwStatus x) :=
  not_silent_of_field Arch.err (writeStatus_err x) ⟨{ Arch.reset with err := !x.getLsbD 0 }, Bool.not_ne_self _⟩

theorem not_silent_csrwCount (x : Word) : ¬ Silent (.csrwCount x) :=
  not_silent_of_field Arch.cnt (writeCount_cnt x) ⟨{ Arch.reset with cnt := x + 1#16 }, by simp⟩

/-- Each instruction but NOP shows on some record. -/
theorem eq_nop_of_silent {i : Instr} (h : Silent i) : ∃ din, i = .nop din := by
  cases i with
  | nop din => exact ⟨din, rfl⟩
  | manEnc1 din => exact absurd h (not_silent_encodeAt .man din .bit)
  | manEncN din => exact absurd h (not_silent_encodeAt .man din .nibble)
  | manEncB din => exact absurd h (not_silent_encodeAt .man din .byte)
  | manDec1 din => exact absurd h (not_silent_manDecOf din .bit)
  | manDecN din => exact absurd h (not_silent_manDecOf din .nibble)
  | manDecB din => exact absurd h (not_silent_manDecOf din .byte)
  | manChk1 din => exact absurd h (not_silent_manChkOf din .bit)
  | manChkN din => exact absurd h (not_silent_manChkOf din .nibble)
  | manChkB din => exact absurd h (not_silent_manChkOf din .byte)
  | manDeccB din => exact absurd h (not_silent_manDeccB din)
  | dmEnc1 din => exact absurd h (not_silent_encodeAt (.stateful .dm) din .bit)
  | dmEncN din => exact absurd h (not_silent_encodeAt (.stateful .dm) din .nibble)
  | dmEncB din => exact absurd h (not_silent_encodeAt (.stateful .dm) din .byte)
  | dmDec1 din => exact absurd h (not_silent_decodeAt .dm din .bit)
  | dmDecN din => exact absurd h (not_silent_decodeAt .dm din .nibble)
  | dmDecB din => exact absurd h (not_silent_decodeAt .dm din .byte)
  | bmcEnc1 din => exact absurd h (not_silent_encodeAt (.stateful .bmc) din .bit)
  | bmcEncN din => exact absurd h (not_silent_encodeAt (.stateful .bmc) din .nibble)
  | bmcEncB din => exact absurd h (not_silent_encodeAt (.stateful .bmc) din .byte)
  | bmcDec1 din => exact absurd h (not_silent_decodeAt .bmc din .bit)
  | bmcDecN din => exact absurd h (not_silent_decodeAt .bmc din .nibble)
  | bmcDecB din => exact absurd h (not_silent_decodeAt .bmc din .byte)
  | bmcChk1 din => exact absurd h (not_silent_bmcChkOf din .bit)
  | bmcChkN din => exact absurd h (not_silent_bmcChkOf din .nibble)
  | bmcChkB din => exact absurd h (not_silent_bmcChkOf din .byte)
  | transB din => exact absurd h (not_silent_transB din)
  | csrrCtrl din => exact absurd h (not_silent_of_csrRead (effect_csrrCtrl din))
  | csrrPrev din => exact absurd h (not_silent_of_csrRead (effect_csrrPrev din))
  | csrrStatus din => exact absurd h (not_silent_of_csrRead (effect_csrrStatus din))
  | csrrCount din => exact absurd h (not_silent_of_csrRead (effect_csrrCount din))
  | csrrResult din => exact absurd h (not_silent_of_csrRead (effect_csrrResult din))
  | csrwCtrl din => exact absurd h (not_silent_csrwCtrl din)
  | csrwPrev din => exact absurd h (not_silent_csrwPrev din)
  | csrwStatus din => exact absurd h (not_silent_csrwStatus din)
  | csrwCount din => exact absurd h (not_silent_csrwCount din)

/-- Settles O11: NOP answers its effect, and an instruction that answers like it in every state is silent. -/
theorem nopDoesNothing : Obligations.NopDoesNothing := by
  unfold Obligations.NopDoesNothing
  exact ⟨onlyWords_of_numbered (count := 1) (by decide), fun _ h => eq_nop_of_silent (silent_of_exec h),
    fun s din => ⟨decode_rowWord (i := .nop din) rfl, exec_of_effect (effect_nop din s.arch)⟩⟩

end Sys2Proof.Proofs
end

section
/-! PROOFS. The backends of the Manchester steps (R138, R140, R141). The table is the code: an entry is its nibble's codeword, and a
byte of well-formed symbols is the entry of the nibble it decodes to. So looking a byte up finds exactly the well-formed ones
and their data; the other widths follow, since decoding a word by the rule is decoding its upper and its lower symbols. -/

namespace Sys2Proof.Proofs

open Sys2Proof Sys2Proof.Machine Sys2Proof.Certificates

/-! ## MAN_ENC by table (R87) -/

theorem tableEntry_eq_manCodeword (pol : Bool) :
    ∀ nibble : BitVec 4, (tableEntry pol nibble).setWidth 16 = manCodeword 4 pol (nibble.setWidth 16) := by
  cases pol <;> decide

/-- The last symbol of an entry is that of its nibble's bit 0. -/
theorem tableEntry_last_symbol (pol : Bool) :
    ∀ nibble : BitVec 4, ((tableEntry pol nibble).extractLsb' 0 2).setWidth 16 = manCodeword 1 pol (nibble.setWidth 16) := by
  cases pol <;> decide

theorem manCodeword_congr {n : Nat} {x y : Word} (pol : Bool) (h : ∀ k < n, x.getLsbD k = y.getLsbD k) :
    manCodeword n pol x = manCodeword n pol y := by
  rw [manCodeword, manCodeword, dataBits_congr n x y h]

theorem getLsbD_nibble {k : Nat} (x : Word) (start : Nat) (hk : k < 4) :
    ((x.extractLsb' start 4).setWidth 16).getLsbD k = x.getLsbD (start + k) := by
  rw [BitVec.getLsbD_setWidth, BitVec.getLsbD_extractLsb']
  simp [hk, show k < 16 by omega]

/-- The entry of a word's nibble is that nibble's codeword. -/
theorem tableEntry_nibble (pol : Bool) (x : Word) (start : Nat) :
    (tableEntry pol (x.extractLsb' start 4)).setWidth 16 = manCodeword 4 pol (x >>> start) := by
  rw [tableEntry_eq_manCodeword]
  exact manCodeword_congr pol fun k hk => by rw [getLsbD_nibble x start hk, BitVec.getLsbD_ushiftRight]

theorem tableEntry_low_nibble (pol : Bool) (x : Word) :
    (tableEntry pol (x.extractLsb' 0 4)).setWidth 16 = manCodeword 4 pol x := by
  rw [tableEntry_nibble, BitVec.ushiftRight_zero]

theorem append_eq_or (high low : Byte) : high ++ low = (high.setWidth 16 <<< 8) ||| low.setWidth 16 := by
  rw [BitVec.append_def, BitVec.shiftLeftZeroExtend_eq, BitVec.setWidth'_eq]

theorem lutEncode_eq_manCodeword (w : Width) (pol : Bool) (x : Word) : lutEncode w pol x = manCodeword (unitsOf w) pol x := by
  cases w with
  | bit =>
    refine (tableEntry_last_symbol pol (x.extractLsb' 0 4)).trans (manCodeword_congr pol fun k hk => ?_)
    rw [getLsbD_nibble x 0 (by omega), Nat.zero_add]
  | nibble => exact tableEntry_low_nibble pol x
  | byte =>
    rw [unitsOf_byte, manCodeword_byte, ← tableEntry_nibble pol x 4, ← tableEntry_low_nibble pol x]
    exact append_eq_or _ _

theorem backendEncode_eq_manCodeword (b : Config.Backend) (w : Width) (pol : Bool) (x : Word) :
    backendEncode b w pol x = manCodeword (unitsOf w) pol x := by
  cases b with
  | lut => exact lutEncode_eq_manCodeword w pol x
  | bitwise | peripheral => rfl

/-! ## A byte of four symbols by table -/

/-- The validity of a word of n symbols and its data by the rule (R81). -/
def decodeByRule (n : Nat) (pol : Bool) (x : Word) : Bool × Word :=
  ((symbols n x).all manSymbolOk, packBits ((symbols n x).map (manDecodeBit pol)))

theorem decodeByRule_congr {n : Nat} {x y : Word} (pol : Bool) (h : ∀ k < 2 * n, x.getLsbD k = y.getLsbD k) :
    decodeByRule n pol x = decodeByRule n pol y := by
  rw [decodeByRule, decodeByRule, symbols_congr n x y h]

theorem decodeByRule_manCodeword {n : Nat} (pol : Bool) (x : Word) (hn : n ≤ 8) :
    decodeByRule n pol (manCodeword n pol x) = (true, lowBits n x) := by
  rw [decodeByRule, (all_manSymbolOk_symbols_iff _ _).mpr (manOk_manCodeword pol x hn),
    packBits_map_manCodeword x hn (manDecodeBit_msym pol)]

theorem msym_manPlainBit (pol : Bool) {s : Symbol} (h : manSymbolOk s = true) : msym pol (manPlainBit pol s) = s := by
  obtain ⟨first, second⟩ := s
  revert h
  cases pol <;> cases first <;> cases second <;> decide

/-- A well-formed word is the codeword of what it decodes to. -/
theorem manCodeword_manPlainBit {n : Nat} (pol : Bool) {x : Word} (hn : n ≤ 8)
    (h : (symbols n x).all manSymbolOk = true) :
    manCodeword n pol (packBits ((symbols n x).map (manPlainBit pol))) = lowBits (2 * n) x := by
  have hdata : dataBits n (packBits ((symbols n x).map (manPlainBit pol))) = (symbols n x).map (manPlainBit pol) := by
    simpa using dataBits_packBits ((symbols n x).map (manPlainBit pol)) (by simp; omega)
  have hsymbols : ((symbols n x).map (manPlainBit pol)).map (msym pol) = symbols n x := by
    rw [List.map_map]
    exact (List.map_congr_left fun s hs => msym_manPlainBit pol (List.all_eq_true.mp h s hs)).trans (List.map_id _)
  rw [manCodeword, hdata, hsymbols, packSymbols_symbols x hn]

/-- A word widened from n bits is its low n bits. -/
theorem lowBits_setWidth {n : Nat} (v : BitVec n) : lowBits n (v.setWidth 16) = v.setWidth 16 := by
  refine BitVec.eq_of_getLsbD_eq fun k _ => ?_
  rw [getLsbD_lowBits, BitVec.getLsbD_setWidth]
  by_cases hk : k < n
  · simp [hk]
  · simp [hk, BitVec.getLsbD_of_ge v k (by omega)]

theorem tableIndex_eq_some {pol : Bool} {code : Byte} {k : Nat} (h : tableIndex pol code = some k) :
    k < 16 ∧ tableEntry pol (BitVec.ofNat 4 k) = code := by
  unfold tableIndex at h
  have hentry := List.find?_some h
  exact ⟨List.mem_range.mp (List.mem_of_find?_eq_some h), eq_of_beq hentry⟩

theorem tableEntry_ne_of_tableIndex {pol : Bool} {code : Byte} (h : tableIndex pol code = none) (nibble : BitVec 4) :
    tableEntry pol nibble ≠ code := by
  have hentry := List.find?_eq_none.mp h nibble.toNat (List.mem_range.mpr nibble.isLt)
  simpa using hentry

/-- A byte without an entry holds a malformed symbol. -/
theorem all_manSymbolOk_of_tableIndex {pol : Bool} {code : Byte} (h : tableIndex pol code = none) :
    (symbols 4 (code.setWidth 16)).all manSymbolOk = false := by
  refine Bool.eq_false_iff.mpr fun hok => ?_
  have hcode := manCodeword_manPlainBit pol (by decide) hok
  rw [lowBits_setWidth code, ← tableEntry_low_nibble] at hcode
  have hentry := congrArg (BitVec.setWidth 8) hcode
  simp only [BitVec.setWidth_setWidth_of_le _ (show 8 ≤ 16 by decide), BitVec.setWidth_eq] at hentry
  exact tableEntry_ne_of_tableIndex h _ hentry

/-- Looking a byte up answers as the rule does. -/
theorem lutDecodeNibble_eq (pol : Bool) (code : Byte) :
    lutDecodeNibble pol code = decodeByRule 4 pol (code.setWidth 16) := by
  unfold lutDecodeNibble
  split
  · next k hk =>
    obtain ⟨hlt, rfl⟩ := tableIndex_eq_some hk
    rw [tableEntry_eq_manCodeword, decodeByRule_manCodeword pol _ (by decide), lowBits_setWidth,
      BitVec.setWidth_ofNat_of_le_of_lt (by decide) hlt]
  · next hnone => rw [decodeByRule, all_manSymbolOk_of_tableIndex hnone]

/-! ## MAN_DEC by table, at each width -/

/-- A word's symbols are those above a place and those below it. -/
theorem symbols_add (m n : Nat) (x : Word) : symbols (m + n) x = symbols m (x >>> (2 * n)) ++ symbols n x := by
  induction m with
  | zero => rw [Nat.zero_add]; rfl
  | succ m ih =>
    rw [show m + 1 + n = m + n + 1 by omega, symbols, symbols, ih, BitVec.getLsbD_ushiftRight, BitVec.getLsbD_ushiftRight,
      show 2 * n + (2 * m + 1) = 2 * (m + n) + 1 by omega, show 2 * n + 2 * m = 2 * (m + n) by omega]
    rfl

/-- Decoding by the rule is decoding the symbols above a place and those below it. -/
theorem decodeByRule_add (m n : Nat) (pol : Bool) (x : Word) :
    decodeByRule (m + n) pol x =
      ((decodeByRule m pol (x >>> (2 * n))).1 && (decodeByRule n pol x).1,
        ((decodeByRule m pol (x >>> (2 * n))).2 <<< n) ||| (decodeByRule n pol x).2) := by
  simp only [decodeByRule, symbols_add, List.all_append, List.map_append, packBits_append, List.length_map,
    length_symbols]

/-- Looking up a word's byte decodes the four symbols that stand there. -/
theorem lutDecodeNibble_extract (pol : Bool) (x : Word) (start : Nat) :
    lutDecodeNibble pol (x.extractLsb' start 8) = decodeByRule 4 pol (x >>> start) := by
  rw [lutDecodeNibble_eq]
  refine decodeByRule_congr pol fun k hk => ?_
  rw [BitVec.getLsbD_setWidth, BitVec.getLsbD_extractLsb', BitVec.getLsbD_ushiftRight]
  simp [show k < 8 by omega, show k < 16 by omega]

/-- A symbol below three well-formed ones: the validity is its own, and so is the last bit. -/
theorem decodeByRule_one_below_three (pol : Bool) {x : Word} (h : (decodeByRule 3 pol (x >>> 2)).1 = true) :
    ((decodeByRule 4 pol x).1, (decodeByRule 4 pol x).2 &&& 0x0001#16) = decodeByRule 1 pol x := by
  rw [decodeByRule_add 3 1 pol x, h, Bool.true_and]
  refine Prod.ext rfl (BitVec.eq_of_getLsbD_eq fun k _ => ?_)
  cases k with
  | zero => simp
  | succ k =>
    have habove : (decodeByRule 1 pol x).2.getLsbD (k + 1) = false := getLsbD_packBits_above _ _ (by simp)
    rw [habove]
    simp

/-- The byte a single symbol is looked up in: three symbols of entry 0, and the symbol below them (log entry 18). -/
def paddedSymbol (pol : Bool) (x : Word) : Byte := (tableEntry pol 0x0#4).extractLsb' 2 6 ++ x.extractLsb' 0 2

theorem decodeByRule_above_paddedSymbol (pol : Bool) (x : Word) :
    (decodeByRule 3 pol ((paddedSymbol pol x).setWidth 16 >>> 2)).1 = true := by
  have hpad : decodeByRule 3 pol ((paddedSymbol pol x).setWidth 16 >>> 2) =
      decodeByRule 3 pol (((tableEntry pol 0x0#4).extractLsb' 2 6).setWidth 16) :=
    decodeByRule_congr pol fun k hk => by
      rw [BitVec.getLsbD_ushiftRight, BitVec.getLsbD_setWidth, BitVec.getLsbD_setWidth, paddedSymbol,
        BitVec.getLsbD_append]
      simp [show k < 16 by omega, show 2 + k < 16 by omega, show ¬ 2 + k < 2 by omega]
  rw [hpad]
  cases pol <;> decide

theorem decodeByRule_paddedSymbol (pol : Bool) (x : Word) :
    decodeByRule 1 pol ((paddedSymbol pol x).setWidth 16) = decodeByRule 1 pol x :=
  decodeByRule_congr pol fun k hk => by
    rw [BitVec.getLsbD_setWidth, paddedSymbol, BitVec.getLsbD_append, BitVec.getLsbD_extractLsb']
    simp [show k < 2 by omega, show k < 16 by omega]

theorem lutDecode_bit (pol : Bool) (x : Word) : lutDecode .bit pol x = decodeByRule 1 pol x := by
  rw [← decodeByRule_paddedSymbol, ← decodeByRule_one_below_three pol (decodeByRule_above_paddedSymbol pol x),
    ← lutDecodeNibble_eq]
  rfl

theorem lutDecode_eq_decodeByRule (w : Width) (pol : Bool) (x : Word) :
    lutDecode w pol x = decodeByRule (unitsOf w) pol x := by
  cases w with
  | bit => exact lutDecode_bit pol x
  | nibble => exact (lutDecodeNibble_extract pol x 0).trans (by rw [BitVec.ushiftRight_zero]; rfl)
  | byte =>
    rw [lutDecode, lutDecodeNibble_extract, lutDecodeNibble_extract, BitVec.ushiftRight_zero]
    exact (decodeByRule_add 4 4 pol x).symm

theorem backendDecode_eq_decodeByRule (b : Config.Backend) (w : Width) (pol : Bool) (x : Word) :
    backendDecode b w pol x = decodeByRule (unitsOf w) pol x := by
  cases b with
  | lut => exact lutDecode_eq_decodeByRule w pol x
  | bitwise | peripheral => rfl

/-- Where every symbol is well formed, MAN_DECC takes the bits MAN_DEC takes (R81, R82). -/
theorem map_manPlainBit_of_ok (pol : Bool) {ss : List Symbol} (h : ss.all manSymbolOk = true) :
    ss.map (manPlainBit pol) = ss.map (manDecodeBit pol) :=
  List.map_congr_left fun s hs => (manDecodeBit_of_ok pol s (List.all_eq_true.mp h s hs)).symm

theorem manDeccB_response (b : Config.Backend) (x : Word) (a : Arch) :
    (effect (.manDeccB x) a).2 = backendDecodeChecked b a.pol x := by
  rw [effect_manDeccB, backendDecodeChecked, backendDecode_eq_decodeByRule]
  refine congrArg (Response.mk _) (ite_congr rfl (fun hvalid => ?_) fun _ => rfl)
  exact congrArg packBits (map_manPlainBit_of_ok a.pol hvalid)

/-- Settles O37: every backend answers as the rule does, which is what the block does. -/
theorem backendsAreBitIdentical : Obligations.BackendsAreBitIdentical := by
  unfold Obligations.BackendsAreBitIdentical
  intro b w din s
  rw [backendEncode_eq_manCodeword, backendDecode_eq_decodeByRule]
  refine ⟨exec_manEncOf din w s, exec_manDecOf din w s, _, exec_eq_finish_effect _ s, ?_⟩
  exact congrArg some (manDeccB_response b din s.arch)

end Sys2Proof.Proofs
end

section
/-! PROOFS. Errors and traps (R151, R154). An illegal word does not decode, so accepting it is R151's effect and nothing more; and
no event stops the block, since every accepted command finishes. -/

namespace Sys2Proof.Proofs

open Sys2Proof Sys2Proof.Machine Sys2Proof.Certificates

/-- A word that R67 and R68 call illegal is not performed: its acceptance is R151's effect. -/
theorem accept_of_illegal {c : Command} (s : State) (hillegal : IllegalByR67 c.cmd) : accept c s = raiseIllegal s := by
  obtain ⟨i, hdec, -⟩ | ⟨e, -, hacc⟩ := accept_cases c s
  · exact absurd hillegal ((decode_ok_iff c).mp ⟨i, hdec⟩)
  · exact hacc

theorem raiseIllegal_eq (s : State) : raiseIllegal s = answers s { s.arch with ill := true } .illegal 0x0000#16 := rfl

/-- Settles O14: the step accepts the word, which does not decode. -/
theorem illegalWordOnlySetsIll : Obligations.IllegalWordOnlySetsIll := by
  unfold Obligations.IllegalWordOnlySetsIll
  intro s c rest hin hillegal
  rw [step_of_command hin, accept_of_illegal _ hillegal, raiseIllegal_eq]

theorem goesOn_next (t : State) : Safety.GoesOn (.next t) := ⟨t, rfl⟩

theorem goesOn_accept (c : Command) (s : State) : Safety.GoesOn (accept c s) := by
  obtain ⟨r, hfinish⟩ := accept_is_finish c s
  rw [hfinish, finish_eq]
  exact goesOn_next _

/-- Settles O22, by the event at the head of the input: a command finishes, and the other events end in a next state. -/
theorem everyStepGoesOn : Obligations.EveryStepGoesOn := by
  unfold Obligations.EveryStepGoesOn
  intro s
  obtain ⟨-, hstep⟩ | ⟨c, rest, -, hstep⟩ | ⟨rest, -, hstep⟩ | ⟨rest, -, hstep⟩ := step_cases s <;> rw [hstep]
  case inr.inl => exact goesOn_accept c _
  all_goals exact goesOn_next _

end Sys2Proof.Proofs
end

section
/-! PROOFS. The synchronous reset at the clocked port (R155, R170). At an edge with `rst = 1` the port goes to its reset state, and the
handshake is closed on both sides: no command is taken and no response is delivered. -/

namespace Sys2Proof.Proofs

open Sys2Proof Sys2Proof.Machine Sys2Proof.Certificates

/-- R34's record, as the port's reset state holds it. -/
theorem portReset_arch : PortState.reset.arch = ⟨false, false, false, false, 0x0000#16⟩ := rfl

theorem portOrdered_reset : PortOrdered PortState.reset := dueWithin_nil 1 Config.latency

section ResetEdge

variable {i : PortIn}

theorem cmdReady_of_rst (h : i.rst = true) : cmdReady i = false := by
  rw [cmdReady, h, Bool.not_true, Bool.false_and]

/-- Without `cmd_ready` there is no acceptance (R61). -/
theorem accepts_of_rst (h : i.rst = true) : accepts i = false := by
  rw [accepts, cmdReady_of_rst h, Bool.and_false, Bool.false_and]

theorem tick_out_of_rst (h : i.rst = true) (p : PortState) : (tick i p).2 = ⟨false, none⟩ := by
  rw [tick, if_pos h, cmdReady_of_rst h]

end ResetEdge

/-- Settles O58: the edge leaves the port's reset state, where nothing is due, and puts out neither `cmd_ready` nor a
response. -/
theorem resetEdgeWins : Obligations.ResetEdgeWins := by
  unfold Obligations.ResetEdgeWins
  intro i p hrst
  rw [tick_of_rst hrst, tick_out_of_rst hrst]
  exact ⟨portReset_arch, rfl, rfl, rfl, accepts_of_rst hrst, portOrdered_reset⟩

end Sys2Proof.Proofs
end
